-- ==== Sys2Proof/Word.lean ====
section
/-! DEFINITION. The word types of CDP-CORE. -/

namespace Sys2Proof

/-- A register value: every register access moves 32 bits (rules R23, R63). -/
abbrev Word := BitVec 32

/-- A buffer byte, "8-bit unsigned value" of rule R7. -/
abbrev Byte := BitVec 8

end Sys2Proof
end

