-- ==== Sys2Proof/Config.lean ====
section
/-! DEFINITION. What an instance fixes (the two capacities of rule R6) and the free values (the spec's "unspecified"). None
of them has a body: no proof can see a value of one. -/

namespace Sys2Proof

/-- FREE VALUE: the byte drawn for address `a` by draw number `d` (rules R44, R301, R274, R311; log entries 1, 2, 3; DESIGN CHOICE, safe). A draw is
taken at a reset, at a completion that leaves OBUF bytes unspecified, and at each read of OBUF while BUSY. -/
opaque Config.freeByte (d : Nat) (a : Nat) : Byte

/-- FREE VALUE: the word a host read of a result register returns while BUSY, for draw number `d` (rule R311; log entry 3; DESIGN CHOICE,
safe). -/
opaque Config.freeWord (d : Nat) : Word

/-- OPEN parameter IN_CAP of rule R6, less one, so that every legal value 1 .. 2^32 - 1 and no other is possible (log entry 4;
DESIGN CHOICE, safe). -/
opaque Config.inCapLessOne : Fin 4294967295

/-- OPEN parameter OUT_CAP of rule R6, less one (log entry 4; DESIGN CHOICE, safe). -/
opaque Config.outCapLessOne : Fin 4294967295

/-- The parameter IN_CAP, 1 .. 2^32 - 1. -/
def Config.inCap : Word := BitVec.ofNat 32 (Config.inCapLessOne.val + 1)

/-- The parameter OUT_CAP, 1 .. 2^32 - 1. -/
def Config.outCap : Word := BitVec.ofNat 32 (Config.outCapLessOne.val + 1)

end Sys2Proof
end

