-- ==== Sys2Proof/Syntax.lean ====
section
/-! DEFINITION. The eight commands of CDP-CORE: one constructor per row of the opcode table. -/

namespace Sys2Proof

/-- The commands of rules R2 and R92. A command has no operand field (rule R91). -/
inductive Instr where
  /-- RLE encoder, rule R160. -/
  | rleEnc
  /-- RLE decoder, rule R162. -/
  | rleDec
  /-- Huffman encoder, rule R186. -/
  | hufEnc
  /-- Huffman decoder, rule R190. -/
  | hufDec
  /-- Huffman tree builder, rule R185. -/
  | hufTree
  /-- LZ77 encoder, rule R241. -/
  | lzEnc
  /-- LZ77 decoder, rule R243. -/
  | lzDec
  /-- LZ77 sliding-window matcher, rule R240. -/
  | lzMatch
  deriving DecidableEq, Repr

end Sys2Proof
end

