-- ==== Sys2Proof/WellFormed.lean ====
section
/-! DEFINITION. The fields of a command word and the three checks a word passes to name a command (rules R90, R93). -/

namespace Sys2Proof

/-- The fields of the 32-bit command word, rule R90. -/
structure CommandWord where
  /-- RSV, bits [31:8]: "reserved, must be 0". -/
  rsv : BitVec 24
  /-- ALG, bits [7:4]: the algorithm. -/
  alg : BitVec 4
  /-- FN, bits [3:0]: the function within the algorithm. -/
  fn : BitVec 4
  deriving DecidableEq, Repr

/-- Check 1 of rule R93: the reserved bits are 0. -/
def CommandWord.reservedClear (c : CommandWord) : Bool := c.rsv == 0

/-- Check 2 of rule R93: ALG is 0x1, 0x2 or 0x3. -/
def CommandWord.algNamed (c : CommandWord) : Bool := 1 ≤ c.alg.toNat && c.alg.toNat ≤ 3

/-- Check 3 of rule R93: FN is a function the algorithm has (RLE: 0, 1; Huffman and LZ77: 0, 1, 2). -/
def CommandWord.fnDefined (c : CommandWord) : Bool :=
  if c.alg = 1 then c.fn.toNat ≤ 1 else c.fn.toNat ≤ 2

/-- A command word that names one of the eight commands. -/
def CommandWord.wellFormed (c : CommandWord) : Bool :=
  c.reservedClear && c.algNamed && c.fnDefined

/-- A command has no operand field (rule R91), so every term of `Instr` is well formed. -/
def Instr.wellFormed : Instr → Bool
  | .rleEnc => true
  | .rleDec => true
  | .hufEnc => true
  | .hufDec => true
  | .hufTree => true
  | .lzEnc => true
  | .lzDec => true
  | .lzMatch => true

end Sys2Proof
end

