-- ==== Sys2Proof/Decode.lean ====
section
/-! DEFINITION. The command decoder (rules R90 to R94), total on every 32-bit word and rejecting by name, and the encoder. -/

namespace Sys2Proof

/-- Why a command word names no command, rule R93. -/
inductive DecodeError where
  /-- Case 1: w[31:8] ≠ 0. The command completes with IllegalCommand. -/
  | reservedBits
  /-- Case 2: ALG names no algorithm. The command completes with UnsupportedAlgorithm. -/
  | unknownAlgorithm
  /-- Case 3: the algorithm has no such function. The command completes with IllegalCommand. -/
  | undefinedFunction
  deriving DecidableEq, Repr

/-- The fields of a word, rule R90: `v[hi:lo]` of rule R9. -/
def CommandWord.ofWord (w : Word) : CommandWord :=
  { rsv := w.extractLsb' 8 24, alg := w.extractLsb' 4 4, fn := w.extractLsb' 0 4 }

/-- The word with given fields, rule R90. -/
def CommandWord.toWord (c : CommandWord) : Word := c.rsv ++ c.alg ++ c.fn

/-- The functions of ALG 0x1 (rule R92). -/
def decodeRle (fn : BitVec 4) : Except DecodeError Instr :=
  match fn.toNat with
  | 0 => .ok .rleEnc
  | 1 => .ok .rleDec
  | _ => .error .undefinedFunction

/-- The functions of ALG 0x2 (rule R92). -/
def decodeHuffman (fn : BitVec 4) : Except DecodeError Instr :=
  match fn.toNat with
  | 0 => .ok .hufEnc
  | 1 => .ok .hufDec
  | 2 => .ok .hufTree
  | _ => .error .undefinedFunction

/-- The functions of ALG 0x3 (rule R92). -/
def decodeLz77 (fn : BitVec 4) : Except DecodeError Instr :=
  match fn.toNat with
  | 0 => .ok .lzEnc
  | 1 => .ok .lzDec
  | 2 => .ok .lzMatch
  | _ => .error .undefinedFunction

/-- Decoding the fields in the order of rule R93: reserved bits, then ALG, then FN. -/
def CommandWord.decode (c : CommandWord) : Except DecodeError Instr :=
  if c.rsv ≠ 0 then .error .reservedBits
  else match c.alg.toNat with
    | 1 => decodeRle c.fn
    | 2 => decodeHuffman c.fn
    | 3 => decodeLz77 c.fn
    | _ => .error .unknownAlgorithm

/-- The decoder: every 32-bit word is one of the eight commands or one of the named rejections (rule R94). -/
def decode (w : Word) : Except DecodeError Instr := (CommandWord.ofWord w).decode

/-- The fields of each command's word, columns ALG and FN of rule R92. -/
def Instr.fields : Instr → CommandWord
  | .rleEnc => { rsv := 0, alg := 1, fn := 0 }
  | .rleDec => { rsv := 0, alg := 1, fn := 1 }
  | .hufEnc => { rsv := 0, alg := 2, fn := 0 }
  | .hufDec => { rsv := 0, alg := 2, fn := 1 }
  | .hufTree => { rsv := 0, alg := 2, fn := 2 }
  | .lzEnc => { rsv := 0, alg := 3, fn := 0 }
  | .lzDec => { rsv := 0, alg := 3, fn := 1 }
  | .lzMatch => { rsv := 0, alg := 3, fn := 2 }

/-- The encoder: the command word of a command, rule R92. -/
def encode (i : Instr) : Word := i.fields.toWord

/-- The 32-bit command word whose low `nbits` bits are those of `w`, bits above `nbits` zero. A command is ONE word, and the
register CMD takes it whole (rule R66), so no byte order is involved. -/
def tableWord (nbits w : Nat) : Word := BitVec.ofNat 32 (w % 2 ^ nbits)

/-- What the decoder reads from a word of the opcode table. -/
def decodeTableWord (nbits w : Nat) : Option Instr :=
  match decode (tableWord nbits w) with
  | .ok i => some i
  | .error _ => none

end Sys2Proof
end

