-- ==== Sys2Proof/Machine/State.lean ====
section
/-! DEFINITION. The state of one CDP-CORE instance with its host, as plain data: the register file (rule R24), the two
buffers (rules R43, R44), and, as the model's own, the host's remaining program, the order of turns, what the host has read,
and the number of the next draw. -/

namespace Sys2Proof.Machine

/-- Why the machine stops with a fault: NEVER. Every host access and every completion has an effect in every state (rules
R281, R143), and a codec error is a way a command completes (rule R274), so there is no constructor. Safe: nothing stops. -/
inductive Fault where
  deriving DecidableEq, Repr

/-- Why an instruction is refused. -/
inductive Refusal where
  /-- Raised by `exec` for a command that has no meaning in this model yet. No arm raises it now. Safe: the run stops. -/
  | notModelled (mnemonic : String)
  deriving DecidableEq, Repr

/-- The error kinds of rule R270 (kind None is the absence of an error). -/
inductive ErrKind where
  | unsupportedAlgorithm
  | malformedInput
  | decodeOutOfRange
  | outputOverflow
  | illegalCommand
  | badParameter
  deriving DecidableEq, Repr

/-- The result of a command, rules R143 and R152. -/
inductive CmdResult where
  /-- `Out(out)`: a byte sequence. -/
  | out (bytes : List Byte)
  /-- `Match(d, l, c)`: the result of LZ_MATCH. -/
  | matched (dist len : Nat) (lit : Byte)
  /-- `Err(E, info)`. -/
  | err (kind : ErrKind) (info : Nat)
  deriving DecidableEq, Repr

/-- What the pending command reads, rule R141 (and the parameter IN_CAP, which the check of rule R142 needs). -/
structure Operands where
  inCap : Nat
  n : Nat
  window : Nat
  lookahead : Nat
  pos : Nat
  input : List Byte
  deriving DecidableEq, Repr

/-- The two buffer spaces of rule R60. -/
inductive Space where
  | ibuf
  | obuf
  deriving DecidableEq, Repr

/-- The thirteen registers of rule R24. -/
inductive RegName where
  | cmd
  | status
  | errInfo
  | inLen
  | outLen
  | window
  | lookahead
  | matchPos
  | matchDist
  | matchLen
  | matchLit
  | inCap
  | outCap
  deriving DecidableEq, Repr

/-- The four kinds of host access and no others, rule R62. -/
inductive HostAccess where
  | regRead (off : BitVec 12)
  | regWrite (off : BitVec 12) (v : Word)
  | bufRead (sp : Space) (a : Word)
  | bufWrite (sp : Space) (a : Word) (v : Byte)
  deriving DecidableEq, Repr

/-- One item of a host program: an access, or the host's own loop `wait` of rule R109, each round of which is one read of STATUS. -/
inductive HostStep where
  | access (a : HostAccess)
  | wait
  deriving DecidableEq, Repr

/-- What a host read returned. -/
inductive HostRead where
  | reg (off : BitVec 12) (v : Word)
  | buf (sp : Space) (a : Word) (v : Byte)
  deriving DecidableEq, Repr

/-- Who moves: one of the two agents of rule R12, or the platform asserting reset (rule R300). -/
inductive Turn where
  | host
  | engine
  | reset
  deriving DecidableEq, Repr

/-- A byte buffer: the bytes written since its last draw, and the number of the draw that gives every other byte. -/
structure Buffer where
  /-- The bytes written since the draw, in canonical form: addresses strictly rising (`Memory.wf`). -/
  cells : List Host.Cell
  /-- The number of the draw that made the unlisted bytes unspecified (rules R44, R301). -/
  draw : Nat
  deriving DecidableEq, Repr

/-- The state. A reserved bit has no storage: it reads 0 and a write to it is ignored (rule R24). -/
structure State where
  /-- CMD, rule R25. -/
  cmd : Word
  /-- STATUS.BUSY, rule R26. -/
  busy : Bool
  /-- STATUS.DONE, rule R27. -/
  done : Bool
  /-- STATUS.ERRCODE, rule R28. -/
  errCode : BitVec 4
  /-- STATUS.WBUSY, rule R29. -/
  wbusy : Bool
  /-- ERRINFO, rule R31. -/
  errInfo : Word
  /-- IN_LEN, rule R32. -/
  inLen : Word
  /-- OUT_LEN, rule R33. -/
  outLen : Word
  /-- WINDOW[15:0], rule R34. -/
  window : BitVec 16
  /-- LOOKAHEAD[7:0], rule R35. -/
  lookahead : BitVec 8
  /-- MATCH_POS, rule R36. -/
  matchPos : Word
  /-- MATCH_DIST[15:0], rule R37. -/
  matchDist : BitVec 16
  /-- MATCH_LEN[7:0], rule R38. -/
  matchLen : BitVec 8
  /-- MATCH_LIT[7:0], rule R39. -/
  matchLit : BitVec 8
  /-- IN_CAP, rule R40: the parameter. No step changes it (log entry 10; DESIGN CHOICE, safe). -/
  inCap : Word
  /-- OUT_CAP, rule R41: the parameter. No step changes it (log entry 10; DESIGN CHOICE, safe). -/
  outCap : Word
  /-- IBUF, rule R43. -/
  ibuf : Buffer
  /-- OBUF, rule R44. -/
  obuf : Buffer
  /-- MODEL'S OWN: the number of the next draw of a free value (log entry 1; DESIGN CHOICE, safe). -/
  draws : Nat
  /-- MODEL'S OWN: what the host has still to do, first item first (log entry 5; DESIGN CHOICE, safe). -/
  program : List HostStep
  /-- MODEL'S OWN: who moves next, first turn first (log entry 6; DESIGN CHOICE, unsafe). -/
  turns : List Turn
  /-- MODEL'S OWN: what the host's reads returned, newest first (log entry 5; DESIGN CHOICE, safe). -/
  reads : List HostRead
  deriving DecidableEq, Repr

/-- The state after power-on reset of an instance with the given capacities: the values of rule R48. Both buffers hold draws
of their own. No program is loaded and no order of turns is given. -/
def State.resetFor (inCap outCap : Word) : State :=
  { cmd := 0
    busy := false
    done := false
    errCode := 0
    wbusy := false
    errInfo := 0
    inLen := 0
    outLen := 0
    window := 20
    lookahead := 15
    matchPos := 0
    matchDist := 0
    matchLen := 0
    matchLit := 0
    inCap := inCap
    outCap := outCap
    ibuf := { cells := [], draw := 0 }
    obuf := { cells := [], draw := 1 }
    draws := 2
    program := []
    turns := []
    reads := [] }

/-- The state after power-on reset, rule R48, with the OPEN capacities of rule R6. -/
def State.reset : State := State.resetFor Config.inCap Config.outCap

end Sys2Proof.Machine
end

