-- ==== Sys2Proof/Machine/Ops.lean ====
section
/-! DEFINITION. The operations every command and every host access share: container integers, buffer memory, acceptance,
completion with output, and error completion. -/

namespace Sys2Proof.Machine

/-! ### Container integers and bit-strings (rule R9) -/

/-- `be16(v)`: most significant byte first. -/
def be16 (v : Nat) : List Byte := [BitVec.ofNat 8 (v / 256), BitVec.ofNat 8 v]

/-- `be32(v)`: most significant byte first. -/
def be32 (v : Nat) : List Byte :=
  [BitVec.ofNat 8 (v / 16777216), BitVec.ofNat 8 (v / 65536), BitVec.ofNat 8 (v / 256), BitVec.ofNat 8 v]

/-- The byte `s[p]` of a sequence. Every use is below `len(s)`. -/
def byteAt (s : List Byte) (p : Nat) : Byte := s.getD p 0

/-- `rd16(s, p)`. -/
def rd16 (s : List Byte) (p : Nat) : Nat := (byteAt s p).toNat * 256 + (byteAt s (p + 1)).toNat

/-- `rd32(s, p)`. -/
def rd32 (s : List Byte) (p : Nat) : Nat := rd16 s p * 65536 + rd16 s (p + 2)

/-- `ceil(x / 8)` of rule R8. -/
def ceil8 (x : Nat) : Nat := (x + 7) / 8

/-- The number whose binary digits are `bs`, first bit most significant. -/
def bitsValue (bs : List Bool) : Nat := bs.foldl (fun acc b => 2 * acc + b.toNat) 0

/-- One byte of the MSB-first packing: the first eight bits of `bs`, 0 where there are none (the pad bits). -/
def packByte (bs : List Bool) : Byte := BitVec.ofNat 8 (bitsValue ((bs ++ List.replicate 8 false).take 8))

/-- The first `m` bytes of the MSB-first packing of `bs`. -/
def packBytes : Nat → List Bool → List Byte
  | 0, _ => []
  | m + 1, bs => packByte bs :: packBytes m (bs.drop 8)

/-- The MSB-first packing of a bit-string, rule R9: `ceil(bitlen / 8)` bytes, pad bits 0. -/
def packBits (bs : List Bool) : List Byte := packBytes (ceil8 bs.length) bs

/-- The eight bits of a byte, bit 7 first. -/
def byteBits (v : Byte) : List Bool := (List.range 8).map fun k => v.getMsbD k

/-- The bits of a byte sequence, MSB-first: bit t is bit (7 - t mod 8) of byte t div 8. -/
def unpackBits (s : List Byte) : List Bool := s.flatMap byteBits

/-! ### Buffer memory -/

/-- The bytes of a buffer written since its last draw. -/
abbrev Memory := List Host.Cell

/-- The canonical form: addresses strictly rising. What an unlisted address reads as is no written value at all but the draw
of `Buffer.unlisted`, so no entry can equal it and the form has no second clause (log entry 2; DESIGN CHOICE,
safe). -/
abbrev Memory.wf (m : Memory) : Prop := m.Pairwise fun x y => x.1 < y.1

/-- The byte written at an address since the last draw, if any. -/
def Memory.read? : Memory → Nat → Option Byte
  | [], _ => none
  | (k, v) :: m, a => if k = a then some v else Memory.read? m a

/-- Write one byte, keeping the canonical form. -/
def Memory.write : Memory → Nat → Byte → Memory
  | [], a, v => [(a, v)]
  | (k, w) :: m, a, v =>
    if a < k then (a, v) :: (k, w) :: m
    else if a = k then (a, v) :: m
    else (k, w) :: Memory.write m a v

/-- The memory that holds the bytes of a sequence from address `a` up and nothing else. -/
def Memory.ofBytes : Nat → List Byte → Memory
  | _, [] => []
  | a, v :: vs => (a, v) :: Memory.ofBytes (a + 1) vs

/-- What an address reads as that nothing has written since draw number `draw`: the byte of that draw (rules R44, R301). -/
def Buffer.unlisted (draw a : Nat) : Byte := Config.freeByte draw a

/-- `MemRead(space, a, 1)` of rule R10. -/
def Buffer.read (b : Buffer) (a : Nat) : Byte := (Memory.read? b.cells a).getD (Buffer.unlisted b.draw a)

/-- `MemWrite(space, a, 1, v)` of rule R10. -/
def Buffer.write (b : Buffer) (a : Nat) (v : Byte) : Buffer := { b with cells := Memory.write b.cells a v }

/-! ### Acceptance -/

/-- Acceptance of a command word, rule R140: one atomic update. It does not look at the word. -/
def acceptCommand (w : Word) (s : State) : State :=
  { s with cmd := w, busy := true, done := false, errCode := 0, errInfo := 0 }

/-! ### Completion -/

/-- STATUS.ERRCODE of an error kind, rule R270. -/
def ErrKind.code : ErrKind → BitVec 4
  | .unsupportedAlgorithm => 1
  | .malformedInput => 2
  | .decodeOutOfRange => 3
  | .outputOverflow => 4
  | .illegalCommand => 5
  | .badParameter => 6

/-- The error kind of a word that names no command, rules R93 and R142. -/
def decodeErrKind : DecodeError → ErrKind
  | .reservedBits => .illegalCommand
  | .unknownAlgorithm => .unsupportedAlgorithm
  | .undefinedFunction => .illegalCommand

/-- The last two assignments of rules R143 and R274. -/
def finish (s : State) : State := { s with busy := false, done := true }

/-- The report registers of a completion: ERRCODE, ERRINFO and OUT_LEN. -/
def report (code : BitVec 4) (info outLen : Nat) (s : State) : State :=
  { s with errCode := code, errInfo := BitVec.ofNat 32 info, outLen := BitVec.ofNat 32 outLen }

/-- OBUF holds `out` from address 0; every other byte is unspecified, one draw per byte taken now (rules R44, R143). -/
def fillObuf (out : List Byte) (s : State) : State :=
  { s with obuf := { cells := Memory.ofBytes 0 out, draw := s.draws }, draws := s.draws + 1 }

/-- The MATCH registers, written by LZ_MATCH only (rules R37 to R39, R143). -/
def setMatch (dist len : Nat) (lit : Byte) (s : State) : State :=
  { s with matchDist := BitVec.ofNat 16 dist, matchLen := BitVec.ofNat 8 len, matchLit := lit }

/-- ERROR COMPLETION, the block's one way to take an error, rule R274: ERRCODE and ERRINFO say which, OUT_LEN is 0, BUSY is
cleared and DONE set. LZ_MATCH clears its MATCH registers and does not touch OBUF (93_implementation_defined.md U2, rule R143;
log entry 7; DEDUCED, unsafe). Every other command, and a word that names none, leaves each OBUF byte unspecified. The block has no operation
that returns from an error (rule R277): the host clears DONE by a write to STATUS, or sends the next command. -/
def errorCompletion (lzMatch : Bool) (e : ErrKind) (info : Nat) (s : State) : State :=
  finish (report e.code info 0 (if lzMatch then setMatch 0 0 0 s else fillObuf [] s))

/-- COMPLETION, rules R143 and R144: the complete output is compared with OUT_CAP only when no error was raised. -/
def completion (lzMatch : Bool) (r : CmdResult) (s : State) : State :=
  match r with
  | .out bytes =>
    if s.outCap.toNat < bytes.length then errorCompletion lzMatch .outputOverflow 0 s
    else finish (report 0 0 bytes.length (fillObuf bytes s))
  | .matched dist len lit => finish (report 0 0 0 (setMatch dist len lit s))
  | .err e info => errorCompletion lzMatch e info s

/-! ### Reset -/

/-- The reset event of rule R300: every register at its reset value, a pending command discarded without completing, every
buffer byte unspecified by a new draw. The capacities are parameters, and the host and the order of turns are not the block's (log entry 8;
DESIGN CHOICE, safe). -/
def resetBlock (s : State) : State :=
  { State.resetFor s.inCap s.outCap with
    ibuf := { cells := [], draw := s.draws }
    obuf := { cells := [], draw := s.draws + 1 }
    draws := s.draws + 2
    program := s.program
    turns := s.turns
    reads := s.reads }

end Sys2Proof.Machine
end

