-- ==== Sys2Proof/Machine/Operands.lean ====
section
/-! DEFINITION. The operands of the pending command (rules R91, R141) and the checks on them before any codec runs (rule R142). -/

namespace Sys2Proof.Machine

/-- The bytes IN: `MemRead(IBUF, 0, 1)` to `MemRead(IBUF, n - 1, 1)`, rule R10. -/
def State.inputBytes (s : State) (n : Nat) : List Byte := (List.range n).map s.ibuf.read

/-- The operands of rule R141. IN is read only when IN_LEN ≤ IN_CAP (rule R65). -/
def State.operands (s : State) : Operands :=
  { inCap := s.inCap.toNat
    n := s.inLen.toNat
    window := s.window.toNat
    lookahead := s.lookahead.toNat
    pos := s.matchPos.toNat
    input := if s.inCap.toNat < s.inLen.toNat then [] else s.inputBytes s.inLen.toNat }

/-- The check of rule R142 that every command makes: IN_LEN > IN_CAP raises BadParameter before the command's rule runs. -/
def checkLength (op : Operands) (r : CmdResult) : CmdResult :=
  if op.inCap < op.n then .err .badParameter 0 else r

/-- The second check of rule R142, made by LZ_MATCH only: MATCH_POS ≥ IN_LEN raises BadParameter. -/
def checkPosition (op : Operands) (r : CmdResult) : CmdResult :=
  if op.n ≤ op.pos then .err .badParameter 0 else r

/-- The result of a rule that either returns `Out(out)` or raises an error. -/
def outOrRaise (r : Except (ErrKind × Nat) (List Byte)) : CmdResult :=
  match r with
  | .ok bytes => .out bytes
  | .error (e, info) => .err e info

end Sys2Proof.Machine
end

