-- ==== Sys2Proof/Machine/Huffman.lean ====
section
/-! DEFINITION. The Huffman tree builder, encoder and decoder (rules R97 to R102, R180 to R197). -/

namespace Sys2Proof.Machine

/-! ### Frequency table, tree and code table -/

/-- `freq[b]`, rule R180. -/
def frequency (input : List Byte) (b : Byte) : Nat := input.count b

/-- The symbols: the byte values that occur, in ascending order (rule R180). -/
def symbols (input : List Byte) : List Byte :=
  ((List.range 256).map (BitVec.ofNat 8)).filter fun b => decide (0 < frequency input b)

/-- A tree node, rule R181: "tagged variant Leaf(byte, weight), Internal(left, right, weight)". -/
inductive HufTree where
  | leaf (sym : Byte) (weight : Nat)
  | internal (left right : HufTree) (weight : Nat)
  deriving DecidableEq, Repr

/-- The weight of a node. -/
def HufTree.weight : HufTree → Nat
  | .leaf _ w => w
  | .internal _ _ w => w

/-- A node in the priority structure with its sequence number (rule R181). -/
structure HufEntry where
  tree : HufTree
  seq : Nat
  deriving DecidableEq, Repr

/-- The order key (weight, seq), compared lexicographically (rule R181). -/
def HufEntry.before (x y : HufEntry) : Bool :=
  x.tree.weight < y.tree.weight || (x.tree.weight == y.tree.weight && x.seq < y.seq)

/-- Put an entry into the priority structure, which is kept with the least key first. -/
def hufInsert (z : HufEntry) : List HufEntry → List HufEntry
  | [] => [z]
  | x :: q => if z.before x then z :: x :: q else x :: hufInsert z q

/-- The leaves, one per symbol in ascending byte value, with seq = 0, 1, ..., k - 1 (rule R181). -/
def hufLeaves (input : List Byte) : List HufEntry :=
  (symbols input).zipIdx.map fun (b, seq) => { tree := .leaf b (frequency input b), seq := seq }

/-- The priority structure of the leaves. -/
def hufQueue (input : List Byte) : List HufEntry := (hufLeaves input).foldr hufInsert []

/-- The loop of rule R182: take the least x and the next least y, put back Internal(x, y) with the next seq. `fuel` bounds the
number of rounds; k - 1 rounds are needed. -/
def hufCombine : Nat → Nat → List HufEntry → Option HufTree
  | _, _, [] => none
  | _, _, [x] => some x.tree
  | 0, _, _ :: _ :: _ => none
  | fuel + 1, next, x :: y :: q =>
    hufCombine fuel (next + 1)
      (hufInsert { tree := .internal x.tree y.tree (x.tree.weight + y.tree.weight), seq := next } q)

/-- The Huffman tree of an input, rule R182 (none for the empty input). -/
def hufTree (input : List Byte) : Option HufTree :=
  hufCombine (symbols input).length (symbols input).length (hufQueue input)

/-- The paths from the root to the leaves: 0 (false) to the left, 1 (true) to the right, first step first (rule R183). -/
def HufTree.paths : HufTree → List (Byte × List Bool)
  | .leaf b _ => [(b, [])]
  | .internal l r _ =>
    l.paths.map (fun e => (e.1, false :: e.2)) ++ r.paths.map (fun e => (e.1, true :: e.2))

/-- A code table: symbols with their bit-strings. -/
abbrev CodeTable := List (Byte × List Bool)

/-- `code[b]` in a table. -/
def CodeTable.code (t : CodeTable) (b : Byte) : List Bool := (t.lookup b).getD []

/-- The table in ascending byte value. -/
def CodeTable.ascending (t : CodeTable) (syms : List Byte) : CodeTable := syms.map fun b => (b, t.code b)

/-- The code table of an input, rule R183, in ascending byte value: the one-bit code "0" for a single symbol, the tree paths
for two or more. -/
def hufCodeTable (input : List Byte) : CodeTable :=
  match symbols input with
  | [] => []
  | [s] => [(s, [false])]
  | syms =>
    match hufTree input with
    | none => []
    | some t => CodeTable.ascending t.paths syms

/-! ### The container -/

/-- One header entry: SYM, LEN, CODE (rule R98). -/
def hufEntryBytes (e : Byte × List Bool) : List Byte :=
  [e.1, BitVec.ofNat 8 e.2.length] ++ packBits e.2

/-- The header of a non-empty table: SYMCOUNT and the entries (rule R98). -/
def hufHeader (t : CodeTable) : List Byte := be16 t.length ++ t.flatMap hufEntryBytes

/-- The output of HUF_TREE, rule R185. -/
def hufTreeOutput (input : List Byte) : List Byte :=
  match hufCodeTable input with
  | [] => []
  | e :: t => hufHeader (e :: t)

/-- The payload bit-string: the codes of the input bytes in order (rule R186). -/
def hufPayloadBits (t : CodeTable) (input : List Byte) : List Bool := input.flatMap t.code

/-- The rule of HUF_ENC, rules R186 and R187. -/
def hufEncode (input : List Byte) : Except (ErrKind × Nat) (List Byte) :=
  if input.length = 0 then .ok []
  else
    let bits := hufPayloadBits (hufCodeTable input) input
    if 4294967296 ≤ bits.length then .error (.outputOverflow, 0)
    else .ok (hufTreeOutput input ++ be32 bits.length ++ packBits bits)

/-! ### The decoder -/

/-- MalformedInput at an offset. -/
def malformed {α : Type} (p : Nat) : Except (ErrKind × Nat) α := .error (.malformedInput, p)

/-- Some code of the table is a prefix of `c`, or `c` of it (rules R190, R191). -/
def CodeTable.clashes (t : CodeTable) (c : List Bool) : Bool :=
  t.any fun e => e.2.isPrefixOf c || c.isPrefixOf e.2

/-- The header entries still to read, from offset `p`, after those of `table`; the table and the offset of NBITS (rules R190,
R191). The checks come in the order the rule writes them. -/
def hufReadEntries (input : List Byte) : Nat → Nat → CodeTable → Except (ErrKind × Nat) (CodeTable × Nat)
  | 0, p, table => .ok (table, p)
  | k + 1, p, table =>
    if input.length < p + 2 then malformed p
    else
      let s := byteAt input p
      let len := (byteAt input (p + 1)).toNat
      let m := ceil8 len
      let bits := unpackBits ((input.drop (p + 2)).take m)
      if table.getLast?.any fun e => s.toNat ≤ e.1.toNat then malformed p
      else if len = 0 then malformed (p + 1)
      else if input.length < p + 2 + m then malformed (p + 2)
      else if (bits.drop len).any id then malformed (p + 2 + m - 1)
      else if table.clashes (bits.take len) then malformed p
      else hufReadEntries input k (p + 2 + m) (table ++ [(s, bits.take len)])

/-- The decoder's trie, rule R192; `absent` is a missing child. -/
inductive Trie where
  | absent
  | leaf (sym : Byte)
  | node (zero one : Trie)
  deriving DecidableEq, Repr

/-- Lead the path `c` to Leaf(s). -/
def Trie.insert : Trie → List Bool → Byte → Trie
  | _, [], s => .leaf s
  | .node z o, false :: c, s => .node (z.insert c s) o
  | .node z o, true :: c, s => .node z (o.insert c s)
  | .absent, false :: c, s => .node (Trie.absent.insert c s) .absent
  | .absent, true :: c, s => .node .absent (Trie.absent.insert c s)
  | .leaf b, false :: c, s => .node ((Trie.leaf b).insert c s) .absent
  | .leaf b, true :: c, s => .node .absent ((Trie.leaf b).insert c s)

/-- The child of a node on a side. -/
def Trie.child : Trie → Bool → Trie
  | .node z _, false => z
  | .node _ o, true => o
  | .absent, _ => .absent
  | .leaf _, _ => .absent

/-- The trie of a table, rule R192. -/
def CodeTable.trie (t : CodeTable) : Trie := t.foldl (fun acc e => acc.insert e.2 e.1) .absent

/-- The payload walk of rule R190. `pos` is the node reached, none at the root; `payload` is the offset of PAYLOAD and `t` the
number of bits walked. -/
def hufWalk (root : Trie) (payload : Nat) : Option Trie → Nat → List Bool → Except (ErrKind × Nat) (List Byte)
  | none, _, [] => .ok []
  | some _, t, [] => malformed (payload + (t - 1) / 8)
  | pos, t, b :: bs =>
    match (pos.getD root).child b with
    | .absent => malformed (payload + t / 8)
    | .leaf s => (hufWalk root payload none (t + 1) bs).map fun out => s :: out
    | .node z o => hufWalk root payload (some (.node z o)) (t + 1) bs

/-- NBITS at offset `q` and the payload after it (rules R190, R193, R194). -/
def hufDecodePayload (input : List Byte) (table : CodeTable) (q : Nat) : Except (ErrKind × Nat) (List Byte) :=
  if input.length < q + 4 then malformed q
  else
    let nb := rd32 input q
    let p := q + 4
    let m := ceil8 nb
    if input.length - p < m then malformed q
    else if m < input.length - p then malformed (p + m)
    else
      let bits := unpackBits (input.drop p)
      if nb % 8 ≠ 0 ∧ (bits.drop nb).any id then malformed (p + m - 1)
      else hufWalk table.trie p none 0 (bits.take nb)

/-- The rule of HUF_DEC, rule R190. -/
def hufDecode (input : List Byte) : Except (ErrKind × Nat) (List Byte) :=
  if input.length = 0 then .ok []
  else if input.length < 2 then malformed 0
  else
    let k := rd16 input 0
    if k = 0 ∨ 256 < k then malformed 0
    else match hufReadEntries input k 2 [] with
      | .error e => .error e
      | .ok (table, q) => hufDecodePayload input table q

/-! ### The commands -/

/-- The result of HUF_TREE on its operands. -/
def hufTreeResult (op : Operands) : CmdResult := checkLength op (.out (hufTreeOutput op.input))

/-- The result of HUF_ENC on its operands. -/
def hufEncResult (op : Operands) : CmdResult := checkLength op (outOrRaise (hufEncode op.input))

/-- The result of HUF_DEC on its operands. -/
def hufDecResult (op : Operands) : CmdResult := checkLength op (outOrRaise (hufDecode op.input))

/-- HUF_TREE, rule R185. -/
def execHufTree (s : State) : Host.Outcome State Fault Refusal := .next (completion false (hufTreeResult s.operands) s)

/-- HUF_ENC, rule R186. -/
def execHufEnc (s : State) : Host.Outcome State Fault Refusal := .next (completion false (hufEncResult s.operands) s)

/-- HUF_DEC, rule R190. -/
def execHufDec (s : State) : Host.Outcome State Fault Refusal := .next (completion false (hufDecResult s.operands) s)

end Sys2Proof.Machine
end

