-- ==== Sys2Proof/Machine/Lz77.lean ====
section
/-! DEFINITION. The LZ77 matcher, encoder and decoder (rules R103 to R105, R230 to R248). -/

namespace Sys2Proof.Machine

/-! ### The window search -/

/-- The length of the common prefix of two sequences, at most `maxlen`: the scan of rule R232. -/
def commonPrefix : Nat → List Byte → List Byte → Nat
  | 0, _, _ => 0
  | _ + 1, [], _ => 0
  | _ + 1, _ :: _, [] => 0
  | k + 1, x :: xs, y :: ys => if x = y then commonPrefix k xs ys + 1 else 0

/-- `matchlen(j, i, maxlen)`, rule R232. The candidate may run past the cursor. -/
def matchLength (input : List Byte) (j i maxlen : Nat) : Nat := commonPrefix maxlen (input.drop j) (input.drop i)

/-- `maxlen(i)`, rule R233: one byte is kept for the literal. -/
def maxMatch (input : List Byte) (la i : Nat) : Nat := min la (input.length - 1 - i)

/-- A search result: the best distance and length so far. -/
structure LzBest where
  dist : Nat
  len : Nat
  deriving DecidableEq, Repr

/-- One candidate of rule R234: it replaces the best only when strictly longer. -/
def lzConsider (input : List Byte) (i maxlen : Nat) (best : LzBest) (j : Nat) : LzBest :=
  if best.len < matchLength input j i maxlen then { dist := i - j, len := matchLength input j i maxlen } else best

/-- The search at cursor `i`, rules R231 and R234: candidates from the oldest, max(0, i - W), to the newest, i - 1. -/
def lzSearch (input : List Byte) (w la i : Nat) : LzBest :=
  (List.range' (i - w) (i - (i - w))).foldl (lzConsider input i (maxMatch input la i)) { dist := 0, len := 0 }

/-! ### Tokens -/

/-- A token (distance, length, literal), rule R103. -/
structure LzToken where
  dist : Nat
  len : Nat
  lit : Byte
  deriving DecidableEq, Repr

/-- The four bytes of a token: DIST be16, LEN, LIT (rule R103). -/
def LzToken.bytes (t : LzToken) : List Byte := be16 t.dist ++ [BitVec.ofNat 8 t.len, t.lit]

/-- The token the encoder emits at cursor `i` (rules R241, R242): the search result and the byte after the match; (0, 0, IN[i])
when there is no match. -/
def lzTokenAt (input : List Byte) (w la i : Nat) : LzToken :=
  let best := lzSearch input w la i
  { dist := best.dist, len := best.len, lit := byteAt input (i + best.len) }

/-- The tokens from cursor `i` on, rule R241. `fuel` bounds their number; one per input byte is enough. -/
def lzTokens (input : List Byte) (w la : Nat) : Nat → Nat → List LzToken
  | 0, _ => []
  | fuel + 1, i =>
    if i < input.length then
      lzTokenAt input w la i :: lzTokens input w la fuel (i + (lzTokenAt input w la i).len + 1)
    else []

/-- The output of LZ_ENC, rule R241. -/
def lzEncode (input : List Byte) (w la : Nat) : List Byte :=
  (lzTokens input w la input.length 0).flatMap LzToken.bytes

/-! ### The decoder -/

/-- Copy `l` bytes from distance `d`, byte by byte: each byte copied becomes part of the source (rule R243). -/
def lzCopy : Nat → Nat → List Byte → List Byte
  | 0, _, out => out
  | l + 1, d, out => lzCopy l d (out ++ [byteAt out (out.length - d)])

/-- The tokens from offset `p` on, after the output `out` (rule R243). -/
def lzDecodeTokens : Nat → List Byte → List Byte → Except (ErrKind × Nat) (List Byte)
  | p, out, d1 :: d0 :: l :: c :: rest =>
    let d := d1.toNat * 256 + d0.toNat
    if (d = 0) ≠ (l.toNat = 0) then .error (.malformedInput, p)
    else if out.length < d then .error (.decodeOutOfRange, p)
    else lzDecodeTokens (p + 4) (lzCopy l.toNat d out ++ [c]) rest
  | _, out, _ => .ok out

/-- The rule of LZ_DEC, rule R243: the truncated last token is checked first. WINDOW and LOOKAHEAD are not read (rule R244). -/
def lzDecode (input : List Byte) : Except (ErrKind × Nat) (List Byte) :=
  if input.length % 4 ≠ 0 then .error (.malformedInput, input.length - input.length % 4)
  else lzDecodeTokens 0 [] input

/-! ### The commands -/

/-- The result of LZ_ENC on its operands. -/
def lzEncResult (op : Operands) : CmdResult := checkLength op (.out (lzEncode op.input op.window op.lookahead))

/-- The result of LZ_DEC on its operands. -/
def lzDecResult (op : Operands) : CmdResult := checkLength op (outOrRaise (lzDecode op.input))

/-- The token at MATCH_POS as a result. -/
def tokenResult (t : LzToken) : CmdResult := .matched t.dist t.len t.lit

/-- The result of LZ_MATCH on its operands, rule R240: exactly the token LZ_ENC would emit at MATCH_POS. -/
def lzMatchResult (op : Operands) : CmdResult :=
  checkLength op (checkPosition op (tokenResult (lzTokenAt op.input op.window op.lookahead op.pos)))

/-- LZ_ENC, rule R241. -/
def execLzEnc (s : State) : Host.Outcome State Fault Refusal := .next (completion false (lzEncResult s.operands) s)

/-- LZ_DEC, rule R243. -/
def execLzDec (s : State) : Host.Outcome State Fault Refusal := .next (completion false (lzDecResult s.operands) s)

/-- LZ_MATCH, rule R240. -/
def execLzMatch (s : State) : Host.Outcome State Fault Refusal := .next (completion true (lzMatchResult s.operands) s)

end Sys2Proof.Machine
end

