-- ==== Sys2Proof/Machine/Rle.lean ====
section
/-! DEFINITION. The RLE encoder and decoder (rules R95, R160 to R164). -/

namespace Sys2Proof.Machine

/-- The maximal runs of a byte sequence, in order: each value with its length (the scan of rule R160). -/
def rleRuns : List Byte → List (Byte × Nat)
  | [] => []
  | v :: vs =>
    match rleRuns vs with
    | [] => [(v, 1)]
    | (u, r) :: rest => if v = u then (u, r + 1) :: rest else (v, 1) :: (u, r) :: rest

/-- The pairs of one run of length r ≥ 1: full pairs (v, 255) while more than 255 remain, then the rest, 1 to 255 (rule R160). -/
def rleSplit (v : Byte) (r : Nat) : List Byte :=
  (List.replicate ((r - 1) / 255) [v, 255]).flatten ++ [v, BitVec.ofNat 8 ((r - 1) % 255 + 1)]

/-- The output of RLE_ENC, rule R160. -/
def rleEncode (input : List Byte) : List Byte :=
  (rleRuns input).flatMap fun run => rleSplit run.1 run.2

/-- The pairs of an RLE container from offset `p` on; a count of 0 is malformed at its own offset (rule R162). -/
def rleDecodePairs : Nat → List Byte → Except (ErrKind × Nat) (List Byte)
  | p, v :: c :: rest =>
    if c = 0 then .error (.malformedInput, p + 1)
    else (rleDecodePairs (p + 2) rest).map fun out => List.replicate c.toNat v ++ out
  | _, _ => .ok []

/-- The rule of RLE_DEC, rule R162: the odd trailing byte is checked first. -/
def rleDecode (input : List Byte) : Except (ErrKind × Nat) (List Byte) :=
  if input.length % 2 = 1 then .error (.malformedInput, input.length - 1)
  else rleDecodePairs 0 input

/-- The result of RLE_ENC on its operands. -/
def rleEncResult (op : Operands) : CmdResult := checkLength op (.out (rleEncode op.input))

/-- The result of RLE_DEC on its operands. -/
def rleDecResult (op : Operands) : CmdResult := checkLength op (outOrRaise (rleDecode op.input))

/-- RLE_ENC, rule R160: its completion by the engine (rule R143). -/
def execRleEnc (s : State) : Host.Outcome State Fault Refusal := .next (completion false (rleEncResult s.operands) s)

/-- RLE_DEC, rule R162. -/
def execRleDec (s : State) : Host.Outcome State Fault Refusal := .next (completion false (rleDecResult s.operands) s)

end Sys2Proof.Machine
end

