-- ==== Sys2Proof/Machine/Dispatch.lean ====
section
/-! DEFINITION. The meaning of each command, one arm per command. -/

namespace Sys2Proof.Machine

def exec (i : Instr) (s : State) : Host.Outcome State Fault Refusal :=
  match i with
  | .rleEnc => Sys2Proof.Machine.execRleEnc s
  | .rleDec => Sys2Proof.Machine.execRleDec s
  | .hufEnc => Sys2Proof.Machine.execHufEnc s
  | .hufDec => Sys2Proof.Machine.execHufDec s
  | .hufTree => Sys2Proof.Machine.execHufTree s
  | .lzEnc => Sys2Proof.Machine.execLzEnc s
  | .lzDec => Sys2Proof.Machine.execLzDec s
  | .lzMatch => Sys2Proof.Machine.execLzMatch s

end Sys2Proof.Machine
end

