-- ==== Sys2Proof/Machine/Flags.lean ====
section
/-! DEFINITION. The STATUS register as the host reads and writes it (rules R24, R26 to R30, R45). The block has no condition
codes; its flags are BUSY, DONE and WBUSY. -/

namespace Sys2Proof.Machine

/-- STATUS as a word: [0] BUSY, [1] DONE, [3:2] 0, [7:4] ERRCODE, [8] WBUSY, [31:9] 0 (rule R24). -/
def State.statusWord (s : State) : Word :=
  0#23 ++ BitVec.ofBool s.wbusy ++ s.errCode ++ 0#2 ++ BitVec.ofBool s.done ++ BitVec.ofBool s.busy

/-- A host write to STATUS: a 1 in bit 1 clears DONE, a 1 in bit 8 clears WBUSY, every other bit is ignored (rules R27, R29, R30). -/
def writeStatus (v : Word) (s : State) : State :=
  { s with done := s.done && !v.getLsbD 1, wbusy := s.wbusy && !v.getLsbD 8 }

/-- A dropped host write sets WBUSY and does nothing else (rules R29, R310). -/
def dropWrite (s : State) : State := { s with wbusy := true }

end Sys2Proof.Machine
end

