-- ==== Sys2Proof/Machine/HostPort.lean ====
section
/-! DEFINITION. The host interface: register and buffer accesses (rules R23, R60 to R64, R310, R311), one host turn, and one
reset turn. -/

namespace Sys2Proof.Machine

/-! ### The register map -/

/-- The register an access to `off` reaches; bits [1:0] are ignored, and offsets 0x034 to 0xFFC hold none (rules R23, R24, R42). -/
def regAt (off : BitVec 12) : Option RegName :=
  match off.toNat / 4 with
  | 0 => some .cmd
  | 1 => some .status
  | 2 => some .errInfo
  | 3 => some .inLen
  | 4 => some .outLen
  | 5 => some .window
  | 6 => some .lookahead
  | 7 => some .matchPos
  | 8 => some .matchDist
  | 9 => some .matchLen
  | 10 => some .matchLit
  | 11 => some .inCap
  | 12 => some .outCap
  | _ => none

/-- `off(REG)` of rule R24. -/
def RegName.offset : RegName → BitVec 12
  | .cmd => 0x000
  | .status => 0x004
  | .errInfo => 0x008
  | .inLen => 0x00C
  | .outLen => 0x010
  | .window => 0x014
  | .lookahead => 0x018
  | .matchPos => 0x01C
  | .matchDist => 0x020
  | .matchLen => 0x024
  | .matchLit => 0x028
  | .inCap => 0x02C
  | .outCap => 0x030

/-- The 32-bit value of a register, reserved bits 0 (rules R24, R63). -/
def State.regValue (s : State) : RegName → Word
  | .cmd => s.cmd
  | .status => s.statusWord
  | .errInfo => s.errInfo
  | .inLen => s.inLen
  | .outLen => s.outLen
  | .window => s.window.setWidth 32
  | .lookahead => s.lookahead.setWidth 32
  | .matchPos => s.matchPos
  | .matchDist => s.matchDist.setWidth 32
  | .matchLen => s.matchLen.setWidth 32
  | .matchLit => s.matchLit.setWidth 32
  | .inCap => s.inCap
  | .outCap => s.outCap

/-- The result registers, whose value is unspecified while BUSY (rule R311). -/
def RegName.isResult : RegName → Bool
  | .errInfo => true
  | .outLen => true
  | .matchDist => true
  | .matchLen => true
  | .matchLit => true
  | .cmd => false
  | .status => false
  | .inLen => false
  | .window => false
  | .lookahead => false
  | .matchPos => false
  | .inCap => false
  | .outCap => false

/-! ### Reads -/

/-- Record what a host read returned. -/
def observe (r : HostRead) (s : State) : State := { s with reads := r :: s.reads }

/-- Use up one draw. -/
def takeDraw (s : State) : State := { s with draws := s.draws + 1 }

/-- `RegRead(off)`: a result register read while BUSY gives a fresh draw (rule R311); a reserved offset reads 0 (rule R42). -/
def readReg (off : BitVec 12) (s : State) : State :=
  match regAt off with
  | none => observe (.reg off 0) s
  | some r =>
    if s.busy && r.isResult then observe (.reg off (Config.freeWord s.draws)) (takeDraw s)
    else observe (.reg off (s.regValue r)) s

/-- `BufRead(space, a)`: 0 at or above the capacity (rule R64); a read of OBUF while BUSY gives a fresh draw
(rule R311; log entry 3: at any address, DESIGN CHOICE, safe). -/
def readBuf (sp : Space) (a : Word) (s : State) : State :=
  match sp with
  | .ibuf =>
    observe (.buf .ibuf a (if a.toNat < s.inCap.toNat then s.ibuf.read a.toNat else 0)) s
  | .obuf =>
    if s.busy then observe (.buf .obuf a (Config.freeByte s.draws a.toNat)) (takeDraw s)
    else observe (.buf .obuf a (if a.toNat < s.outCap.toNat then s.obuf.read a.toNat else 0)) s

/-! ### Writes -/

/-- A register write performed while idle: the access column of rule R24. -/
def writeRegIdle (r : Option RegName) (v : Word) (s : State) : State :=
  match r with
  | some .cmd => acceptCommand v s
  | some .status => writeStatus v s
  | some .inLen => { s with inLen := v }
  | some .window => { s with window := v.setWidth 16 }
  | some .lookahead => { s with lookahead := v.setWidth 8 }
  | some .matchPos => { s with matchPos := v }
  | some .errInfo => s
  | some .outLen => s
  | some .matchDist => s
  | some .matchLen => s
  | some .matchLit => s
  | some .inCap => s
  | some .outCap => s
  | none => s

/-- `RegWrite(off, v)`: while BUSY every write but one to STATUS is dropped (rule R310). -/
def writeReg (off : BitVec 12) (v : Word) (s : State) : State :=
  if s.busy && regAt off ≠ some .status then dropWrite s else writeRegIdle (regAt off) v s

/-- `BufWrite(space, a, v)`: dropped while BUSY (rule R310); ignored at or above the capacity (rule R64). -/
def writeBuf (sp : Space) (a : Word) (v : Byte) (s : State) : State :=
  if s.busy then dropWrite s
  else match sp with
    | .ibuf => if a.toNat < s.inCap.toNat then { s with ibuf := s.ibuf.write a.toNat v } else s
    | .obuf => if a.toNat < s.outCap.toNat then { s with obuf := s.obuf.write a.toNat v } else s

/-- One host access, rule R62. -/
def performAccess (a : HostAccess) (s : State) : State :=
  match a with
  | .regRead off => readReg off s
  | .regWrite off v => writeReg off v s
  | .bufRead sp a => readBuf sp a s
  | .bufWrite sp a v => writeBuf sp a v s

/-! ### Turns -/

/-- One host turn: the first item of the host's program. A `wait` reads STATUS and stays until it read BUSY = 0 (rule R109).
A host that has nothing left does nothing. -/
def hostTurn (s : State) : State :=
  match s.program with
  | [] => s
  | .access a :: rest => performAccess a { s with program := rest }
  | .wait :: rest =>
    performAccess (.regRead RegName.status.offset)
      { s with program := if s.statusWord.getLsbD 0 then .wait :: rest else rest }

/-- Who moves: the first turn of the order given; with no order left, the engine while a command is pending (the fairness of
rule R313; log entry 6; DESIGN CHOICE, unsafe), else the host while its program lasts, else nobody (rule R286). -/
def State.mover (s : State) : Option Turn :=
  match s.turns with
  | t :: _ => some t
  | [] => if s.busy then some .engine else if s.program.isEmpty then none else some .host

/-- Strike off the turn that is being taken. -/
def popTurn (s : State) : State := { s with turns := s.turns.tail }

end Sys2Proof.Machine
end

