-- ==== Sys2Proof/Machine/Perform.lean ====
section
/-! DEFINITION. The one total function of the model signature, rule R152: `perform` answers the result of a command word on
its operands, with the checks of rule R142 first. -/

namespace Sys2Proof.Machine

/-- The result of each command on its operands. -/
def commandResult (i : Instr) (op : Operands) : CmdResult :=
  match i with
  | .rleEnc => rleEncResult op
  | .rleDec => rleDecResult op
  | .hufEnc => hufEncResult op
  | .hufDec => hufDecResult op
  | .hufTree => hufTreeResult op
  | .lzEnc => lzEncResult op
  | .lzDec => lzDecResult op
  | .lzMatch => lzMatchResult op

/-- The command is LZ_MATCH, which writes the MATCH registers and no OBUF byte (rules R143, R274). -/
def Instr.isMatch (i : Instr) : Bool := i == .lzMatch

/-- `perform` of rule R152. -/
def perform (w : Word) (op : Operands) : CmdResult :=
  match decode w with
  | .error e => .err (decodeErrKind e) 0
  | .ok i => commandResult i op

/-- Completion of a word that names no command: an error with ERRINFO = 0 (rules R93, R271, R274). -/
def illegalCompletion (e : DecodeError) (s : State) : State := errorCompletion false (decodeErrKind e) 0 s

end Sys2Proof.Machine
end

