-- ==== Sys2Proof/Machine/Step.lean ====
section
/-! DEFINITION. One step of the machine: the turn of the host, of the engine, or of the platform that resets the block. -/

namespace Sys2Proof.Machine

/-- The engine's step, rule R143: enabled exactly when BUSY = 1; it decodes CMD and completes the command. -/
def engineStep (s : State) : Host.Outcome State Fault Refusal :=
  if s.busy then
    match decode s.cmd with
    | .ok i => exec i s
    | .error e => .next (illegalCompletion e s)
  else .next s

/-- One step: whoever `State.mover` names moves, its turn struck off. An idle block keeps its state (rule R286). -/
def step (s : State) : Host.Outcome State Fault Refusal :=
  match s.mover with
  | none => .next s
  | some .engine => engineStep (popTurn s)
  | some .host => .next (hostTurn (popTurn s))
  | some .reset => .next (resetBlock (popTurn s))

/-- The state in which the very next step is the engine's and performs the command word `w`: the word is accepted (rule R140)
as by a host write to CMD, and the engine has the next turn (log entry 5; DESIGN CHOICE, safe). -/
def State.withFetchWord (s : State) (nbits w : Nat) : State :=
  { acceptCommand (tableWord nbits w) s with turns := .engine :: s.turns }

end Sys2Proof.Machine
end

