-- ==== Sys2Proof/Machine/Program.lean ====
section
/-! DEFINITION. Host programs: the assembler syntax, command names and pseudo-instructions of rules R107 to R109. -/

namespace Sys2Proof.Machine

/-- A line of a host program, rules R107 and R109. -/
inductive HostLine where
  | rd (r : RegName)
  | wr (r : RegName) (v : Word)
  | rdb (sp : Space) (a : Word)
  | wrb (sp : Space) (a : Word) (v : Byte)
  | load (sp : Space) (bytes : List Byte)
  | wait
  | run (i : Instr)
  | clr
  | poison (n : Nat) (v : Byte)
  deriving DecidableEq, Repr

/-- The mnemonic of a command, rule R92. -/
def mnemonicOf : Instr → String
  | .rleEnc => "RLE_ENC"
  | .rleDec => "RLE_DEC"
  | .hufEnc => "HUF_ENC"
  | .hufDec => "HUF_DEC"
  | .hufTree => "HUF_TREE"
  | .lzEnc => "LZ_ENC"
  | .lzDec => "LZ_DEC"
  | .lzMatch => "LZ_MATCH"

/-- The alias of a command, rule R108. -/
def aliasOf : Instr → String
  | .rleEnc => "rle.compress"
  | .rleDec => "rle.decompress"
  | .hufEnc => "huffman.compress"
  | .hufDec => "huffman.decompress"
  | .hufTree => "huffman.tree"
  | .lzEnc => "lz77.compress"
  | .lzDec => "lz77.decompress"
  | .lzMatch => "lz77.match"

/-- The eight commands. -/
def allCommands : List Instr := [.rleEnc, .rleDec, .hufEnc, .hufDec, .hufTree, .lzEnc, .lzDec, .lzMatch]

/-- The command a `run` line names, by mnemonic or alias (rule R108). -/
def commandNamed (name : String) : Option Instr :=
  allCommands.find? fun i => name == mnemonicOf i || name == aliasOf i

/-- Writes of consecutive bytes from address `a` up. -/
def writeBytes (sp : Space) : Nat → List Byte → List HostStep
  | _, [] => []
  | a, v :: vs => .access (.bufWrite sp (BitVec.ofNat 32 a) v) :: writeBytes sp (a + 1) vs

/-- The expansion of a line into accesses, rules R107 and R109. -/
def HostLine.expand : HostLine → List HostStep
  | .rd r => [.access (.regRead r.offset)]
  | .wr r v => [.access (.regWrite r.offset v)]
  | .rdb sp a => [.access (.bufRead sp a)]
  | .wrb sp a v => [.access (.bufWrite sp a v)]
  | .load .ibuf bytes =>
    writeBytes .ibuf 0 bytes ++ [.access (.regWrite RegName.inLen.offset (BitVec.ofNat 32 bytes.length))]
  | .load .obuf bytes => writeBytes .obuf 0 bytes
  | .wait => [.wait]
  | .run i => [.access (.regWrite RegName.cmd.offset (encode i)), .wait]
  | .clr => [.access (.regWrite RegName.status.offset 0x102)]
  | .poison n v => writeBytes .obuf 0 (List.replicate n v)

/-- A host program as the steps the host takes. -/
def assemble (lines : List HostLine) : List HostStep := lines.flatMap HostLine.expand

/-! ### The text of a line (rule R107) -/

/-- A token of a line. -/
inductive LineToken where
  | word (w : List Char)
  | comma
  | bracketLeft
  | bracketRight
  deriving DecidableEq, Repr

/-- The word read so far, last character first, as a token. -/
def wordToken (acc : List Char) : List LineToken := if acc.isEmpty then [] else [.word acc.reverse]

/-- The tokens of a line; a comment starts with ';' (rule R107). That it runs to the end of the line, and that spaces and tabs
separate words, is the model's choice (log entry 15; DESIGN CHOICE, unsafe). -/
def lexLine : List Char → List Char → List LineToken
  | [], acc => wordToken acc
  | c :: cs, acc =>
    if c = ';' then wordToken acc
    else if c = ' ' ∨ c = '\t' then wordToken acc ++ lexLine cs []
    else if c = ',' then wordToken acc ++ .comma :: lexLine cs []
    else if c = '[' then wordToken acc ++ .bracketLeft :: lexLine cs []
    else if c = ']' then wordToken acc ++ .bracketRight :: lexLine cs []
    else lexLine cs (c :: acc)

/-- A decimal digit. -/
def decDigit (c : Char) : Option Nat := if '0' ≤ c ∧ c ≤ '9' then some (c.toNat - 48) else none

/-- A hex digit, of either case (log entry 15; DESIGN CHOICE, unsafe). -/
def hexDigit (c : Char) : Option Nat :=
  if '0' ≤ c ∧ c ≤ '9' then some (c.toNat - 48)
  else if 'a' ≤ c ∧ c ≤ 'f' then some (c.toNat - 87)
  else if 'A' ≤ c ∧ c ≤ 'F' then some (c.toNat - 55)
  else none

/-- Decimal digits after a number already read. -/
def readDec : Nat → List Char → Option Nat
  | n, [] => some n
  | n, c :: cs => (decDigit c).bind fun d => readDec (n * 10 + d) cs

/-- Hex digits after a number already read. -/
def readHex : Nat → List Char → Option Nat
  | n, [] => some n
  | n, c :: cs => (hexDigit c).bind fun d => readHex (n * 16 + d) cs

/-- A number, "decimal or 0x-hex" (rule R107), below `bound`. -/
def readNumber (bound : Nat) (w : List Char) : Option Nat :=
  (match w with
    | '0' :: 'x' :: d :: ds => readHex 0 (d :: ds)
    | [] => none
    | w => readDec 0 w).filter fun n => decide (n < bound)

/-- The bytes between the brackets of `load`, two hex digits each, up to the closing bracket (rules R7, R109; log entry 9;
DESIGN CHOICE, unsafe). -/
def readBytes : List LineToken → Option (List Byte)
  | [.bracketRight] => some []
  | .word [a, b] :: rest =>
    (readHex 0 [a, b]).bind fun v => (readBytes rest).map fun vs => BitVec.ofNat 8 v :: vs
  | _ => none

/-- The name of a register, rule R24. -/
def registerName : RegName → List Char
  | .cmd => ['C', 'M', 'D']
  | .status => ['S', 'T', 'A', 'T', 'U', 'S']
  | .errInfo => ['E', 'R', 'R', 'I', 'N', 'F', 'O']
  | .inLen => ['I', 'N', '_', 'L', 'E', 'N']
  | .outLen => ['O', 'U', 'T', '_', 'L', 'E', 'N']
  | .window => ['W', 'I', 'N', 'D', 'O', 'W']
  | .lookahead => ['L', 'O', 'O', 'K', 'A', 'H', 'E', 'A', 'D']
  | .matchPos => ['M', 'A', 'T', 'C', 'H', '_', 'P', 'O', 'S']
  | .matchDist => ['M', 'A', 'T', 'C', 'H', '_', 'D', 'I', 'S', 'T']
  | .matchLen => ['M', 'A', 'T', 'C', 'H', '_', 'L', 'E', 'N']
  | .matchLit => ['M', 'A', 'T', 'C', 'H', '_', 'L', 'I', 'T']
  | .inCap => ['I', 'N', '_', 'C', 'A', 'P']
  | .outCap => ['O', 'U', 'T', '_', 'C', 'A', 'P']

/-- The thirteen registers. -/
def allRegisters : List RegName :=
  [.cmd, .status, .errInfo, .inLen, .outLen, .window, .lookahead, .matchPos, .matchDist, .matchLen, .matchLit, .inCap, .outCap]

/-- The register a line names. -/
def registerNamed (w : List Char) : Option RegName := allRegisters.find? fun r => registerName r == w

/-- The space a line names. -/
def spaceNamed (w : List Char) : Option Space :=
  if w = ['i', 'b', 'u', 'f'] then some .ibuf
  else if w = ['o', 'b', 'u', 'f'] then some .obuf
  else none

/-- What a line of tokens says, rules R107 to R109; none where it is no line of the syntax. A line without tokens, blank or a
comment only, makes no access and is given none as well: the spec does not say whether it is a line of a program (log entry 15;
DESIGN CHOICE, unsafe). -/
def parseTokens : List LineToken → Option HostLine
  | [.word ['r', 'd'], .word r] => (registerNamed r).map .rd
  | [.word ['w', 'r'], .word r, .comma, .word v] =>
    (registerNamed r).bind fun r => (readNumber 4294967296 v).map fun v => .wr r (BitVec.ofNat 32 v)
  | [.word ['r', 'd', 'b'], .word sp, .comma, .word a] =>
    (spaceNamed sp).bind fun sp => (readNumber 4294967296 a).map fun a => .rdb sp (BitVec.ofNat 32 a)
  | [.word ['w', 'r', 'b'], .word sp, .comma, .word a, .comma, .word v] =>
    (spaceNamed sp).bind fun sp => (readNumber 4294967296 a).bind fun a =>
      (readNumber 256 v).map fun v => .wrb sp (BitVec.ofNat 32 a) (BitVec.ofNat 8 v)
  | .word ['l', 'o', 'a', 'd'] :: .word sp :: .comma :: .bracketLeft :: bytes =>
    (spaceNamed sp).bind fun sp => (readBytes bytes).map fun bytes => .load sp bytes
  | [.word ['w', 'a', 'i', 't']] => some .wait
  | [.word ['r', 'u', 'n'], .word name] => (commandNamed (String.ofList name)).map .run
  | [.word ['c', 'l', 'r']] => some .clr
  | [.word ['p', 'o', 'i', 's', 'o', 'n'], .word sp, .comma, .word n, .comma, .word v] =>
    if spaceNamed sp = some .obuf then
      (readNumber 4294967296 n).bind fun n => (readNumber 256 v).map fun v => .poison n (BitVec.ofNat 8 v)
    else none
  | _ => none

/-- What a line of text says; none for a blank or comment-only line (log entry 15; DESIGN CHOICE, unsafe). -/
def parseLine (text : List Char) : Option HostLine := parseTokens (lexLine text [])

end Sys2Proof.Machine
end

