-- ==== Sys2Proof/Safety.lean ====
section
/-! DEFINITION. The terms the claims are stated in: the invariant of a run, what a completed command leaves, and the spec's
own description of runs, matches, tokens and code tables, written without the codecs' algorithms. -/

namespace Sys2Proof.Machine

/-! ### The invariant -/

/-- What holds of every state a run reaches. -/
structure State.Inv (s : State) : Prop where
  /-- Both buffers are in canonical form. -/
  ibufWf : Memory.wf s.ibuf.cells
  obufWf : Memory.wf s.obuf.cells
  /-- No byte is held outside a buffer (rules R43, R44). -/
  ibufInside : ∀ c ∈ s.ibuf.cells, c.1 < s.inCap.toNat
  obufInside : ∀ c ∈ s.obuf.cells, c.1 < s.outCap.toNat
  /-- Both capacities are legal (rule R6). -/
  inCapLegal : 1 ≤ s.inCap.toNat
  outCapLegal : 1 ≤ s.outCap.toNat
  /-- "The codes 7 to 15 are never written" (rule R28). -/
  errCodeLegal : s.errCode.toNat ≤ 6
  /-- From acceptance to completion no result is shown (rule R140). -/
  busyShowsNothing : s.busy = true → s.done = false ∧ s.errCode = 0 ∧ s.errInfo = 0
  /-- Without an error there is no error information (rule R31). -/
  noErrorNoInfo : s.errCode = 0 → s.errInfo = 0
  /-- After an error there is no output (rule R33). -/
  errorNoOutput : s.errCode ≠ 0 → s.outLen = 0
  /-- The output fits in OBUF (rule R144). -/
  outputFits : s.outLen.toNat ≤ s.outCap.toNat
  /-- No byte of OBUF below OUT_LEN is unspecified (rule R44). -/
  outputWritten : ∀ a, a < s.outLen.toNat → (Memory.read? s.obuf.cells a).isSome
  /-- Every draw in use has been taken, and no two buffers share one (rule R44: "one draw per byte"). -/
  drawsTaken : s.ibuf.draw < s.draws ∧ s.obuf.draw < s.draws ∧ s.ibuf.draw ≠ s.obuf.draw

/-! ### Input, output and frames -/

/-- The command's input IN is `xs`: IBUF[0 .. IN_LEN), with IN_LEN ≤ IN_CAP (rules R10, R32). -/
abbrev HoldsInput (s : State) (xs : List Byte) : Prop :=
  s.inLen.toNat = xs.length ∧ xs.length ≤ s.inCap.toNat ∧ ∀ i, i < xs.length → s.ibuf.read i = byteAt xs i

/-- OBUF[0 .. OUT_LEN) is `ys` (rule R33). -/
abbrev HoldsOutput (t : State) (ys : List Byte) : Prop :=
  t.outLen.toNat = ys.length ∧ ∀ i, i < ys.length → t.obuf.read i = byteAt ys i

/-- What no completion changes: the operands, every byte of IBUF, WBUSY, the parameters, and what is the host's (rules R143, R274). -/
structure EngineFrame (s t : State) : Prop where
  cmd : t.cmd = s.cmd
  wbusy : t.wbusy = s.wbusy
  inLen : t.inLen = s.inLen
  window : t.window = s.window
  lookahead : t.lookahead = s.lookahead
  matchPos : t.matchPos = s.matchPos
  inCap : t.inCap = s.inCap
  outCap : t.outCap = s.outCap
  ibuf : ∀ a, t.ibuf.read a = s.ibuf.read a
  program : t.program = s.program
  turns : t.turns = s.turns
  reads : t.reads = s.reads

/-- The MATCH registers keep their values. -/
structure MatchKept (s t : State) : Prop where
  matchDist : t.matchDist = s.matchDist
  matchLen : t.matchLen = s.matchLen
  matchLit : t.matchLit = s.matchLit

/-- Every byte of OBUF reads as before. -/
abbrev ObufKept (s t : State) : Prop := ∀ a, t.obuf.read a = s.obuf.read a

/-- A completion shows BUSY = 0 and DONE = 1 with the given ERRCODE and ERRINFO. -/
structure Reports (t : State) (code : BitVec 4) (info : Nat) : Prop where
  busy : t.busy = false
  done : t.done = true
  errCode : t.errCode = code
  errInfo : t.errInfo = BitVec.ofNat 32 info

/-- Success with output `out` of a command other than LZ_MATCH (rule R143). -/
structure Succeeded (s t : State) (out : List Byte) : Prop where
  reports : Reports t 0 0
  output : HoldsOutput t out
  matchKept : MatchKept s t
  frame : EngineFrame s t

/-- Success of LZ_MATCH with distance `d`, length `l` and literal `c` (rule R143). -/
structure Found (s t : State) (d l : Nat) (c : Byte) : Prop where
  reports : Reports t 0 0
  outLen : t.outLen = 0
  matchDist : t.matchDist.toNat = d
  matchLen : t.matchLen.toNat = l
  matchLit : t.matchLit = c
  obufKept : ObufKept s t
  frame : EngineFrame s t

/-- An error of a command other than LZ_MATCH, or of a word that names no command (rule R274). -/
structure Raised (s t : State) (code : BitVec 4) (info : Nat) : Prop where
  reports : Reports t code info
  outLen : t.outLen = 0
  matchKept : MatchKept s t
  frame : EngineFrame s t

/-- An error of LZ_MATCH: the MATCH registers are 0 (rule R274). -/
structure MatchRaised (s t : State) (code : BitVec 4) (info : Nat) : Prop where
  reports : Reports t code info
  outLen : t.outLen = 0
  matchDist : t.matchDist = 0
  matchLen : t.matchLen = 0
  matchLit : t.matchLit = 0
  obufKept : ObufKept s t
  frame : EngineFrame s t

/-! ### Runs (rules R95, R160, R161) -/

/-- The counts of one run's pairs: every count but the last is 255, the last is 1 to 255. -/
abbrev FullSplit (cs : List Nat) : Prop :=
  cs ≠ [] ∧ (∀ c ∈ cs.dropLast, c = 255) ∧ ∀ c ∈ cs, 1 ≤ c ∧ c ≤ 255

/-- Maximal runs, each with the counts of its pairs: neighbours have different values. -/
abbrev MaximalRuns (runs : List (Byte × List Nat)) : Prop :=
  (∀ r ∈ runs, FullSplit r.2) ∧ runs.IsChain fun a b => a.1 ≠ b.1

/-- The bytes the runs stand for. -/
def runBytes (runs : List (Byte × List Nat)) : List Byte := runs.flatMap fun r => List.replicate r.2.sum r.1

/-- An RLE container from its pairs (value, count). -/
def pairBytes (pairs : List (Byte × Nat)) : List Byte := pairs.flatMap fun p => [p.1, BitVec.ofNat 8 p.2]

/-- The pairs of the runs. -/
def runPairs (runs : List (Byte × List Nat)) : List (Byte × Nat) := runs.flatMap fun r => r.2.map fun c => (r.1, c)

/-! ### Matches and tokens (rules R231 to R234, R241, R243) -/

/-- At cursor `i` a match of length `l` at distance `d`: the window, LOOKAHEAD and the byte kept for the literal bound it. -/
abbrev IsMatch (xs : List Byte) (w la i d l : Nat) : Prop :=
  1 ≤ d ∧ d ≤ i ∧ d ≤ w ∧ l ≤ la ∧ i + l < xs.length ∧ ∀ t, t < l → byteAt xs (i - d + t) = byteAt xs (i + t)

/-- The match the search keeps: no match at all, or a longest one, and of those the one of greatest distance. -/
def BestMatch (xs : List Byte) (w la i d l : Nat) : Prop :=
  (d = 0 ∧ l = 0 ∧ ∀ d' l', IsMatch xs w la i d' l' → l' = 0) ∨
  (1 ≤ l ∧ IsMatch xs w la i d l ∧ ∀ d' l', IsMatch xs w la i d' l' → l' ≤ l ∧ (l' = l → d' ≤ d))

/-- The greedy parse of `xs` from cursor `i` on. -/
inductive GreedyParse (xs : List Byte) (w la : Nat) : Nat → List LzToken → Prop where
  | done : GreedyParse xs w la xs.length []
  | token {i d l : Nat} {rest : List LzToken} (inside : i < xs.length) (best : BestMatch xs w la i d l)
      (more : GreedyParse xs w la (i + l + 1) rest) :
      GreedyParse xs w la i ({ dist := d, len := l, lit := byteAt xs (i + l) } :: rest)

/-- A legal token whose fields fit their bytes (rules R103, R104). -/
abbrev LegalToken (k : LzToken) : Prop := k.dist ≤ 65535 ∧ k.len ≤ 255 ∧ (k.dist = 0 ↔ k.len = 0)

/-- One token takes the output `out` to `out'`: each copied byte equals the byte `dist` before it, itself perhaps just copied. -/
def ExpandsBy (out : List Byte) (k : LzToken) (out' : List Byte) : Prop :=
  k.dist ≤ out.length ∧ ∃ copy : List Byte, out' = out ++ copy ++ [k.lit] ∧ copy.length = k.len ∧
    ∀ m, m < k.len → byteAt copy m = byteAt (out ++ copy) (out.length + m - k.dist)

/-- Tokens take the output `out` to `final`. -/
inductive Expands : List Byte → List LzToken → List Byte → Prop where
  | nil (out : List Byte) : Expands out [] out
  | cons {out mid final : List Byte} {k : LzToken} {ks : List LzToken} (first : ExpandsBy out k mid)
      (more : Expands mid ks final) : Expands out (k :: ks) final

/-- An LZ77 container from its tokens: of each, DIST's high byte, DIST's low byte, LEN and LIT (rules R9, R103). -/
def tokenBytes (ks : List LzToken) : List Byte :=
  ks.flatMap fun k => [BitVec.ofNat 8 (k.dist / 256), BitVec.ofNat 8 (k.dist % 256), BitVec.ofNat 8 k.len, k.lit]

/-! ### The Huffman tree (rules R180 to R183) -/

/-- The order of the keys (weight, seq): weight first, seq second (rule R181). -/
abbrev KeyBefore (x y : HufEntry) : Prop :=
  x.tree.weight < y.tree.weight ∨ x.tree.weight = y.tree.weight ∧ x.seq < y.seq

/-- The nodes the construction starts from: one leaf per byte value that occurs, in ascending byte value, its weight the number
of its occurrences and its seq its index (rules R180, R181). -/
def StartLeaves (xs : List Byte) (leaves : List HufEntry) : Prop :=
  ∃ syms : List Byte, (syms.Pairwise fun a b => a.toNat < b.toNat) ∧ (∀ b, b ∈ syms ↔ b ∈ xs) ∧
    leaves = syms.mapIdx fun k b => { tree := .leaf b (xs.count b), seq := k }

/-- The loop of rule R182 on a set `q` of nodes, in whatever order it is listed, with `next` the next seq, ends in the root `t`. -/
inductive JoinsTo : Nat → List HufEntry → HufTree → Prop where
  | root (next : Nat) (x : HufEntry) : JoinsTo next [x] x.tree
  | round {next : Nat} {q : List HufEntry} {x y : HufEntry} {rest : List HufEntry} {t : HufTree}
      (nodes : q.Perm (x :: y :: rest)) (least : ∀ e ∈ y :: rest, KeyBefore x e) (second : ∀ e ∈ rest, KeyBefore y e)
      (more : JoinsTo (next + 1)
        ({ tree := .internal x.tree y.tree (x.tree.weight + y.tree.weight), seq := next } :: rest) t) :
      JoinsTo next q t

/-- `t` is the tree of rule R182 for the input `xs`: the loop from the leaves, with next = k. -/
def IsHuffmanTree (xs : List Byte) (t : HufTree) : Prop :=
  ∃ leaves, StartLeaves xs leaves ∧ JoinsTo leaves.length leaves t

/-- The bit-string `p` is the path from the root of the tree to the leaf of `b`: 0 (false) for each step to a left child, 1
(true) for each step to a right child, first step first (rule R183). -/
inductive PathTo : HufTree → List Bool → Byte → Prop where
  | here (b : Byte) (w : Nat) : PathTo (.leaf b w) [] b
  | left {l r : HufTree} {w : Nat} {p : List Bool} {b : Byte} (more : PathTo l p b) : PathTo (.internal l r w) (false :: p) b
  | right {l r : HufTree} {w : Nat} {p : List Bool} {b : Byte} (more : PathTo r p b) : PathTo (.internal l r w) (true :: p) b

/-! ### Code tables and Huffman containers (rules R98, R191) -/

/-- No code of the table is equal to or a prefix of another. -/
abbrev PrefixFree (t : CodeTable) : Prop := t.Pairwise fun a b => ¬ a.2 <+: b.2 ∧ ¬ b.2 <+: a.2

/-- A table the decoder accepts: 1 to 256 symbols, strictly ascending, codes of 1 to 255 bits, prefix-free. -/
structure ValidTable (t : CodeTable) : Prop where
  count : 1 ≤ t.length ∧ t.length ≤ 256
  ascending : t.Pairwise fun a b => a.1.toNat < b.1.toNat
  lengths : ∀ e ∈ t, 1 ≤ e.2.length ∧ e.2.length ≤ 255
  prefixFree : PrefixFree t

/-- SYMCOUNT and the entries. -/
def headerBytes (t : CodeTable) : List Byte := be16 t.length ++ t.flatMap hufEntryBytes

/-- A container with the table `t` and the payload `bits`. -/
def containerBytes (t : CodeTable) (bits : List Bool) : List Byte :=
  headerBytes t ++ be32 bits.length ++ packBits bits

/-! ### Comparing two runs -/

/-- Two completed states show the host the same result: every register but WBUSY, and OBUF below OUT_LEN. -/
structure SameResult (t u : State) : Prop where
  cmd : t.cmd = u.cmd
  busy : t.busy = u.busy
  done : t.done = u.done
  errCode : t.errCode = u.errCode
  errInfo : t.errInfo = u.errInfo
  inLen : t.inLen = u.inLen
  outLen : t.outLen = u.outLen
  window : t.window = u.window
  lookahead : t.lookahead = u.lookahead
  matchPos : t.matchPos = u.matchPos
  matchDist : t.matchDist = u.matchDist
  matchLen : t.matchLen = u.matchLen
  matchLit : t.matchLit = u.matchLit
  inCap : t.inCap = u.inCap
  outCap : t.outCap = u.outCap
  ibuf : ∀ a, t.ibuf.read a = u.ibuf.read a
  obuf : ∀ a, a < t.outLen.toNat → t.obuf.read a = u.obuf.read a

/-- Nothing of the block changes but perhaps the number of the next draw and what the host has read. -/
structure BlockKept (s t : State) : Prop where
  cmd : t.cmd = s.cmd
  busy : t.busy = s.busy
  done : t.done = s.done
  errCode : t.errCode = s.errCode
  wbusy : t.wbusy = s.wbusy
  errInfo : t.errInfo = s.errInfo
  inLen : t.inLen = s.inLen
  outLen : t.outLen = s.outLen
  window : t.window = s.window
  lookahead : t.lookahead = s.lookahead
  matchPos : t.matchPos = s.matchPos
  matchDist : t.matchDist = s.matchDist
  matchLen : t.matchLen = s.matchLen
  matchLit : t.matchLit = s.matchLit
  inCap : t.inCap = s.inCap
  outCap : t.outCap = s.outCap
  ibuf : t.ibuf = s.ibuf
  obuf : t.obuf = s.obuf

/-- The access is a host write that BUSY drops: every write but one to STATUS (rule R310). -/
def HostAccess.droppable : HostAccess → Bool
  | .regRead _ => false
  | .regWrite off _ => off.toNat / 4 != 1
  | .bufRead _ _ => false
  | .bufWrite _ _ _ => true

end Sys2Proof.Machine
end

