-- ==== Sys2Proof/Certificates/Slice0/Obligations.lean ====
section
/-! DEFINITION. The statements for the provers. A statement about a command names the state before it, `s`, and the state
after, `t`; `Succeeded`, `Found`, `Raised` and `MatchRaised` (Safety.lean) hold its result and its frame. -/

open Sys2Proof Sys2Proof.Machine

/-! ### The command word -/

/-- Sanity: the eight words of rule R92, as written there, decode to the eight commands. -/
def Obligations.TheEightWordsDecode : Prop :=
  decode 0x00000010#32 = .ok .rleEnc ∧ decode 0x00000011#32 = .ok .rleDec ∧
  decode 0x00000020#32 = .ok .hufEnc ∧ decode 0x00000021#32 = .ok .hufDec ∧
  decode 0x00000022#32 = .ok .hufTree ∧ decode 0x00000030#32 = .ok .lzEnc ∧
  decode 0x00000031#32 = .ok .lzDec ∧ decode 0x00000032#32 = .ok .lzMatch

/-- Rule R92: a word selects a command exactly when all its 32 bits equal that command's word; decoder and encoder agree in
both directions. -/
def Obligations.DecodeAndEncodeAgree : Prop :=
  ∀ (w : Word) (i : Instr), (decode w = .ok i ↔ encode i = w) ∧ encode i = match i with
    | .rleEnc => 0x00000010#32
    | .rleDec => 0x00000011#32
    | .hufEnc => 0x00000020#32
    | .hufDec => 0x00000021#32
    | .hufTree => 0x00000022#32
    | .lzEnc => 0x00000030#32
    | .lzDec => 0x00000031#32
    | .lzMatch => 0x00000032#32

/-- Rule R93: the first case that applies decides. Division and remainder stand for the fields w[31:8], w[7:4] and w[3:0]. -/
def Obligations.DecodingFollowsTheRuleOrder : Prop :=
  ∀ (w : Word) (op : Operands),
    (w.toNat / 256 ≠ 0 → perform w op = .err .illegalCommand 0) ∧
    (w.toNat / 256 = 0 → w.toNat / 16 ∉ [1, 2, 3] → perform w op = .err .unsupportedAlgorithm 0) ∧
    (w.toNat / 256 = 0 → w.toNat / 16 = 1 → 2 ≤ w.toNat % 16 → perform w op = .err .illegalCommand 0) ∧
    (w.toNat / 256 = 0 → w.toNat / 16 ∈ [2, 3] → 3 ≤ w.toNat % 16 → perform w op = .err .illegalCommand 0) ∧
    (w.toNat / 256 = 0 → w.toNat / 16 = 1 → w.toNat % 16 ≤ 1 → ∃ i, encode i = w ∧ perform w op = commandResult i op) ∧
    (w.toNat / 256 = 0 → w.toNat / 16 ∈ [2, 3] → w.toNat % 16 ≤ 2 →
      ∃ i, encode i = w ∧ perform w op = commandResult i op)

/-! ### Steps -/

/-- When the engine has the turn and CMD decodes to a command, the step is that command's meaning, the turn struck off. -/
def Obligations.AStepRunsTheDecodedCommand : Prop :=
  ∀ (s : State) (i : Instr), s.mover = some .engine → s.busy = true → decode s.cmd = .ok i →
    step s = exec i { s with turns := s.turns.tail }

/-- When the host has the turn, the step performs the first access of its program, the turn and the item struck off. -/
def Obligations.AStepPerformsTheHostsNextAccess : Prop :=
  ∀ (s : State) (a : HostAccess) (rest : List HostStep), s.mover = some .host → s.program = .access a :: rest →
    step s = .next (performAccess a { s with program := rest, turns := s.turns.tail })

/-- The block never stops: every state has a next one (a codec error is a completion, rule R274). -/
def Obligations.EveryStateHasANextState : Prop := ∀ s : State, ∃ t, step s = .next t

/-- Between commands the block is idle and keeps all its state (rule R286), whoever is given a turn and has nothing to do. -/
def Obligations.AnIdleBlockKeepsItsState : Prop :=
  ∀ s : State, s.busy = false → s.program = [] → s.mover ≠ some .reset →
    ∃ t, step s = .next t ∧ BlockKept s t ∧ t.draws = s.draws ∧ t.reads = s.reads

/-- Rules R143, R144 and R274 together: the completion of a pending command, whatever its word and its result. That an error of
LZ_MATCH leaves OBUF alone is the model's reading (log entry 7). -/
def Obligations.CompletionAppliesTheResult : Prop :=
  ∀ s : State, s.busy = true → s.mover = some .engine → ∃ t, step s = .next t ∧
    match perform s.cmd s.operands with
    | .out bytes =>
      if bytes.length ≤ s.outCap.toNat then Succeeded (popTurn s) t bytes else Raised (popTurn s) t 4 0
    | .matched d l c => Found (popTurn s) t d l c
    | .err e info =>
      if s.cmd = 0x00000032#32 then MatchRaised (popTurn s) t e.code info else Raised (popTurn s) t e.code info

/-! ### What every command does -/

/-- Whatever its input, a command completes, keeps what rule R143 keeps, and touches OBUF or the MATCH registers only as its
kind may. That an error of LZ_MATCH leaves OBUF alone is the model's reading (log entry 7). -/
def Obligations.EveryCommandKeepsItsFrame : Prop :=
  ∀ (i : Instr) (s : State), ∃ t, exec i s = .next t ∧ EngineFrame s t ∧ t.busy = false ∧ t.done = true ∧
    t.errCode.toNat ≤ 6 ∧ (i = .lzMatch → ObufKept s t ∧ t.outLen = 0) ∧ (i ≠ .lzMatch → MatchKept s t)

/-- Rule R142: IN_LEN > IN_CAP is BadParameter for all eight commands. That LZ_MATCH then leaves OBUF alone is the model's
reading (log entry 7). -/
def Obligations.AnInputBeyondCapacityIsBadParameter : Prop :=
  ∀ (i : Instr) (s : State), s.inCap.toNat < s.inLen.toNat → ∃ t, exec i s = .next t ∧
    (i ≠ .lzMatch → Raised s t 6 0) ∧ (i = .lzMatch → MatchRaised s t 6 0)

/-- Rule R270: the empty input is no error. Every command but LZ_MATCH succeeds with the empty output. -/
def Obligations.TheEmptyInputGivesTheEmptyOutput : Prop :=
  ∀ (i : Instr) (s : State), s.inLen = 0 → i ≠ .lzMatch → ∃ t, exec i s = .next t ∧ Succeeded s t []

/-- Rule R145: the result is a function of the command word, the operands and IN alone, whatever else the two states hold. -/
def Obligations.TheResultDependsOnTheOperandsAlone : Prop :=
  ∀ s u : State, s.busy = true → u.busy = true → s.mover = some .engine → u.mover = some .engine →
    s.cmd = u.cmd → s.inLen = u.inLen → s.window = u.window → s.lookahead = u.lookahead → s.matchPos = u.matchPos →
    s.inCap = u.inCap → s.outCap = u.outCap → (∀ a, a < s.inLen.toNat → s.ibuf.read a = u.ibuf.read a) →
    ∃ t v, step s = .next t ∧ step u = .next v ∧ t.outLen = v.outLen ∧ t.errCode = v.errCode ∧ t.errInfo = v.errInfo ∧
      (∀ a, a < t.outLen.toNat → t.obuf.read a = v.obuf.read a) ∧
      (s.cmd = 0x00000032#32 → t.matchDist = v.matchDist ∧ t.matchLen = v.matchLen ∧ t.matchLit = v.matchLit)

/-- Rule R146: a command that raised an error raises the same error with the same ERRINFO when the host sends it again. -/
def Obligations.AFailureRepeats : Prop :=
  ∀ s : State, s.busy = true → s.mover = some .engine → ∃ t, step s = .next t ∧
    (t.errCode ≠ 0 → ∃ u, step { performAccess (.regWrite 0x000 t.cmd) t with turns := [.engine] } = .next u ∧
      u.errCode = t.errCode ∧ u.errInfo = t.errInfo)

/-! ### RLE -/

/-- Rule R160: RLE_ENC writes the pairs of the maximal runs, a run longer than 255 split into full pairs and a rest. -/
def Obligations.RleEncWritesThePairsOfTheMaximalRuns : Prop :=
  ∀ (s : State) (runs : List (Byte × List Nat)), MaximalRuns runs → HoldsInput s (runBytes runs) →
    2 * (runPairs runs).length ≤ s.outCap.toNat →
    ∃ t, exec .rleEnc s = .next t ∧ Succeeded s t (pairBytes (runPairs runs))

/-- Rules R160 and R161 for every input: it has maximal runs, and their pairs take at most two bytes for one. -/
def Obligations.RleEncAcceptsEveryInput : Prop :=
  ∀ (s : State) (xs : List Byte), HoldsInput s xs → 2 * xs.length ≤ s.outCap.toNat →
    ∃ runs t, MaximalRuns runs ∧ xs = runBytes runs ∧ exec .rleEnc s = .next t ∧
      Succeeded s t (pairBytes (runPairs runs)) ∧ t.outLen.toNat ≤ 2 * xs.length

/-- Rules R162 and R163: RLE_DEC writes each pair's value as often as its count says; adjacent pairs may share a value. -/
def Obligations.RleDecRepeatsEachValue : Prop :=
  ∀ (s : State) (pairs : List (Byte × Nat)), (∀ p ∈ pairs, 1 ≤ p.2 ∧ p.2 ≤ 255) → HoldsInput s (pairBytes pairs) →
    (pairs.map fun p => p.2).sum ≤ s.outCap.toNat →
    ∃ t, exec .rleDec s = .next t ∧ Succeeded s t (pairs.flatMap fun p => List.replicate p.2 p.1)

/-- Rule R162, its errors: an odd length first, at the odd byte; else the first zero count, at its own offset. -/
def Obligations.RleDecErrors : Prop :=
  ∀ (s : State) (xs : List Byte), HoldsInput s xs →
    (xs.length % 2 = 1 → ∃ t, exec .rleDec s = .next t ∧ Raised s t 2 (xs.length - 1)) ∧
    (∀ k, xs.length % 2 = 0 → 2 * k + 1 < xs.length → byteAt xs (2 * k + 1) = 0 →
      (∀ j, j < k → byteAt xs (2 * j + 1) ≠ 0) → ∃ t, exec .rleDec s = .next t ∧ Raised s t 2 (2 * k + 1))

/-- Rule R165: the RLE round trip, between two states of one instance or of two. -/
def Obligations.RleRoundTrip : Prop :=
  ∀ (s s' t : State) (xs es : List Byte), HoldsInput s xs → exec .rleEnc s = .next t → t.errCode = 0 → HoldsOutput t es →
    HoldsInput s' es → xs.length ≤ s'.outCap.toNat →
    ∃ t', exec .rleDec s' = .next t' ∧ Succeeded s' t' xs

/-! ### Huffman -/

/-- Rule R9: the MSB-first packing of a bit-string, its length, its bits and its pad bits; the bytes of `be16` and `be32`, most
significant first; and what `rd16` and `rd32` read. -/
def Obligations.PackingIsMsbFirst : Prop :=
  (∀ bs : List Bool, (packBits bs).length = (bs.length + 7) / 8 ∧
    ∀ k, k < 8 * (packBits bs).length → (byteAt (packBits bs) (k / 8)).getLsbD (7 - k % 8) = bs.getD k false) ∧
  (∀ v : Nat, (be16 v).map BitVec.toNat = [v / 256 % 256, v % 256] ∧
    (be32 v).map BitVec.toNat = [v / 16777216 % 256, v / 65536 % 256, v / 256 % 256, v % 256]) ∧
  ∀ (xs : List Byte) (p : Nat), rd16 xs p = 256 * (byteAt xs p).toNat + (byteAt xs (p + 1)).toNat ∧
    rd32 xs p = 16777216 * (byteAt xs p).toNat + 65536 * (byteAt xs (p + 1)).toNat +
      256 * (byteAt xs (p + 2)).toNat + (byteAt xs (p + 3)).toNat

/-- Rules R180 to R183, R196 and R197: the code table lists exactly the byte values that occur, in ascending order, with codes
of 1 to 255 bits; it is empty for the empty input, and a single symbol has the code "0". With k ≥ 2 symbols the construction has
one tree, the codes are the paths to its leaves, and none is longer than k - 1. -/
def Obligations.TheCodeTableListsTheSymbols : Prop :=
  ∀ xs : List Byte,
    (hufCodeTable xs).Pairwise (fun a b => a.1.toNat < b.1.toNat) ∧
    (∀ b, (∃ e ∈ hufCodeTable xs, e.1 = b) ↔ b ∈ xs) ∧
    (∀ e ∈ hufCodeTable xs, 1 ≤ e.2.length ∧ e.2.length ≤ 255) ∧
    (hufCodeTable xs = [] ↔ xs = []) ∧
    (∀ e, hufCodeTable xs = [e] → e.2 = [false]) ∧
    (2 ≤ (hufCodeTable xs).length → ∃ t, hufTree xs = some t ∧ IsHuffmanTree xs t ∧ (∀ u, IsHuffmanTree xs u → u = t) ∧
      (∀ b p, (b, p) ∈ hufCodeTable xs ↔ PathTo t p b) ∧
      ∀ e ∈ hufCodeTable xs, e.2.length + 1 ≤ (hufCodeTable xs).length)

/-- Rule R184: no code of a table from rule R183 is a prefix of another or equal to another. -/
def Obligations.HuffmanCodesArePrefixFree : Prop := ∀ xs : List Byte, PrefixFree (hufCodeTable xs)

/-- Rules R181 and R182, one round: the two entries of least key are joined, the least on the left, with the sum of their
weights and the next sequence number. -/
def Obligations.TheTreeJoinsTheTwoLeastNodes : Prop :=
  ∀ (fuel next : Nat) (q : List HufEntry), 2 ≤ q.length →
    (q.Pairwise KeyBefore) →
    (∀ e ∈ q, e.seq < next) →
    ∃ x y rest q', q = x :: y :: rest ∧
      hufCombine (fuel + 1) next q = hufCombine fuel (next + 1) q' ∧
      q'.Perm ({ tree := .internal x.tree y.tree (x.tree.weight + y.tree.weight), seq := next } :: rest) ∧
      (q'.Pairwise KeyBefore)

/-- Rules R180 to R182, the start: the symbols are the byte values that occur, ascending; the structure holds their leaves, one
per symbol with its frequency, in the order of their keys; the tree is what the rounds make of it with next = k, and there is
one for every non-empty input. -/
def Obligations.ThePriorityStructureStartsWithTheLeaves : Prop :=
  ∀ xs : List Byte,
    ((symbols xs).Pairwise fun a b => a.toNat < b.toNat) ∧ (∀ b, b ∈ symbols xs ↔ b ∈ xs) ∧
    ((hufQueue xs).Pairwise KeyBefore) ∧
    (hufQueue xs).length = (symbols xs).length ∧
    (∀ (k : Nat) (b : Byte), (symbols xs)[k]? = some b →
      { tree := .leaf b (xs.count b), seq := k : HufEntry } ∈ hufQueue xs) ∧
    (xs ≠ [] → ∃ fuel t, hufTree xs = some t ∧ hufCombine fuel (symbols xs).length (hufQueue xs) = some t)

/-- Rule R185: HUF_TREE writes SYMCOUNT and one entry per symbol; nothing for the empty input, five bytes for one symbol. -/
def Obligations.HufTreeWritesTheHeader : Prop :=
  ∀ (s : State) (xs : List Byte), HoldsInput s xs → (headerBytes (hufCodeTable xs)).length ≤ s.outCap.toNat →
    ∃ t, exec .hufTree s = .next t ∧ Succeeded s t (if xs = [] then [] else headerBytes (hufCodeTable xs)) ∧
      (∀ b, xs ≠ [] → (∀ x ∈ xs, x = b) → HoldsOutput t [0, 1, b, 1, 0])

/-- Rules R186 and R187: HUF_ENC writes the container of the table and of the input's codes; a payload of 2^32 bits or more, or
a container longer than OBUF, is OutputOverflow. -/
def Obligations.HufEncWritesTheContainer : Prop :=
  ∀ (s : State) (xs : List Byte) (bits : List Bool), HoldsInput s xs → xs ≠ [] →
    bits = xs.flatMap (hufCodeTable xs).code →
    (bits.length < 4294967296 → (containerBytes (hufCodeTable xs) bits).length ≤ s.outCap.toNat →
      ∃ t, exec .hufEnc s = .next t ∧ Succeeded s t (containerBytes (hufCodeTable xs) bits)) ∧
    (4294967296 ≤ bits.length ∨ s.outCap.toNat < (containerBytes (hufCodeTable xs) bits).length →
      ∃ t, exec .hufEnc s = .next t ∧ Raised s t 4 0)

/-- Rule R189: the HUF_ENC output begins with the HUF_TREE output on the same input; NBITS and the payload follow. -/
def Obligations.TheContainerBeginsWithTheTreeOutput : Prop :=
  ∀ (s t u : State) (xs : List Byte), HoldsInput s xs → xs ≠ [] → exec .hufEnc s = .next t → t.errCode = 0 →
    exec .hufTree s = .next u →
    ∃ hdr bits, HoldsOutput u hdr ∧ HoldsOutput t (hdr ++ be32 bits.length ++ packBits bits) ∧
      bits = xs.flatMap (hufCodeTable xs).code

/-- Rules R190 to R193: HUF_DEC decodes every container of a valid table, complete or not, whoever made it. -/
def Obligations.HufDecDecodesEveryValidContainer : Prop :=
  ∀ (s : State) (tab : CodeTable) (msg : List Byte), ValidTable tab → (∀ b ∈ msg, ∃ e ∈ tab, e.1 = b) →
    (msg.flatMap tab.code).length < 4294967296 → HoldsInput s (containerBytes tab (msg.flatMap tab.code)) →
    msg.length ≤ s.outCap.toNat → ∃ t, exec .hufDec s = .next t ∧ Succeeded s t msg

/-- Rule R191, the other direction: whatever non-empty input HUF_DEC accepts is a container of a valid table whose payload is
the codes of the output. -/
def Obligations.HufDecAcceptsOnlyValidContainers : Prop :=
  ∀ (s t : State) (xs : List Byte), HoldsInput s xs → xs ≠ [] → exec .hufDec s = .next t → t.errCode = 0 →
    ∃ (tab : CodeTable) (msg : List Byte), ValidTable tab ∧ (∀ b ∈ msg, ∃ e ∈ tab, e.1 = b) ∧
      xs = containerBytes tab (msg.flatMap tab.code) ∧ HoldsOutput t msg

/-- Rule R190, the frame of the container: a lone byte, a symbol count of 0 or above 256, a cut off NBITS, and a pad bit 1 in
the last payload byte. -/
def Obligations.HufDecChecksTheFraming : Prop :=
  ∀ (s : State) (xs : List Byte), HoldsInput s xs →
    (xs.length = 1 → ∃ t, exec .hufDec s = .next t ∧ Raised s t 2 0) ∧
    (∀ k rest, k = 0 ∨ 256 < k → k < 65536 → xs = be16 k ++ rest → ∃ t, exec .hufDec s = .next t ∧ Raised s t 2 0) ∧
    (∀ tab few, ValidTable tab → few.length < 4 → xs = headerBytes tab ++ few →
      ∃ t, exec .hufDec s = .next t ∧ Raised s t 2 (headerBytes tab).length) ∧
    (∀ tab nb payload j, ValidTable tab → nb < 4294967296 → payload.length = (nb + 7) / 8 →
      xs = headerBytes tab ++ be32 nb ++ payload → nb ≤ j → j < 8 * payload.length →
      (byteAt payload (j / 8)).getLsbD (7 - j % 8) = true →
      ∃ t, exec .hufDec s = .next t ∧ Raised s t 2 ((headerBytes tab).length + 3 + payload.length))

/-- Rule R194: a container too short is MalformedInput at the NBITS offset, one too long at the first extra byte. -/
def Obligations.HufDecChecksTheExactLength : Prop :=
  ∀ (s : State) (tab : CodeTable) (nb : Nat) (payload : List Byte), ValidTable tab → nb < 4294967296 →
    HoldsInput s (headerBytes tab ++ be32 nb ++ payload) →
    (payload.length < (nb + 7) / 8 →
      ∃ t, exec .hufDec s = .next t ∧ Raised s t 2 (headerBytes tab).length) ∧
    ((nb + 7) / 8 < payload.length →
      ∃ t, exec .hufDec s = .next t ∧ Raised s t 2 ((headerBytes tab).length + 4 + (nb + 7) / 8))

/-- Rules R190 and R192, the walk: after the codes of some symbols and a proper part `path` of a code, a bit that leads to a
missing child is MalformedInput at the byte of that bit, and an end of the bits inside the code at the byte of the last one. -/
def Obligations.HufDecStopsWhereTheWalkFails : Prop :=
  ∀ (s : State) (tab : CodeTable) (msg : List Byte) (path bits : List Bool), ValidTable tab →
    (∀ x ∈ msg, ∃ e ∈ tab, e.1 = x) → (∃ e ∈ tab, path <+: e.2 ∧ path ≠ e.2) → bits.length < 4294967296 →
    HoldsInput s (containerBytes tab bits) →
    (∀ b tail, (∀ e ∈ tab, ¬ path ++ [b] <+: e.2) → bits = msg.flatMap tab.code ++ path ++ b :: tail →
      ∃ t, exec .hufDec s = .next t ∧
        Raised s t 2 ((headerBytes tab).length + 4 + ((msg.flatMap tab.code).length + path.length) / 8)) ∧
    (path ≠ [] → bits = msg.flatMap tab.code ++ path →
      ∃ t, exec .hufDec s = .next t ∧ Raised s t 2 ((headerBytes tab).length + 4 + (bits.length - 1) / 8))

/-- Rule R190, the header: an entry that breaks a rule is MalformedInput at the offset the rule gives. `good` are the valid
entries before it, `p` its offset; a later check applies when no earlier one does. -/
def Obligations.HufDecChecksEachEntry : Prop :=
  ∀ (s : State) (k : Nat) (good : CodeTable) (tail : List Byte) (p : Nat), good.length < k → k ≤ 256 →
    (good = [] ∨ ValidTable good) → p = 2 + (good.flatMap hufEntryBytes).length →
    HoldsInput s (be16 k ++ good.flatMap hufEntryBytes ++ tail) →
    (tail.length < 2 → ∃ t, exec .hufDec s = .next t ∧ Raised s t 2 p) ∧
    (∀ sym len more, tail = sym :: len :: more →
      ((∃ e ∈ good, sym.toNat ≤ e.1.toNat) → ∃ t, exec .hufDec s = .next t ∧ Raised s t 2 p) ∧
      ((∀ e ∈ good, e.1.toNat < sym.toNat) → len = 0 → ∃ t, exec .hufDec s = .next t ∧ Raised s t 2 (p + 1)) ∧
      ((∀ e ∈ good, e.1.toNat < sym.toNat) → len ≠ 0 → more.length < (len.toNat + 7) / 8 →
        ∃ t, exec .hufDec s = .next t ∧ Raised s t 2 (p + 2)) ∧
      ((∀ e ∈ good, e.1.toNat < sym.toNat) → len ≠ 0 → (len.toNat + 7) / 8 ≤ more.length →
        (∃ j, len.toNat ≤ j ∧ j < 8 * ((len.toNat + 7) / 8) ∧ (byteAt more (j / 8)).getLsbD (7 - j % 8) = true) →
        ∃ t, exec .hufDec s = .next t ∧ Raised s t 2 (p + 1 + (len.toNat + 7) / 8)) ∧
      (∀ (c : List Bool) (rest : List Byte), (∀ e ∈ good, e.1.toNat < sym.toNat) → len ≠ 0 → c.length = len.toNat →
        more = packBits c ++ rest → (∃ e ∈ good, e.2 <+: c ∨ c <+: e.2) →
        ∃ t, exec .hufDec s = .next t ∧ Raised s t 2 p))

/-- Rule R195: the Huffman round trip. -/
def Obligations.HuffmanRoundTrip : Prop :=
  ∀ (s s' t : State) (xs es : List Byte), HoldsInput s xs → exec .hufEnc s = .next t → t.errCode = 0 → HoldsOutput t es →
    HoldsInput s' es → xs.length ≤ s'.outCap.toNat →
    ∃ t', exec .hufDec s' = .next t' ∧ Succeeded s' t' xs

/-! ### LZ77 -/

/-- Rules R234 and R240: LZ_MATCH finds a longest match in the window, of those the oldest, and the byte after it. -/
def Obligations.LzMatchFindsTheOldestLongestMatch : Prop :=
  ∀ (s : State) (xs : List Byte), HoldsInput s xs → s.matchPos.toNat < xs.length →
    ∃ t d l, exec .lzMatch s = .next t ∧
      BestMatch xs s.window.toNat s.lookahead.toNat s.matchPos.toNat d l ∧
      Found s t d l (byteAt xs (s.matchPos.toNat + l))

/-- Rules R142 and R240: MATCH_POS at or beyond IN_LEN is BadParameter, and the MATCH registers are 0. That OBUF is left alone is
the model's reading (log entry 7). -/
def Obligations.LzMatchOutsideTheInputIsBadParameter : Prop :=
  ∀ s : State, s.inLen.toNat ≤ s.matchPos.toNat → ∃ t, exec .lzMatch s = .next t ∧ MatchRaised s t 6 0

/-- Rule R235: the bounds of a search result. -/
def Obligations.TheSearchResultIsBounded : Prop :=
  ∀ (xs : List Byte) (w la i : Nat), i < xs.length →
    (lzSearch xs w la i).len ≤ min la (xs.length - 1 - i) ∧
    ((lzSearch xs w la i).len = 0 ↔ (lzSearch xs w la i).dist = 0) ∧
    (1 ≤ (lzSearch xs w la i).len → 1 ≤ (lzSearch xs w la i).dist ∧ (lzSearch xs w la i).dist ≤ min i w)

/-- Rules R241 and R242: LZ_ENC writes the greedy parse of its input, at most one token per input byte. -/
def Obligations.LzEncWritesTheGreedyParse : Prop :=
  ∀ (s : State) (xs : List Byte), HoldsInput s xs → 4 * xs.length ≤ s.outCap.toNat →
    ∃ t ks, exec .lzEnc s = .next t ∧ GreedyParse xs s.window.toNat s.lookahead.toNat 0 ks ∧ ks.length ≤ xs.length ∧
      Succeeded s t (tokenBytes ks)

/-- Rule R245: every token LZ_ENC emits is a legal form within WINDOW and LOOKAHEAD. -/
def Obligations.EmittedTokensAreBounded : Prop :=
  ∀ (s t : State) (xs : List Byte), HoldsInput s xs → exec .lzEnc s = .next t → t.errCode = 0 →
    ∃ ks, HoldsOutput t (tokenBytes ks) ∧
      ∀ k ∈ ks, LegalToken k ∧ k.dist ≤ s.window.toNat ∧ k.len ≤ s.lookahead.toNat

/-- Rules R243 and R248: LZ_DEC expands legal tokens byte by byte, each copied byte becoming part of the source. -/
def Obligations.LzDecExpandsTheTokens : Prop :=
  ∀ (s : State) (ks : List LzToken) (ys : List Byte), (∀ k ∈ ks, LegalToken k) → Expands [] ks ys →
    HoldsInput s (tokenBytes ks) → ys.length ≤ s.outCap.toNat →
    ∃ t, exec .lzDec s = .next t ∧ Succeeded s t ys

/-- Rule R243, its errors: a truncated last token first; else the first bad token, at its offset. -/
def Obligations.LzDecErrors : Prop :=
  ∀ (s : State) (xs : List Byte), HoldsInput s xs →
    (xs.length % 4 ≠ 0 → ∃ t, exec .lzDec s = .next t ∧ Raised s t 2 (xs.length - xs.length % 4)) ∧
    (∀ (ks : List LzToken) (bad : LzToken) (rest mid : List Byte), (∀ k ∈ ks, LegalToken k) → Expands [] ks mid →
      bad.dist ≤ 65535 → bad.len ≤ 255 → rest.length % 4 = 0 → xs = tokenBytes ks ++ tokenBytes [bad] ++ rest →
      (¬ (bad.dist = 0 ↔ bad.len = 0) → ∃ t, exec .lzDec s = .next t ∧ Raised s t 2 (4 * ks.length)) ∧
      ((bad.dist = 0 ↔ bad.len = 0) → mid.length < bad.dist →
        ∃ t, exec .lzDec s = .next t ∧ Raised s t 3 (4 * ks.length)))

/-- Rule R244: LZ_DEC gives the same result under any window and look-ahead sizes. -/
def Obligations.LzDecIgnoresTheWindow : Prop :=
  ∀ (s : State) (w : BitVec 16) (la : BitVec 8), ∃ t u, exec .lzDec s = .next t ∧
    exec .lzDec { s with window := w, lookahead := la } = .next u ∧ u.window = w ∧ u.lookahead = la ∧
    SameResult t { u with window := s.window, lookahead := s.lookahead }

/-- Rule R246: the LZ77 round trip, under any window and look-ahead sizes on either side. -/
def Obligations.LzRoundTrip : Prop :=
  ∀ (s s' t : State) (xs es : List Byte), HoldsInput s xs → exec .lzEnc s = .next t → t.errCode = 0 → HoldsOutput t es →
    HoldsInput s' es → xs.length ≤ s'.outCap.toNat →
    ∃ t', exec .lzDec s' = .next t' ∧ Succeeded s' t' xs

/-! ### The host interface -/

/-- Rule R140: a write to CMD while idle accepts the word, whatever it is; while BUSY it is dropped and is no acceptance. -/
def Obligations.AWriteToCmdIsAccepted : Prop :=
  ∀ (s : State) (off : BitVec 12) (w : Word), off.toNat / 4 = 0 →
    (s.busy = false →
      performAccess (.regWrite off w) s = { s with cmd := w, busy := true, done := false, errCode := 0, errInfo := 0 }) ∧
    (s.busy = true → performAccess (.regWrite off w) s = { s with wbusy := true })

/-- Rule R310: while BUSY every write but one to STATUS is dropped and sets WBUSY; the target keeps its value. A write to
STATUS does what it does while idle. -/
def Obligations.WritesWhileBusyAreDropped : Prop :=
  ∀ s : State, s.busy = true →
    (∀ a : HostAccess, a.droppable = true → performAccess a s = { s with wbusy := true }) ∧
    ∀ (off : BitVec 12) (v : Word), off.toNat / 4 = 1 →
      performAccess (.regWrite off v) s = { performAccess (.regWrite off v) { s with busy := false } with busy := true }

/-- Rules R27, R29 and R30: a write to STATUS clears DONE and WBUSY where written 1, even while BUSY, and nothing else. -/
def Obligations.AWriteToStatusClearsFlags : Prop :=
  ∀ (s : State) (off : BitVec 12) (v : Word), off.toNat / 4 = 1 →
    performAccess (.regWrite off v) s =
      { s with done := if v.getLsbD 1 then false else s.done, wbusy := if v.getLsbD 8 then false else s.wbusy }

/-- Rules R24, R32, R34 to R36 and R42: what a register write while idle stores, at every other offset. -/
def Obligations.RegisterWritesWhileIdle : Prop :=
  ∀ (s : State) (off : BitVec 12) (v : Word), s.busy = false → 2 ≤ off.toNat / 4 →
    performAccess (.regWrite off v) s = match off.toNat / 4 with
      | 3 => { s with inLen := v }
      | 5 => { s with window := v.setWidth 16 }
      | 6 => { s with lookahead := v.setWidth 8 }
      | 7 => { s with matchPos := v }
      | _ => s

/-- Rules R24, R42, R63 and R311: what a register read returns while idle, and, but for the result registers, while BUSY; the
block keeps its state. -/
def Obligations.RegisterReadsGiveTheMap : Prop :=
  ∀ (s : State) (off : BitVec 12), s.busy = false ∨ off.toNat / 4 ∉ [2, 4, 8, 9, 10] →
    ∃ v, performAccess (.regRead off) s = { s with reads := .reg off v :: s.reads } ∧
      match off.toNat / 4 with
      | 0 => v = s.cmd
      | 1 => v.toNat = s.busy.toNat + 2 * s.done.toNat + 16 * s.errCode.toNat + 256 * s.wbusy.toNat
      | 2 => v = s.errInfo
      | 3 => v = s.inLen
      | 4 => v = s.outLen
      | 5 => v.toNat = s.window.toNat
      | 6 => v.toNat = s.lookahead.toNat
      | 7 => v = s.matchPos
      | 8 => v.toNat = s.matchDist.toNat
      | 9 => v.toNat = s.matchLen.toNat
      | 10 => v.toNat = s.matchLit.toNat
      | 11 => v = s.inCap
      | 12 => v = s.outCap
      | _ => v = 0

/-- Rule R311, the rest: while BUSY a read of a result register or of OBUF returns a draw of its own, whose value nothing
fixes, and uses that draw up; IBUF reads as usual. That a read of OBUF at or above OUT_CAP is a draw too is the model's choice
(log entry 3). -/
def Obligations.ResultReadsWhileBusyAreFreshDraws : Prop :=
  ∀ (s : State) (off : BitVec 12) (a : Word), s.busy = true →
    (off.toNat / 4 ∈ [2, 4, 8, 9, 10] →
      performAccess (.regRead off) s =
        { s with reads := .reg off (Config.freeWord s.draws) :: s.reads, draws := s.draws + 1 }) ∧
    performAccess (.bufRead .obuf a) s =
      { s with reads := .buf .obuf a (Config.freeByte s.draws a.toNat) :: s.reads, draws := s.draws + 1 } ∧
    performAccess (.bufRead .ibuf a) s =
      { s with reads := .buf .ibuf a (if a.toNat < s.inCap.toNat then s.ibuf.read a.toNat else 0) :: s.reads }

/-- Rule R64: a read inside the capacity gives the byte there; a byte written while idle inside the capacity reads back,
every other byte reads as before, and nothing else changes; at or above the capacity a read gives 0 and a write does nothing;
while BUSY a write at any address sets WBUSY. Reads of OBUF while BUSY are rule R311's. -/
def Obligations.BufferBytesReadBack : Prop :=
  ∀ (s : State) (a : Word) (v : Byte),
    performAccess (.bufRead .ibuf a) s =
      { s with reads := .buf .ibuf a (if a.toNat < s.inCap.toNat then s.ibuf.read a.toNat else 0) :: s.reads } ∧
    (s.busy = false → performAccess (.bufRead .obuf a) s =
      { s with reads := .buf .obuf a (if a.toNat < s.outCap.toNat then s.obuf.read a.toNat else 0) :: s.reads }) ∧
    (s.busy = false → a.toNat < s.inCap.toNat → ∃ b : Buffer, performAccess (.bufWrite .ibuf a v) s = { s with ibuf := b } ∧
      b.read a.toNat = v ∧ ∀ x, x ≠ a.toNat → b.read x = s.ibuf.read x) ∧
    (s.busy = false → a.toNat < s.outCap.toNat → ∃ b : Buffer, performAccess (.bufWrite .obuf a v) s = { s with obuf := b } ∧
      b.read a.toNat = v ∧ ∀ x, x ≠ a.toNat → b.read x = s.obuf.read x) ∧
    (s.busy = false → s.inCap.toNat ≤ a.toNat → performAccess (.bufWrite .ibuf a v) s = s) ∧
    (s.busy = false → s.outCap.toNat ≤ a.toNat → performAccess (.bufWrite .obuf a v) s = s) ∧
    (s.busy = true → ∀ sp, performAccess (.bufWrite sp a v) s = { s with wbusy := true })

/-- Rules R109 and R303: the host's `load` of IBUF makes the bytes the command's input, whatever turns without a reset are given.
That the host is a program in State, and that it moves when no turn is given, are the model's choices (log entries 5 and 6);
with no turn given the number of steps is exactly len(xs) + 1. -/
def Obligations.LoadMakesTheInput : Prop :=
  ∀ (s : State) (xs : List Byte), s.busy = false → .reset ∉ s.turns → xs.length ≤ s.inCap.toNat →
    s.program = assemble [.load .ibuf xs] →
    ∃ k t, xs.length + 1 ≤ k ∧ k ≤ s.turns.length + (xs.length + 1) ∧ Host.Core.run core k s = .next t ∧ HoldsInput t xs ∧
      t.program = [] ∧ t.busy = false ∧ t.window = s.window ∧ t.lookahead = s.lookahead ∧ t.matchPos = s.matchPos ∧
      t.obuf = s.obuf

/-! ### Whole-machine rules -/

/-- Rule R26: only acceptance sets BUSY; only completion and reset clear it. -/
def Obligations.OnlyAcceptanceAndCompletionMoveBusy : Prop :=
  ∀ s t : State, step s = .next t →
    (s.busy = false → t.busy = true → s.mover = some .host ∧
      ∃ off w rest, s.program = .access (.regWrite off w) :: rest ∧ off.toNat / 4 = 0 ∧ t.cmd = w) ∧
    (s.busy = true → t.busy = false → s.mover = some .engine ∧ t.done = true ∨ s.mover = some .reset)

/-- Rule R29: WBUSY is set only by a dropped write, and cleared only by a write to STATUS or by reset. -/
def Obligations.OnlyDroppedWritesSetWbusy : Prop :=
  ∀ s t : State, step s = .next t →
    (s.wbusy = false → t.wbusy = true → s.busy = true ∧ s.mover = some .host ∧
      ∃ a rest, s.program = .access a :: rest ∧ a.droppable = true) ∧
    (s.wbusy = true → t.wbusy = false → s.mover = some .reset ∨ s.mover = some .host ∧
      ∃ off v rest, s.program = .access (.regWrite off v) :: rest ∧ off.toNat / 4 = 1 ∧ v.getLsbD 8 = true)

/-- Rules R37 to R39: only LZ_MATCH completion (and reset) changes a MATCH register. -/
def Obligations.OnlyLzMatchChangesTheMatchRegisters : Prop :=
  ∀ s t : State, step s = .next t → s.mover ≠ some .reset →
    ¬ (s.mover = some .engine ∧ s.busy = true ∧ s.cmd = 0x00000032#32) → MatchKept s t

/-- Rules R40, R41 and R43: no step changes a capacity, and no step but a host write and a reset changes a byte of IBUF. -/
def Obligations.OnlyTheHostWritesIbuf : Prop :=
  ∀ s t : State, step s = .next t → t.inCap = s.inCap ∧ t.outCap = s.outCap ∧
    (s.mover ≠ some .reset → ∀ a, t.ibuf.read a ≠ s.ibuf.read a → s.busy = false ∧ s.mover = some .host ∧
      ∃ addr v rest, s.program = .access (.bufWrite .ibuf addr v) :: rest ∧ addr.toNat = a ∧ a < s.inCap.toNat ∧
        t.ibuf.read a = v)

/-- Rules R300 and R48: reset gives every register its reset value and discards a pending command. -/
def Obligations.ResetGivesTheResetValues : Prop :=
  ∀ s : State, s.mover = some .reset → ∃ t, step s = .next t ∧ t.cmd = 0 ∧ t.busy = false ∧ t.done = false ∧
    t.errCode = 0 ∧ t.wbusy = false ∧ t.errInfo = 0 ∧ t.inLen = 0 ∧ t.outLen = 0 ∧ t.window.toNat = 20 ∧
    t.lookahead.toNat = 15 ∧ t.matchPos = 0 ∧ t.matchDist = 0 ∧ t.matchLen = 0 ∧ t.matchLit = 0 ∧
    t.statusWord = 0 ∧ t.inCap = s.inCap ∧ t.outCap = s.outCap ∧ t.ibuf.cells = [] ∧ t.obuf.cells = []

/-- The invariant holds at power-on reset, for every legal pair of capacities and for the instance's own. -/
def Obligations.TheInvariantHoldsAtReset : Prop :=
  (∀ inCap outCap : Word, inCap ≠ 0 → outCap ≠ 0 → (State.resetFor inCap outCap).Inv) ∧ State.reset.Inv

/-- Every step keeps the invariant, whoever moves and whatever the command. -/
def Obligations.EveryStepKeepsTheInvariant : Prop := ∀ s t : State, s.Inv → step s = .next t → t.Inv

/-- Rule R71 item 1: host turns between acceptance and completion, whatever they try, change nothing of the result. -/
def Obligations.HostTurnsWhileBusyDoNotChangeTheResult : Prop :=
  ∀ (s : State) (n : Nat), s.busy = true → ∃ t u,
    Host.Core.run core 1 { s with turns := [.engine] } = .next t ∧
    Host.Core.run core (n + 1) { s with turns := List.replicate n .host ++ [.engine] } = .next u ∧ SameResult t u

/-- Rule R313 under the model's fairness (log entry 6): every pending command that no reset discards completes. -/
def Obligations.EveryPendingCommandCompletes : Prop :=
  ∀ s : State, s.busy = true → .reset ∉ s.turns →
    ∃ k t, k ≤ s.turns.length + 1 ∧ Host.Core.run core k s = .next t ∧ t.busy = false ∧ t.done = true

/-- Rule R313 under the model's fairness (log entry 6): a host's `wait` loop ends. The turns given may include resets; that a
reset leaves the host's program alone is the model's choice (log entry 8). -/
def Obligations.EveryWaitLoopEnds : Prop :=
  ∀ (s : State) (rest : List HostStep), s.program = .wait :: rest →
    ∃ k t, k ≤ s.turns.length + 2 ∧ Host.Core.run core k s = .next t ∧ t.program = rest ∧ t.busy = false
end

