-- ==== Sys2Proof/Laws/Bytes.lean ====
section
/-! SUPPORT. Container integers and the MSB-first packing: reading back what was written. -/

namespace Sys2Proof.Machine

@[simp] theorem length_be16 (v : Nat) : (be16 v).length = 2 := rfl

@[simp] theorem length_be32 (v : Nat) : (be32 v).length = 4 := rfl

@[simp] theorem byteAt_cons_zero (b : Byte) (s : List Byte) : byteAt (b :: s) 0 = b := rfl

@[simp] theorem byteAt_cons_succ (b : Byte) (s : List Byte) (p : Nat) : byteAt (b :: s) (p + 1) = byteAt s p := rfl

theorem byteAt_append_right (s t : List Byte) (p : Nat) : byteAt (s ++ t) (s.length + p) = byteAt t p := by
  simp [byteAt, List.getD_eq_getElem?_getD, List.getElem?_append_right]

theorem byteAt_append_left {s t : List Byte} {p : Nat} (h : p < s.length) : byteAt (s ++ t) p = byteAt s p := by
  simp [byteAt, List.getD_eq_getElem?_getD, List.getElem?_append_left h]

theorem byteAt_eq_getElem {s : List Byte} {p : Nat} (h : p < s.length) : byteAt s p = s[p] := by
  simp [byteAt, List.getD_eq_getElem?_getD, List.getElem?_eq_getElem h]

theorem rd16_append_right (s t : List Byte) : rd16 (s ++ t) s.length = rd16 t 0 := by
  have h := byteAt_append_right s t 0
  simp only [Nat.add_zero] at h
  simp [rd16, h, byteAt_append_right]

theorem rd32_append_right (s t : List Byte) : rd32 (s ++ t) s.length = rd32 t 0 := by
  have h2 := byteAt_append_right s t 2
  have h3 := byteAt_append_right s t 3
  simp [rd32, rd16_append_right]
  simp [rd16, h2, Nat.add_assoc, h3]

/-- `rd16` reads what `be16` wrote. -/
theorem rd16_be16 {v : Nat} (h : v < 65536) (s : List Byte) : rd16 (be16 v ++ s) 0 = v := by
  simp [rd16, be16, BitVec.toNat_ofNat]
  omega

/-- `rd32` reads what `be32` wrote. -/
theorem rd32_be32 {v : Nat} (h : v < 4294967296) (s : List Byte) : rd32 (be32 v ++ s) 0 = v := by
  simp [rd32, rd16, be32, BitVec.toNat_ofNat]
  omega

/-! ### Packing -/

@[simp] theorem length_packBytes (m : Nat) (bs : List Bool) : (packBytes m bs).length = m := by
  induction m generalizing bs with
  | zero => rfl
  | succ m ih => simp [packBytes, ih]

@[simp] theorem length_packBits (bs : List Bool) : (packBits bs).length = ceil8 bs.length := length_packBytes _ _

@[simp] theorem length_byteBits (v : Byte) : (byteBits v).length = 8 := by simp [byteBits]

theorem length_unpackBits (s : List Byte) : (unpackBits s).length = 8 * s.length := by
  induction s with
  | nil => rfl
  | cons v s ih =>
    have : unpackBits (v :: s) = byteBits v ++ unpackBits s := rfl
    simp [this, ih]
    omega

theorem unpackBits_append (s t : List Byte) : unpackBits (s ++ t) = unpackBits s ++ unpackBits t := by
  simp [unpackBits]

/-- A byte packed from eight bits unpacks to them. -/
theorem byteBits_packByte_eight : ∀ a b c d e f g h : Bool,
    byteBits (packByte [a, b, c, d, e, f, g, h]) = [a, b, c, d, e, f, g, h] := by
  decide

/-- A byte unpacks to its first eight bits, the missing ones 0. -/
theorem byteBits_packByte (bs : List Bool) :
    byteBits (packByte bs) = (bs ++ List.replicate 8 false).take 8 := by
  have hp : packByte bs = packByte ((bs ++ List.replicate 8 false).take 8) := by
    have hl : 8 ≤ (bs ++ List.replicate 8 false).length := by simp
    simp only [packByte]
    rw [List.take_append_of_le_length (l₁ := (bs ++ List.replicate 8 false).take 8) (by simp), List.take_take]
    rfl
  rw [hp]
  generalize hx : (bs ++ List.replicate 8 false).take 8 = x
  have hl : x.length = 8 := by simp [← hx]
  match x, hl with
  | [a, b, c, d, e, f, g, h], _ => exact byteBits_packByte_eight a b c d e f g h

/-- Packing pads with zeros up to the last byte: unpacking gives the bits and the pad bits. -/
theorem unpackBits_packBytes (m : Nat) (bs : List Bool) (h : bs.length ≤ 8 * m) :
    unpackBits (packBytes m bs) = bs ++ List.replicate (8 * m - bs.length) false := by
  induction m generalizing bs with
  | zero =>
    have : bs = [] := List.length_eq_zero_iff.1 (by omega)
    subst this
    rfl
  | succ m ih =>
    have hc : unpackBits (packBytes (m + 1) bs) = byteBits (packByte bs) ++ unpackBits (packBytes m (bs.drop 8)) := rfl
    rw [hc, byteBits_packByte, ih _ (by simp; omega)]
    by_cases h8 : 8 ≤ bs.length
    · rw [List.take_append_of_le_length h8, ← List.append_assoc, List.take_append_drop]
      congr 2
      simp
      omega
    · have hd : bs.drop 8 = [] := List.drop_eq_nil_of_le (by omega)
      rw [hd, List.take_append, List.take_of_length_le (by omega : bs.length ≤ 8)]
      simp only [List.take_replicate, List.nil_append, List.append_assoc, List.replicate_append_replicate]
      congr 2
      simp
      omega

/-- Unpacking a packed bit-string gives it back, then the pad bits, all 0. -/
theorem unpackBits_packBits (bs : List Bool) :
    unpackBits (packBits bs) = bs ++ List.replicate (8 * ceil8 bs.length - bs.length) false :=
  unpackBits_packBytes _ _ (by simp [ceil8]; omega)

/-- Packing the bits of a byte gives the byte back. -/
theorem packByte_byteBits (v : Byte) (bs : List Bool) : packByte (byteBits v ++ bs) = v := by
  have h : packByte (byteBits v ++ bs) = packByte (byteBits v) := by
    simp only [packByte, List.append_assoc]
    rw [List.take_append_of_le_length (by simp), List.take_append_of_le_length (by simp)]
  have all : ∀ v : Byte, packByte (byteBits v) = v := by decide +kernel
  rw [h, all]

/-- Packing what was unpacked gives the bytes back. -/
theorem packBytes_unpackBits (s : List Byte) : packBytes s.length (unpackBits s) = s := by
  induction s with
  | nil => rfl
  | cons v s ih =>
    have hc : unpackBits (v :: s) = byteBits v ++ unpackBits s := rfl
    rw [hc, List.length_cons]
    simp only [packBytes, packByte_byteBits]
    rw [List.drop_append_of_le_length (by simp), List.drop_of_length_le (by simp), List.nil_append, ih]

/-- A byte sequence whose pad bits are 0 is the packing of its first bits. -/
theorem packBits_take_unpackBits {s : List Byte} {n : Nat} (hn : ceil8 n = s.length)
    (hpad : (unpackBits s).drop n = List.replicate (8 * s.length - n) false) :
    packBits ((unpackBits s).take n) = s := by
  have hle : n ≤ 8 * s.length := by simp only [ceil8] at hn; omega
  have hlen : ((unpackBits s).take n).length = n := by simp [length_unpackBits]; omega
  have key : ∀ (m : Nat) (bs : List Bool) (k : Nat), packBytes m (bs ++ List.replicate k false) = packBytes m bs := by
    intro m
    induction m with
    | zero => intro bs k; rfl
    | succ m ih =>
      intro bs k
      simp only [packBytes, List.drop_append, List.drop_replicate, ih]
      congr 1
      simp only [packByte]
      congr 2
      rw [List.append_assoc, List.replicate_append_replicate]
      rw [List.take_append, List.take_append]
      simp only [List.take_replicate]
      congr 2
      omega
  rw [packBits, hlen, hn, ← key _ _ (8 * s.length - n), ← hpad, List.take_append_drop]
  exact packBytes_unpackBits s

theorem byteAt_take {s : List Byte} {m p : Nat} (h : p < m) : byteAt (s.take m) p = byteAt s p := by
  simp [byteAt, List.getD_eq_getElem?_getD, h]

/-- Bit `k` of an unpacked sequence is bit 7 - k mod 8 of byte k div 8 (rule R9). -/
theorem getD_unpackBits : ∀ (s : List Byte) (k : Nat), k < 8 * s.length →
    (unpackBits s).getD k false = (byteAt s (k / 8)).getLsbD (7 - k % 8) := by
  intro s
  induction s with
  | nil =>
    intro k hk
    simp at hk
  | cons v s ih =>
    intro k hk
    have hc : unpackBits (v :: s) = byteBits v ++ unpackBits s := rfl
    rw [hc]
    by_cases h8 : k < 8
    · have e : k / 8 = 0 := by omega
      have e2 : k % 8 = k := by omega
      rw [e, byteAt_cons_zero, e2, List.getD_append _ _ _ _ (by simpa using h8)]
      simp [byteBits, List.getD_eq_getElem?_getD, h8, BitVec.getMsbD]
    · have e : k / 8 = (k - 8) / 8 + 1 := by omega
      rw [e, byteAt_cons_succ, List.getD_append_right _ _ _ _ (by simp; omega)]
      simp only [length_byteBits]
      rw [ih (k - 8) (by simp at hk; omega)]
      congr 2
      omega

/-- A set bit among the pad bits makes the pad check fail. -/
theorem any_drop_unpackBits {s : List Byte} {n j : Nat} (hn : n ≤ j) (hj : j < 8 * s.length)
    (hb : (byteAt s (j / 8)).getLsbD (7 - j % 8) = true) : ((unpackBits s).drop n).any id = true := by
  have key := getD_unpackBits s j hj
  rw [hb] at key
  have hl : j < (unpackBits s).length := by rw [length_unpackBits]; exact hj
  rw [List.getD_eq_getElem?_getD, List.getElem?_eq_getElem hl] at key
  rw [List.any_eq_true]
  refine ⟨true, ?_, rfl⟩
  rw [List.mem_iff_getElem?]
  refine ⟨j - n, ?_⟩
  rw [List.getElem?_drop, show n + (j - n) = j by omega, List.getElem?_eq_getElem hl]
  simpa using key

/-- Pad bits that are all 0 are a run of zeros. -/
theorem replicate_of_any_false {l : List Bool} (h : l.any id = false) : l = List.replicate l.length false := by
  rw [List.any_eq_false] at h
  exact List.eq_replicate_iff.2 ⟨rfl, fun b hb => by simpa using h b hb⟩

end Sys2Proof.Machine
end

