-- ==== Sys2Proof/Laws/Memory.lean ====
section
/-! SUPPORT. The laws of buffer memory: every operation keeps the canonical form, and a byte written reads back. -/

namespace Sys2Proof.Machine

/-! ### Reading after a write -/

@[simp] theorem Memory.read?_nil (a : Nat) : Memory.read? [] a = none := rfl

theorem Memory.read?_cons (k a : Nat) (v : Byte) (m : Memory) :
    Memory.read? ((k, v) :: m) a = if k = a then some v else Memory.read? m a := rfl

/-- The byte written reads back, and every other address reads as before. -/
theorem Memory.read?_write (m : Memory) (a : Nat) (v : Byte) (x : Nat) :
    Memory.read? (Memory.write m a v) x = if x = a then some v else Memory.read? m x := by
  induction m with
  | nil => simp [Memory.write, Memory.read?_cons, eq_comm]
  | cons c m ih =>
    obtain ⟨k, w⟩ := c
    simp only [Memory.write]
    split
    · simp only [Memory.read?_cons]
      by_cases h : x = a
      · simp [h]
      · simp [h, Ne.symm h, eq_comm]
    · split
      · subst_vars
        simp only [Memory.read?_cons]
        by_cases h : x = k
        · simp [h]
        · simp [h, Ne.symm h]
      · rename_i h1 h2
        simp only [Memory.read?_cons, ih]
        by_cases h : x = a
        · subst h
          simp [Ne.symm h2]
        · simp [h]

@[simp] theorem Buffer.read_write_same (b : Buffer) (a : Nat) (v : Byte) : (b.write a v).read a = v := by
  simp [Buffer.read, Buffer.write, Memory.read?_write]

theorem Buffer.read_write_other (b : Buffer) (a x : Nat) (v : Byte) (h : x ≠ a) : (b.write a v).read x = b.read x := by
  simp [Buffer.read, Buffer.write, Memory.read?_write, h]

/-! ### The memory a completion leaves -/

/-- `Memory.ofBytes a out` holds exactly the bytes of `out` from address `a`. -/
theorem Memory.read?_ofBytes (out : List Byte) (a x : Nat) :
    Memory.read? (Memory.ofBytes a out) x = if a ≤ x then out[x - a]? else none := by
  induction out generalizing a with
  | nil => simp [Memory.ofBytes]
  | cons v vs ih =>
    simp only [Memory.ofBytes, Memory.read?_cons, ih]
    by_cases h : a = x
    · simp [h]
    · by_cases h1 : a ≤ x
      · have h2 : a + 1 ≤ x := by omega
        have h3 : x - a = x - (a + 1) + 1 := by omega
        simp [h, h1, h2, h3]
      · have h2 : ¬ a + 1 ≤ x := by omega
        simp [h, h1, h2]

/-- Below its length the output reads back. -/
theorem Buffer.read_ofBytes (out : List Byte) (d x : Nat) (h : x < out.length) :
    Buffer.read { cells := Memory.ofBytes 0 out, draw := d } x = byteAt out x := by
  simp [Buffer.read, Memory.read?_ofBytes, byteAt, List.getD_eq_getElem?_getD, List.getElem?_eq_getElem h]

/-! ### The canonical form -/

theorem Memory.mem_write {m : Memory} {a : Nat} {v : Byte} {c : Host.Cell} (h : c ∈ Memory.write m a v) :
    c = (a, v) ∨ c ∈ m := by
  induction m with
  | nil => simpa [Memory.write] using h
  | cons d m ih =>
    obtain ⟨k, w⟩ := d
    simp only [Memory.write] at h
    split at h
    · simpa using h
    · split at h
      · rcases List.mem_cons.1 h with h | h
        · exact .inl h
        · exact .inr (List.mem_cons_of_mem _ h)
      · rcases List.mem_cons.1 h with h | h
        · exact .inr (h ▸ List.mem_cons_self)
        · rcases ih h with h | h
          · exact .inl h
          · exact .inr (List.mem_cons_of_mem _ h)

theorem Memory.wf_write {m : Memory} (a : Nat) (v : Byte) (h : Memory.wf m) : Memory.wf (Memory.write m a v) := by
  induction m with
  | nil => simp [Memory.wf, Memory.write]
  | cons d m ih =>
    obtain ⟨k, w⟩ := d
    obtain ⟨h1, h2⟩ := List.pairwise_cons.1 h
    simp only [Memory.write]
    split
    · rename_i hk
      refine List.pairwise_cons.2 ⟨fun c hc => ?_, h⟩
      rcases List.mem_cons.1 hc with rfl | hc
      · exact hk
      · exact Nat.lt_trans hk (h1 c hc)
    · split
      · rename_i hk
        subst hk
        exact List.pairwise_cons.2 ⟨h1, h2⟩
      · refine List.pairwise_cons.2 ⟨fun c hc => ?_, ih h2⟩
        rcases Memory.mem_write hc with rfl | hc
        · show k < a
          omega
        · exact h1 c hc

theorem Memory.mem_ofBytes {out : List Byte} {a : Nat} {c : Host.Cell} (h : c ∈ Memory.ofBytes a out) :
    a ≤ c.1 ∧ c.1 < a + out.length := by
  induction out generalizing a with
  | nil => simp [Memory.ofBytes] at h
  | cons v vs ih =>
    rcases List.mem_cons.1 h with rfl | h
    · simp
    · have := ih h
      simp only [List.length_cons]
      omega

theorem Memory.wf_ofBytes (out : List Byte) (a : Nat) : Memory.wf (Memory.ofBytes a out) := by
  induction out generalizing a with
  | nil => simp [Memory.wf, Memory.ofBytes]
  | cons v vs ih =>
    refine List.pairwise_cons.2 ⟨fun c hc => ?_, ih (a + 1)⟩
    have := Memory.mem_ofBytes hc
    show a < c.1
    omega

/-- The memories of the state after reset are in canonical form. -/
theorem State.resetFor_wf (inCap outCap : Word) :
    Memory.wf (State.resetFor inCap outCap).ibuf.cells ∧ Memory.wf (State.resetFor inCap outCap).obuf.cells := by
  simp [State.resetFor, Memory.wf]

/-- Equal reads at every address make canonical memories equal data. -/
theorem Memory.ext_of_wf {m m' : Memory} (h : Memory.wf m) (h' : Memory.wf m')
    (e : ∀ a, Memory.read? m a = Memory.read? m' a) : m = m' := by
  induction m generalizing m' with
  | nil =>
    cases m' with
    | nil => rfl
    | cons c m' =>
      obtain ⟨k, w⟩ := c
      simpa [Memory.read?_cons] using e k
  | cons c m ih =>
    obtain ⟨k, w⟩ := c
    obtain ⟨h1, h2⟩ := List.pairwise_cons.1 h
    have absent : ∀ (n : Memory) (x : Nat), (∀ d ∈ n, x < d.1) → Memory.read? n x = none := by
      intro n x hn
      induction n with
      | nil => rfl
      | cons d n ihn =>
        obtain ⟨j, u⟩ := d
        have hj : x < j := hn (j, u) List.mem_cons_self
        rw [Memory.read?_cons, if_neg (by omega), ihn fun d hd => hn d (List.mem_cons_of_mem _ hd)]
    cases m' with
    | nil => simpa [Memory.read?_cons] using e k
    | cons c' m' =>
      obtain ⟨k', w'⟩ := c'
      obtain ⟨h1', h2'⟩ := List.pairwise_cons.1 h'
      have hk : k = k' := by
        rcases Nat.lt_trichotomy k k' with hlt | heq | hgt
        · have := e k
          rw [Memory.read?_cons, if_pos rfl, Memory.read?_cons, if_neg (by omega),
            absent m' k fun d hd => Nat.lt_trans hlt (h1' d hd)] at this
          cases this
        · exact heq
        · have := e k'
          rw [Memory.read?_cons, if_neg (by omega), Memory.read?_cons, if_pos rfl,
            absent m k' fun d hd => Nat.lt_trans hgt (h1 d hd)] at this
          cases this
      subst hk
      have hw : w = w' := by simpa [Memory.read?_cons] using e k
      subst hw
      congr 1
      refine ih h2 h2' fun a => ?_
      by_cases ha : k = a
      · subst ha
        rw [absent m k fun d hd => h1 d hd, absent m' k fun d hd => h1' d hd]
      · simpa [Memory.read?_cons, ha] using e a

end Sys2Proof.Machine
end

