-- ==== Sys2Proof/Laws/State.lean ====
section
/-! SUPPORT. One lemma per field for each update of the state: no later proof unfolds a record update. -/

namespace Sys2Proof.Machine

variable (s : State)

@[simp] theorem finish_cmd : (finish s).cmd = s.cmd := rfl
@[simp] theorem finish_busy : (finish s).busy = false := rfl
@[simp] theorem finish_done : (finish s).done = true := rfl
@[simp] theorem finish_errCode : (finish s).errCode = s.errCode := rfl
@[simp] theorem finish_wbusy : (finish s).wbusy = s.wbusy := rfl
@[simp] theorem finish_errInfo : (finish s).errInfo = s.errInfo := rfl
@[simp] theorem finish_inLen : (finish s).inLen = s.inLen := rfl
@[simp] theorem finish_outLen : (finish s).outLen = s.outLen := rfl
@[simp] theorem finish_window : (finish s).window = s.window := rfl
@[simp] theorem finish_lookahead : (finish s).lookahead = s.lookahead := rfl
@[simp] theorem finish_matchPos : (finish s).matchPos = s.matchPos := rfl
@[simp] theorem finish_matchDist : (finish s).matchDist = s.matchDist := rfl
@[simp] theorem finish_matchLen : (finish s).matchLen = s.matchLen := rfl
@[simp] theorem finish_matchLit : (finish s).matchLit = s.matchLit := rfl
@[simp] theorem finish_inCap : (finish s).inCap = s.inCap := rfl
@[simp] theorem finish_outCap : (finish s).outCap = s.outCap := rfl
@[simp] theorem finish_ibuf : (finish s).ibuf = s.ibuf := rfl
@[simp] theorem finish_obuf : (finish s).obuf = s.obuf := rfl
@[simp] theorem finish_draws : (finish s).draws = s.draws := rfl
@[simp] theorem finish_program : (finish s).program = s.program := rfl
@[simp] theorem finish_turns : (finish s).turns = s.turns := rfl
@[simp] theorem finish_reads : (finish s).reads = s.reads := rfl

@[simp] theorem report_cmd (code : BitVec 4) (info outLen : Nat) : (report code info outLen s).cmd = s.cmd := rfl
@[simp] theorem report_busy (code : BitVec 4) (info outLen : Nat) : (report code info outLen s).busy = s.busy := rfl
@[simp] theorem report_done (code : BitVec 4) (info outLen : Nat) : (report code info outLen s).done = s.done := rfl
@[simp] theorem report_errCode (code : BitVec 4) (info outLen : Nat) : (report code info outLen s).errCode = code := rfl
@[simp] theorem report_wbusy (code : BitVec 4) (info outLen : Nat) : (report code info outLen s).wbusy = s.wbusy := rfl
@[simp] theorem report_errInfo (code : BitVec 4) (info outLen : Nat) : (report code info outLen s).errInfo = BitVec.ofNat 32 info := rfl
@[simp] theorem report_inLen (code : BitVec 4) (info outLen : Nat) : (report code info outLen s).inLen = s.inLen := rfl
@[simp] theorem report_outLen (code : BitVec 4) (info outLen : Nat) : (report code info outLen s).outLen = BitVec.ofNat 32 outLen := rfl
@[simp] theorem report_window (code : BitVec 4) (info outLen : Nat) : (report code info outLen s).window = s.window := rfl
@[simp] theorem report_lookahead (code : BitVec 4) (info outLen : Nat) : (report code info outLen s).lookahead = s.lookahead := rfl
@[simp] theorem report_matchPos (code : BitVec 4) (info outLen : Nat) : (report code info outLen s).matchPos = s.matchPos := rfl
@[simp] theorem report_matchDist (code : BitVec 4) (info outLen : Nat) : (report code info outLen s).matchDist = s.matchDist := rfl
@[simp] theorem report_matchLen (code : BitVec 4) (info outLen : Nat) : (report code info outLen s).matchLen = s.matchLen := rfl
@[simp] theorem report_matchLit (code : BitVec 4) (info outLen : Nat) : (report code info outLen s).matchLit = s.matchLit := rfl
@[simp] theorem report_inCap (code : BitVec 4) (info outLen : Nat) : (report code info outLen s).inCap = s.inCap := rfl
@[simp] theorem report_outCap (code : BitVec 4) (info outLen : Nat) : (report code info outLen s).outCap = s.outCap := rfl
@[simp] theorem report_ibuf (code : BitVec 4) (info outLen : Nat) : (report code info outLen s).ibuf = s.ibuf := rfl
@[simp] theorem report_obuf (code : BitVec 4) (info outLen : Nat) : (report code info outLen s).obuf = s.obuf := rfl
@[simp] theorem report_draws (code : BitVec 4) (info outLen : Nat) : (report code info outLen s).draws = s.draws := rfl
@[simp] theorem report_program (code : BitVec 4) (info outLen : Nat) : (report code info outLen s).program = s.program := rfl
@[simp] theorem report_turns (code : BitVec 4) (info outLen : Nat) : (report code info outLen s).turns = s.turns := rfl
@[simp] theorem report_reads (code : BitVec 4) (info outLen : Nat) : (report code info outLen s).reads = s.reads := rfl

@[simp] theorem fillObuf_cmd (out : List Byte) : (fillObuf out s).cmd = s.cmd := rfl
@[simp] theorem fillObuf_busy (out : List Byte) : (fillObuf out s).busy = s.busy := rfl
@[simp] theorem fillObuf_done (out : List Byte) : (fillObuf out s).done = s.done := rfl
@[simp] theorem fillObuf_errCode (out : List Byte) : (fillObuf out s).errCode = s.errCode := rfl
@[simp] theorem fillObuf_wbusy (out : List Byte) : (fillObuf out s).wbusy = s.wbusy := rfl
@[simp] theorem fillObuf_errInfo (out : List Byte) : (fillObuf out s).errInfo = s.errInfo := rfl
@[simp] theorem fillObuf_inLen (out : List Byte) : (fillObuf out s).inLen = s.inLen := rfl
@[simp] theorem fillObuf_outLen (out : List Byte) : (fillObuf out s).outLen = s.outLen := rfl
@[simp] theorem fillObuf_window (out : List Byte) : (fillObuf out s).window = s.window := rfl
@[simp] theorem fillObuf_lookahead (out : List Byte) : (fillObuf out s).lookahead = s.lookahead := rfl
@[simp] theorem fillObuf_matchPos (out : List Byte) : (fillObuf out s).matchPos = s.matchPos := rfl
@[simp] theorem fillObuf_matchDist (out : List Byte) : (fillObuf out s).matchDist = s.matchDist := rfl
@[simp] theorem fillObuf_matchLen (out : List Byte) : (fillObuf out s).matchLen = s.matchLen := rfl
@[simp] theorem fillObuf_matchLit (out : List Byte) : (fillObuf out s).matchLit = s.matchLit := rfl
@[simp] theorem fillObuf_inCap (out : List Byte) : (fillObuf out s).inCap = s.inCap := rfl
@[simp] theorem fillObuf_outCap (out : List Byte) : (fillObuf out s).outCap = s.outCap := rfl
@[simp] theorem fillObuf_ibuf (out : List Byte) : (fillObuf out s).ibuf = s.ibuf := rfl
@[simp] theorem fillObuf_obuf (out : List Byte) : (fillObuf out s).obuf = { cells := Memory.ofBytes 0 out, draw := s.draws } := rfl
@[simp] theorem fillObuf_draws (out : List Byte) : (fillObuf out s).draws = s.draws + 1 := rfl
@[simp] theorem fillObuf_program (out : List Byte) : (fillObuf out s).program = s.program := rfl
@[simp] theorem fillObuf_turns (out : List Byte) : (fillObuf out s).turns = s.turns := rfl
@[simp] theorem fillObuf_reads (out : List Byte) : (fillObuf out s).reads = s.reads := rfl

@[simp] theorem setMatch_cmd (dist len : Nat) (lit : Byte) : (setMatch dist len lit s).cmd = s.cmd := rfl
@[simp] theorem setMatch_busy (dist len : Nat) (lit : Byte) : (setMatch dist len lit s).busy = s.busy := rfl
@[simp] theorem setMatch_done (dist len : Nat) (lit : Byte) : (setMatch dist len lit s).done = s.done := rfl
@[simp] theorem setMatch_errCode (dist len : Nat) (lit : Byte) : (setMatch dist len lit s).errCode = s.errCode := rfl
@[simp] theorem setMatch_wbusy (dist len : Nat) (lit : Byte) : (setMatch dist len lit s).wbusy = s.wbusy := rfl
@[simp] theorem setMatch_errInfo (dist len : Nat) (lit : Byte) : (setMatch dist len lit s).errInfo = s.errInfo := rfl
@[simp] theorem setMatch_inLen (dist len : Nat) (lit : Byte) : (setMatch dist len lit s).inLen = s.inLen := rfl
@[simp] theorem setMatch_outLen (dist len : Nat) (lit : Byte) : (setMatch dist len lit s).outLen = s.outLen := rfl
@[simp] theorem setMatch_window (dist len : Nat) (lit : Byte) : (setMatch dist len lit s).window = s.window := rfl
@[simp] theorem setMatch_lookahead (dist len : Nat) (lit : Byte) : (setMatch dist len lit s).lookahead = s.lookahead := rfl
@[simp] theorem setMatch_matchPos (dist len : Nat) (lit : Byte) : (setMatch dist len lit s).matchPos = s.matchPos := rfl
@[simp] theorem setMatch_matchDist (dist len : Nat) (lit : Byte) : (setMatch dist len lit s).matchDist = BitVec.ofNat 16 dist := rfl
@[simp] theorem setMatch_matchLen (dist len : Nat) (lit : Byte) : (setMatch dist len lit s).matchLen = BitVec.ofNat 8 len := rfl
@[simp] theorem setMatch_matchLit (dist len : Nat) (lit : Byte) : (setMatch dist len lit s).matchLit = lit := rfl
@[simp] theorem setMatch_inCap (dist len : Nat) (lit : Byte) : (setMatch dist len lit s).inCap = s.inCap := rfl
@[simp] theorem setMatch_outCap (dist len : Nat) (lit : Byte) : (setMatch dist len lit s).outCap = s.outCap := rfl
@[simp] theorem setMatch_ibuf (dist len : Nat) (lit : Byte) : (setMatch dist len lit s).ibuf = s.ibuf := rfl
@[simp] theorem setMatch_obuf (dist len : Nat) (lit : Byte) : (setMatch dist len lit s).obuf = s.obuf := rfl
@[simp] theorem setMatch_draws (dist len : Nat) (lit : Byte) : (setMatch dist len lit s).draws = s.draws := rfl
@[simp] theorem setMatch_program (dist len : Nat) (lit : Byte) : (setMatch dist len lit s).program = s.program := rfl
@[simp] theorem setMatch_turns (dist len : Nat) (lit : Byte) : (setMatch dist len lit s).turns = s.turns := rfl
@[simp] theorem setMatch_reads (dist len : Nat) (lit : Byte) : (setMatch dist len lit s).reads = s.reads := rfl

@[simp] theorem acceptCommand_cmd (w : Word) : (acceptCommand w s).cmd = w := rfl
@[simp] theorem acceptCommand_busy (w : Word) : (acceptCommand w s).busy = true := rfl
@[simp] theorem acceptCommand_done (w : Word) : (acceptCommand w s).done = false := rfl
@[simp] theorem acceptCommand_errCode (w : Word) : (acceptCommand w s).errCode = 0 := rfl
@[simp] theorem acceptCommand_wbusy (w : Word) : (acceptCommand w s).wbusy = s.wbusy := rfl
@[simp] theorem acceptCommand_errInfo (w : Word) : (acceptCommand w s).errInfo = 0 := rfl
@[simp] theorem acceptCommand_inLen (w : Word) : (acceptCommand w s).inLen = s.inLen := rfl
@[simp] theorem acceptCommand_outLen (w : Word) : (acceptCommand w s).outLen = s.outLen := rfl
@[simp] theorem acceptCommand_window (w : Word) : (acceptCommand w s).window = s.window := rfl
@[simp] theorem acceptCommand_lookahead (w : Word) : (acceptCommand w s).lookahead = s.lookahead := rfl
@[simp] theorem acceptCommand_matchPos (w : Word) : (acceptCommand w s).matchPos = s.matchPos := rfl
@[simp] theorem acceptCommand_matchDist (w : Word) : (acceptCommand w s).matchDist = s.matchDist := rfl
@[simp] theorem acceptCommand_matchLen (w : Word) : (acceptCommand w s).matchLen = s.matchLen := rfl
@[simp] theorem acceptCommand_matchLit (w : Word) : (acceptCommand w s).matchLit = s.matchLit := rfl
@[simp] theorem acceptCommand_inCap (w : Word) : (acceptCommand w s).inCap = s.inCap := rfl
@[simp] theorem acceptCommand_outCap (w : Word) : (acceptCommand w s).outCap = s.outCap := rfl
@[simp] theorem acceptCommand_ibuf (w : Word) : (acceptCommand w s).ibuf = s.ibuf := rfl
@[simp] theorem acceptCommand_obuf (w : Word) : (acceptCommand w s).obuf = s.obuf := rfl
@[simp] theorem acceptCommand_draws (w : Word) : (acceptCommand w s).draws = s.draws := rfl
@[simp] theorem acceptCommand_program (w : Word) : (acceptCommand w s).program = s.program := rfl
@[simp] theorem acceptCommand_turns (w : Word) : (acceptCommand w s).turns = s.turns := rfl
@[simp] theorem acceptCommand_reads (w : Word) : (acceptCommand w s).reads = s.reads := rfl

@[simp] theorem writeStatus_cmd (v : Word) : (writeStatus v s).cmd = s.cmd := rfl
@[simp] theorem writeStatus_busy (v : Word) : (writeStatus v s).busy = s.busy := rfl
@[simp] theorem writeStatus_done (v : Word) : (writeStatus v s).done = (s.done && !v.getLsbD 1) := rfl
@[simp] theorem writeStatus_errCode (v : Word) : (writeStatus v s).errCode = s.errCode := rfl
@[simp] theorem writeStatus_wbusy (v : Word) : (writeStatus v s).wbusy = (s.wbusy && !v.getLsbD 8) := rfl
@[simp] theorem writeStatus_errInfo (v : Word) : (writeStatus v s).errInfo = s.errInfo := rfl
@[simp] theorem writeStatus_inLen (v : Word) : (writeStatus v s).inLen = s.inLen := rfl
@[simp] theorem writeStatus_outLen (v : Word) : (writeStatus v s).outLen = s.outLen := rfl
@[simp] theorem writeStatus_window (v : Word) : (writeStatus v s).window = s.window := rfl
@[simp] theorem writeStatus_lookahead (v : Word) : (writeStatus v s).lookahead = s.lookahead := rfl
@[simp] theorem writeStatus_matchPos (v : Word) : (writeStatus v s).matchPos = s.matchPos := rfl
@[simp] theorem writeStatus_matchDist (v : Word) : (writeStatus v s).matchDist = s.matchDist := rfl
@[simp] theorem writeStatus_matchLen (v : Word) : (writeStatus v s).matchLen = s.matchLen := rfl
@[simp] theorem writeStatus_matchLit (v : Word) : (writeStatus v s).matchLit = s.matchLit := rfl
@[simp] theorem writeStatus_inCap (v : Word) : (writeStatus v s).inCap = s.inCap := rfl
@[simp] theorem writeStatus_outCap (v : Word) : (writeStatus v s).outCap = s.outCap := rfl
@[simp] theorem writeStatus_ibuf (v : Word) : (writeStatus v s).ibuf = s.ibuf := rfl
@[simp] theorem writeStatus_obuf (v : Word) : (writeStatus v s).obuf = s.obuf := rfl
@[simp] theorem writeStatus_draws (v : Word) : (writeStatus v s).draws = s.draws := rfl
@[simp] theorem writeStatus_program (v : Word) : (writeStatus v s).program = s.program := rfl
@[simp] theorem writeStatus_turns (v : Word) : (writeStatus v s).turns = s.turns := rfl
@[simp] theorem writeStatus_reads (v : Word) : (writeStatus v s).reads = s.reads := rfl

@[simp] theorem dropWrite_cmd : (dropWrite s).cmd = s.cmd := rfl
@[simp] theorem dropWrite_busy : (dropWrite s).busy = s.busy := rfl
@[simp] theorem dropWrite_done : (dropWrite s).done = s.done := rfl
@[simp] theorem dropWrite_errCode : (dropWrite s).errCode = s.errCode := rfl
@[simp] theorem dropWrite_wbusy : (dropWrite s).wbusy = true := rfl
@[simp] theorem dropWrite_errInfo : (dropWrite s).errInfo = s.errInfo := rfl
@[simp] theorem dropWrite_inLen : (dropWrite s).inLen = s.inLen := rfl
@[simp] theorem dropWrite_outLen : (dropWrite s).outLen = s.outLen := rfl
@[simp] theorem dropWrite_window : (dropWrite s).window = s.window := rfl
@[simp] theorem dropWrite_lookahead : (dropWrite s).lookahead = s.lookahead := rfl
@[simp] theorem dropWrite_matchPos : (dropWrite s).matchPos = s.matchPos := rfl
@[simp] theorem dropWrite_matchDist : (dropWrite s).matchDist = s.matchDist := rfl
@[simp] theorem dropWrite_matchLen : (dropWrite s).matchLen = s.matchLen := rfl
@[simp] theorem dropWrite_matchLit : (dropWrite s).matchLit = s.matchLit := rfl
@[simp] theorem dropWrite_inCap : (dropWrite s).inCap = s.inCap := rfl
@[simp] theorem dropWrite_outCap : (dropWrite s).outCap = s.outCap := rfl
@[simp] theorem dropWrite_ibuf : (dropWrite s).ibuf = s.ibuf := rfl
@[simp] theorem dropWrite_obuf : (dropWrite s).obuf = s.obuf := rfl
@[simp] theorem dropWrite_draws : (dropWrite s).draws = s.draws := rfl
@[simp] theorem dropWrite_program : (dropWrite s).program = s.program := rfl
@[simp] theorem dropWrite_turns : (dropWrite s).turns = s.turns := rfl
@[simp] theorem dropWrite_reads : (dropWrite s).reads = s.reads := rfl

@[simp] theorem observe_cmd (r : HostRead) : (observe r s).cmd = s.cmd := rfl
@[simp] theorem observe_busy (r : HostRead) : (observe r s).busy = s.busy := rfl
@[simp] theorem observe_done (r : HostRead) : (observe r s).done = s.done := rfl
@[simp] theorem observe_errCode (r : HostRead) : (observe r s).errCode = s.errCode := rfl
@[simp] theorem observe_wbusy (r : HostRead) : (observe r s).wbusy = s.wbusy := rfl
@[simp] theorem observe_errInfo (r : HostRead) : (observe r s).errInfo = s.errInfo := rfl
@[simp] theorem observe_inLen (r : HostRead) : (observe r s).inLen = s.inLen := rfl
@[simp] theorem observe_outLen (r : HostRead) : (observe r s).outLen = s.outLen := rfl
@[simp] theorem observe_window (r : HostRead) : (observe r s).window = s.window := rfl
@[simp] theorem observe_lookahead (r : HostRead) : (observe r s).lookahead = s.lookahead := rfl
@[simp] theorem observe_matchPos (r : HostRead) : (observe r s).matchPos = s.matchPos := rfl
@[simp] theorem observe_matchDist (r : HostRead) : (observe r s).matchDist = s.matchDist := rfl
@[simp] theorem observe_matchLen (r : HostRead) : (observe r s).matchLen = s.matchLen := rfl
@[simp] theorem observe_matchLit (r : HostRead) : (observe r s).matchLit = s.matchLit := rfl
@[simp] theorem observe_inCap (r : HostRead) : (observe r s).inCap = s.inCap := rfl
@[simp] theorem observe_outCap (r : HostRead) : (observe r s).outCap = s.outCap := rfl
@[simp] theorem observe_ibuf (r : HostRead) : (observe r s).ibuf = s.ibuf := rfl
@[simp] theorem observe_obuf (r : HostRead) : (observe r s).obuf = s.obuf := rfl
@[simp] theorem observe_draws (r : HostRead) : (observe r s).draws = s.draws := rfl
@[simp] theorem observe_program (r : HostRead) : (observe r s).program = s.program := rfl
@[simp] theorem observe_turns (r : HostRead) : (observe r s).turns = s.turns := rfl
@[simp] theorem observe_reads (r : HostRead) : (observe r s).reads = r :: s.reads := rfl

@[simp] theorem takeDraw_cmd : (takeDraw s).cmd = s.cmd := rfl
@[simp] theorem takeDraw_busy : (takeDraw s).busy = s.busy := rfl
@[simp] theorem takeDraw_done : (takeDraw s).done = s.done := rfl
@[simp] theorem takeDraw_errCode : (takeDraw s).errCode = s.errCode := rfl
@[simp] theorem takeDraw_wbusy : (takeDraw s).wbusy = s.wbusy := rfl
@[simp] theorem takeDraw_errInfo : (takeDraw s).errInfo = s.errInfo := rfl
@[simp] theorem takeDraw_inLen : (takeDraw s).inLen = s.inLen := rfl
@[simp] theorem takeDraw_outLen : (takeDraw s).outLen = s.outLen := rfl
@[simp] theorem takeDraw_window : (takeDraw s).window = s.window := rfl
@[simp] theorem takeDraw_lookahead : (takeDraw s).lookahead = s.lookahead := rfl
@[simp] theorem takeDraw_matchPos : (takeDraw s).matchPos = s.matchPos := rfl
@[simp] theorem takeDraw_matchDist : (takeDraw s).matchDist = s.matchDist := rfl
@[simp] theorem takeDraw_matchLen : (takeDraw s).matchLen = s.matchLen := rfl
@[simp] theorem takeDraw_matchLit : (takeDraw s).matchLit = s.matchLit := rfl
@[simp] theorem takeDraw_inCap : (takeDraw s).inCap = s.inCap := rfl
@[simp] theorem takeDraw_outCap : (takeDraw s).outCap = s.outCap := rfl
@[simp] theorem takeDraw_ibuf : (takeDraw s).ibuf = s.ibuf := rfl
@[simp] theorem takeDraw_obuf : (takeDraw s).obuf = s.obuf := rfl
@[simp] theorem takeDraw_draws : (takeDraw s).draws = s.draws + 1 := rfl
@[simp] theorem takeDraw_program : (takeDraw s).program = s.program := rfl
@[simp] theorem takeDraw_turns : (takeDraw s).turns = s.turns := rfl
@[simp] theorem takeDraw_reads : (takeDraw s).reads = s.reads := rfl

@[simp] theorem popTurn_cmd : (popTurn s).cmd = s.cmd := rfl
@[simp] theorem popTurn_busy : (popTurn s).busy = s.busy := rfl
@[simp] theorem popTurn_done : (popTurn s).done = s.done := rfl
@[simp] theorem popTurn_errCode : (popTurn s).errCode = s.errCode := rfl
@[simp] theorem popTurn_wbusy : (popTurn s).wbusy = s.wbusy := rfl
@[simp] theorem popTurn_errInfo : (popTurn s).errInfo = s.errInfo := rfl
@[simp] theorem popTurn_inLen : (popTurn s).inLen = s.inLen := rfl
@[simp] theorem popTurn_outLen : (popTurn s).outLen = s.outLen := rfl
@[simp] theorem popTurn_window : (popTurn s).window = s.window := rfl
@[simp] theorem popTurn_lookahead : (popTurn s).lookahead = s.lookahead := rfl
@[simp] theorem popTurn_matchPos : (popTurn s).matchPos = s.matchPos := rfl
@[simp] theorem popTurn_matchDist : (popTurn s).matchDist = s.matchDist := rfl
@[simp] theorem popTurn_matchLen : (popTurn s).matchLen = s.matchLen := rfl
@[simp] theorem popTurn_matchLit : (popTurn s).matchLit = s.matchLit := rfl
@[simp] theorem popTurn_inCap : (popTurn s).inCap = s.inCap := rfl
@[simp] theorem popTurn_outCap : (popTurn s).outCap = s.outCap := rfl
@[simp] theorem popTurn_ibuf : (popTurn s).ibuf = s.ibuf := rfl
@[simp] theorem popTurn_obuf : (popTurn s).obuf = s.obuf := rfl
@[simp] theorem popTurn_draws : (popTurn s).draws = s.draws := rfl
@[simp] theorem popTurn_program : (popTurn s).program = s.program := rfl
@[simp] theorem popTurn_turns : (popTurn s).turns = s.turns.tail := rfl
@[simp] theorem popTurn_reads : (popTurn s).reads = s.reads := rfl

@[simp] theorem resetBlock_cmd : (resetBlock s).cmd = 0 := rfl
@[simp] theorem resetBlock_busy : (resetBlock s).busy = false := rfl
@[simp] theorem resetBlock_done : (resetBlock s).done = false := rfl
@[simp] theorem resetBlock_errCode : (resetBlock s).errCode = 0 := rfl
@[simp] theorem resetBlock_wbusy : (resetBlock s).wbusy = false := rfl
@[simp] theorem resetBlock_errInfo : (resetBlock s).errInfo = 0 := rfl
@[simp] theorem resetBlock_inLen : (resetBlock s).inLen = 0 := rfl
@[simp] theorem resetBlock_outLen : (resetBlock s).outLen = 0 := rfl
@[simp] theorem resetBlock_window : (resetBlock s).window = 20 := rfl
@[simp] theorem resetBlock_lookahead : (resetBlock s).lookahead = 15 := rfl
@[simp] theorem resetBlock_matchPos : (resetBlock s).matchPos = 0 := rfl
@[simp] theorem resetBlock_matchDist : (resetBlock s).matchDist = 0 := rfl
@[simp] theorem resetBlock_matchLen : (resetBlock s).matchLen = 0 := rfl
@[simp] theorem resetBlock_matchLit : (resetBlock s).matchLit = 0 := rfl
@[simp] theorem resetBlock_inCap : (resetBlock s).inCap = s.inCap := rfl
@[simp] theorem resetBlock_outCap : (resetBlock s).outCap = s.outCap := rfl
@[simp] theorem resetBlock_ibuf : (resetBlock s).ibuf = { cells := [], draw := s.draws } := rfl
@[simp] theorem resetBlock_obuf : (resetBlock s).obuf = { cells := [], draw := s.draws + 1 } := rfl
@[simp] theorem resetBlock_draws : (resetBlock s).draws = s.draws + 2 := rfl
@[simp] theorem resetBlock_program : (resetBlock s).program = s.program := rfl
@[simp] theorem resetBlock_turns : (resetBlock s).turns = s.turns := rfl
@[simp] theorem resetBlock_reads : (resetBlock s).reads = s.reads := rfl

end Sys2Proof.Machine
end

