-- ==== Sys2Proof/Laws/Completion.lean ====
section
/-! SUPPORT. What a completion leaves, said once: cited instead of unfolding `completion` or `errorCompletion`. -/

namespace Sys2Proof.Machine

/-- Error completion of a command other than LZ_MATCH, or of a word that names none (rule R274). -/
theorem errorCompletion_raised (e : ErrKind) (info : Nat) (s : State) :
    Raised s (errorCompletion false e info s) e.code info := by
  refine ⟨⟨rfl, rfl, rfl, rfl⟩, rfl, ⟨rfl, rfl, rfl⟩, ⟨rfl, rfl, rfl, rfl, rfl, rfl, rfl, rfl, fun _ => rfl, rfl, rfl, rfl⟩⟩

/-- Error completion of LZ_MATCH (rule R274). -/
theorem errorCompletion_matchRaised (e : ErrKind) (info : Nat) (s : State) :
    MatchRaised s (errorCompletion true e info s) e.code info := by
  refine ⟨⟨rfl, rfl, rfl, rfl⟩, rfl, rfl, rfl, rfl, fun _ => rfl,
    ⟨rfl, rfl, rfl, rfl, rfl, rfl, rfl, rfl, fun _ => rfl, rfl, rfl, rfl⟩⟩

/-- An output that fits in OBUF is written (rule R143). -/
theorem completion_out_succeeded (m : Bool) {out : List Byte} {s : State} (h : out.length ≤ s.outCap.toNat) :
    Succeeded s (completion m (.out out) s) out := by
  have hlt : out.length < 2 ^ 32 := Nat.lt_of_le_of_lt h s.outCap.isLt
  have hc : completion m (.out out) s = finish (report 0 0 out.length (fillObuf out s)) := by
    simp [completion, Nat.not_lt.2 h]
  rw [hc]
  refine ⟨⟨rfl, rfl, rfl, rfl⟩, ⟨?_, fun i hi => ?_⟩, ⟨rfl, rfl, rfl⟩,
    ⟨rfl, rfl, rfl, rfl, rfl, rfl, rfl, rfl, fun _ => rfl, rfl, rfl, rfl⟩⟩
  · simpa using hlt
  · simp [Buffer.read_ofBytes _ _ _ hi]

/-- An output that does not fit is OutputOverflow (rule R144). -/
theorem completion_out_overflow (m : Bool) {out : List Byte} {s : State} (h : s.outCap.toNat < out.length) :
    completion m (.out out) s = errorCompletion m .outputOverflow 0 s := by
  simp [completion, h]

/-- The result of LZ_MATCH (rule R143), when its fields fit their registers. -/
theorem completion_matched_found (m : Bool) {d l : Nat} {c : Byte} {s : State} (hd : d < 65536) (hl : l < 256) :
    Found s (completion m (.matched d l c) s) d l c := by
  refine ⟨⟨rfl, rfl, rfl, rfl⟩, rfl, ?_, ?_, rfl, fun _ => rfl,
    ⟨rfl, rfl, rfl, rfl, rfl, rfl, rfl, rfl, fun _ => rfl, rfl, rfl, rfl⟩⟩
  · simp [completion, BitVec.toNat_ofNat, Nat.mod_eq_of_lt hd]
  · simp [completion, BitVec.toNat_ofNat, Nat.mod_eq_of_lt hl]

@[simp] theorem completion_err (m : Bool) (e : ErrKind) (info : Nat) (s : State) :
    completion m (.err e info) s = errorCompletion m e info s := rfl

/-- Every completion is one of these: an output written, a match reported, or an error. -/
theorem completion_cases (m : Bool) (r : CmdResult) (s : State) :
    (∃ out, r = .out out ∧ out.length ≤ s.outCap.toNat ∧
      completion m r s = finish (report 0 0 out.length (fillObuf out s))) ∨
    (∃ d l c, r = .matched d l c ∧ completion m r s = finish (report 0 0 0 (setMatch d l c s))) ∨
    (∃ e info, completion m r s = errorCompletion m e info s ∧
      ((∃ out, r = .out out ∧ s.outCap.toNat < out.length ∧ e = .outputOverflow ∧ info = 0) ∨ r = .err e info)) := by
  cases r with
  | out bytes =>
    by_cases h : s.outCap.toNat < bytes.length
    · exact .inr (.inr ⟨_, _, completion_out_overflow m h, .inl ⟨_, rfl, h, rfl, rfl⟩⟩)
    · exact .inl ⟨_, rfl, Nat.not_lt.1 h, by simp [completion, h]⟩
  | matched d l c => exact .inr (.inl ⟨d, l, c, rfl, rfl⟩)
  | err e info => exact .inr (.inr ⟨e, info, rfl, .inr rfl⟩)

/-- Every completion keeps what rule R143 keeps. -/
theorem completion_frame (m : Bool) (r : CmdResult) (s : State) : EngineFrame s (completion m r s) := by
  rcases completion_cases m r s with ⟨out, -, -, h⟩ | ⟨d, l, c, -, h⟩ | ⟨e, info, h, -⟩ <;> rw [h]
  · exact ⟨rfl, rfl, rfl, rfl, rfl, rfl, rfl, rfl, fun _ => rfl, rfl, rfl, rfl⟩
  · exact ⟨rfl, rfl, rfl, rfl, rfl, rfl, rfl, rfl, fun _ => rfl, rfl, rfl, rfl⟩
  · cases m
    · exact (errorCompletion_raised e info s).frame
    · exact (errorCompletion_matchRaised e info s).frame

end Sys2Proof.Machine
end

