-- ==== Sys2Proof/Laws/Decode.lean ====
section
/-! SUPPORT. The fields of a command word as numbers, and the words the first check of rule R93 rejects. -/

namespace Sys2Proof.Machine

theorem ofWord_rsv (w : Word) : (CommandWord.ofWord w).rsv.toNat = w.toNat / 256 := by
  have := w.isLt
  simp [CommandWord.ofWord, BitVec.extractLsb'_toNat, Nat.shiftRight_eq_div_pow]
  omega

theorem ofWord_alg (w : Word) : (CommandWord.ofWord w).alg.toNat = w.toNat / 16 % 16 := by
  simp [CommandWord.ofWord, BitVec.extractLsb'_toNat, Nat.shiftRight_eq_div_pow]

theorem ofWord_fn (w : Word) : (CommandWord.ofWord w).fn.toNat = w.toNat % 16 := by
  simp [CommandWord.ofWord, BitVec.extractLsb'_toNat]

/-- A word with a reserved bit set names no command. -/
theorem decode_reserved {w : Word} (h : w.toNat / 256 ≠ 0) : decode w = .error .reservedBits := by
  unfold decode CommandWord.decode
  rw [if_pos]
  intro e
  exact h (by rw [← ofWord_rsv, e]; rfl)

/-- What decodes below 256 is the word its command encodes to: a check of the 256 words. -/
theorem encode_of_decode_small : ∀ (i : Instr) (n : Fin 256), decode (BitVec.ofNat 32 n) = .ok i → encode i = BitVec.ofNat 32 n := by
  intro i
  cases i <;> decide +kernel

/-- A word that decodes to a command is the word the command encodes to. -/
theorem encode_of_decode {w : Word} {i : Instr} (h : decode w = .ok i) : encode i = w := by
  by_cases hw : w.toNat / 256 = 0
  · have := encode_of_decode_small i ⟨w.toNat, by omega⟩
    simp at this
    exact this h
  · rw [decode_reserved hw] at h
    cases h

/-- Only the word 0x32 decodes to LZ_MATCH. -/
theorem decode_isMatch {w : Word} {i : Instr} (h : decode w = .ok i) : i = .lzMatch ↔ w = 0x00000032#32 := by
  constructor
  · rintro rfl
    exact (encode_of_decode h).symm
  · rintro rfl
    cases i <;> first | rfl | (revert h; decide)

end Sys2Proof.Machine
end

