-- ==== Sys2Proof/Laws/Lz77.lean ====
section
/-! SUPPORT. The window search and the byte-by-byte copy: what `commonPrefix`, `lzSearch` and `lzCopy` compute. -/

namespace Sys2Proof.Machine

/-! ### Match length -/

theorem commonPrefix_le (k : Nat) (xs ys : List Byte) : commonPrefix k xs ys ≤ k := by
  induction k generalizing xs ys with
  | zero => simp [commonPrefix]
  | succ k ih =>
    cases xs <;> cases ys <;> simp [commonPrefix]
    split
    · exact Nat.succ_le_succ (ih _ _)
    · omega

/-- Up to its result the two sequences agree. -/
theorem commonPrefix_agree (k : Nat) (xs ys : List Byte) (t : Nat) (h : t < commonPrefix k xs ys) :
    byteAt xs t = byteAt ys t := by
  induction k generalizing xs ys t with
  | zero => simp [commonPrefix] at h
  | succ k ih =>
    cases xs with
    | nil => simp [commonPrefix] at h
    | cons x xs =>
      cases ys with
      | nil => simp [commonPrefix] at h
      | cons y ys =>
        simp only [commonPrefix] at h
        split at h
        · rename_i e
          cases t with
          | zero => simpa using e
          | succ t => simpa using ih xs ys t (by omega)
        · omega

/-- Its result is the largest: any agreement inside both sequences is no longer. -/
theorem le_commonPrefix (k : Nat) (xs ys : List Byte) (l : Nat) (hk : l ≤ k) (hx : l ≤ xs.length) (hy : l ≤ ys.length)
    (h : ∀ t, t < l → byteAt xs t = byteAt ys t) : l ≤ commonPrefix k xs ys := by
  induction k generalizing xs ys l with
  | zero => omega
  | succ k ih =>
    cases l with
    | zero => omega
    | succ l =>
      cases xs with
      | nil => simp at hx
      | cons x xs =>
        cases ys with
        | nil => simp at hy
        | cons y ys =>
          have h0 : x = y := by simpa using h 0 (by omega)
          simp only [commonPrefix, if_pos h0]
          have := ih xs ys l (by omega) (by simpa using hx) (by simpa using hy) fun t ht => by
            simpa using h (t + 1) (by omega)
          omega

theorem byteAt_drop (xs : List Byte) (j t : Nat) : byteAt (xs.drop j) t = byteAt xs (j + t) := by
  simp [byteAt, List.getD_eq_getElem?_getD, List.getElem?_drop]

/-- `matchLength` against the declarative match, rule R232. -/
theorem isMatch_iff_le_matchLength {xs : List Byte} {w la i d l : Nat} (hi : i < xs.length) (hd : 1 ≤ d) (hdi : d ≤ i)
    (hdw : d ≤ w) : IsMatch xs w la i d l ↔ l ≤ matchLength xs (i - d) i (maxMatch xs la i) := by
  constructor
  · rintro ⟨-, -, -, hl, hin, hb⟩
    refine le_commonPrefix _ _ _ _ (by simp only [maxMatch]; omega) (by simp; omega) (by simp; omega) fun t ht => ?_
    rw [byteAt_drop, byteAt_drop]
    exact hb t ht
  · intro hl
    have hle := Nat.le_trans hl (commonPrefix_le _ _ _)
    simp only [maxMatch] at hle
    refine ⟨hd, hdi, hdw, by omega, by omega, fun t ht => ?_⟩
    have := commonPrefix_agree _ _ _ t (Nat.lt_of_lt_of_le ht hl)
    rwa [byteAt_drop, byteAt_drop] at this

/-! ### The search -/

/-- Scanning candidates `a`, `a + 1`, ..., with a best so far that is best among the earlier ones, keeps the best: nothing
longer among those scanned, and of equal length nothing older. -/
theorem lzConsider_foldl (xs : List Byte) (i m : Nat) (n a : Nat) (best : LzBest) :
    let r := (List.range' a n).foldl (lzConsider xs i m) best
    (r = best ∧ ∀ j, a ≤ j → j < a + n → matchLength xs j i m ≤ best.len) ∨
    (∃ j, a ≤ j ∧ j < a + n ∧ r.dist = i - j ∧ r.len = matchLength xs j i m ∧ best.len < r.len ∧
      (∀ j', a ≤ j' → j' < a + n → matchLength xs j' i m ≤ r.len) ∧
      ∀ j', a ≤ j' → j' < j → matchLength xs j' i m < r.len) := by
  induction n generalizing a best with
  | zero => exact .inl ⟨rfl, fun j h1 h2 => by omega⟩
  | succ n ih =>
    simp only [List.range'_succ, List.foldl_cons]
    have hc : lzConsider xs i m best a = { dist := i - a, len := matchLength xs a i m } ∧ best.len < matchLength xs a i m ∨
        lzConsider xs i m best a = best ∧ matchLength xs a i m ≤ best.len := by
      simp only [lzConsider]
      split
      · exact .inl ⟨rfl, ‹_›⟩
      · exact .inr ⟨rfl, by omega⟩
    rcases hc with ⟨hc, hlt⟩ | ⟨hc, hle⟩ <;> rw [hc]
    · rcases ih (a + 1) { dist := i - a, len := matchLength xs a i m } with ⟨hr, hall⟩ | ⟨j, h1, h2, h3, h4, h5, h6, h7⟩
      · refine .inr ⟨a, by omega, by omega, by rw [hr], by rw [hr], by rw [hr]; exact hlt, fun j' h1 h2 => ?_,
          fun j' h1 h2 => by omega⟩
        rw [hr]
        by_cases e : j' = a
        · subst e; exact Nat.le_refl _
        · exact hall j' (by omega) (by omega)
      · simp only at h5
        refine .inr ⟨j, by omega, by omega, h3, h4, by omega, fun j' g1 g2 => ?_, fun j' g1 g2 => ?_⟩
        · by_cases e : j' = a
          · subst e; omega
          · exact h6 j' (by omega) (by omega)
        · by_cases e : j' = a
          · subst e; omega
          · exact h7 j' (by omega) g2
    · rcases ih (a + 1) best with ⟨hr, hall⟩ | ⟨j, h1, h2, h3, h4, h5, h6, h7⟩
      · refine .inl ⟨hr, fun j' g1 g2 => ?_⟩
        by_cases e : j' = a
        · subst e; exact hle
        · exact hall j' (by omega) (by omega)
      · refine .inr ⟨j, by omega, by omega, h3, h4, h5, fun j' g1 g2 => ?_, fun j' g1 g2 => ?_⟩
        · by_cases e : j' = a
          · subst e; omega
          · exact h6 j' (by omega) (by omega)
        · by_cases e : j' = a
          · subst e; omega
          · exact h7 j' (by omega) g2

/-- The search finds the best match, rule R234. -/
theorem lzSearch_best {xs : List Byte} {i : Nat} (w la : Nat) (hi : i < xs.length) :
    BestMatch xs w la i (lzSearch xs w la i).dist (lzSearch xs w la i).len := by
  have key := lzConsider_foldl xs i (maxMatch xs la i) (i - (i - w)) (i - w) { dist := 0, len := 0 }
  simp only at key
  change (lzSearch xs w la i = _ ∧ _) ∨ (∃ j, _ ∧ _ ∧ (lzSearch xs w la i).dist = _ ∧ _) at key
  rcases key with ⟨hr, hall⟩ | ⟨j, h1, h2, h3, h4, h5, h6, h7⟩
  · refine .inl ⟨by rw [hr], by rw [hr], fun d l hm => ?_⟩
    have hm' := hm
    obtain ⟨hd, hdi, hdw, -⟩ := hm
    have := (isMatch_iff_le_matchLength hi hd hdi hdw).1 hm'
    have := hall (i - d) (by omega) (by omega)
    omega
  · have hl : (lzSearch xs w la i).len = matchLength xs j i (maxMatch xs la i) := h4
    have hpos : 0 < (lzSearch xs w la i).len := h5
    have hj : i - (i - j) = j := by omega
    refine .inr ⟨hpos, ?_, fun d l hm => ?_⟩
    · rw [h3]
      refine (isMatch_iff_le_matchLength hi (by omega) (by omega) (by omega)).2 ?_
      rw [hj, hl]
    · have hm' := hm
      obtain ⟨hd, hdi, hdw, -⟩ := hm
      have hle := (isMatch_iff_le_matchLength hi hd hdi hdw).1 hm'
      have h6' := h6 (i - d) (by omega) (by omega)
      change _ ≤ (lzSearch xs w la i).len at h6'
      refine ⟨by omega, fun e => ?_⟩
      rw [h3]
      by_contra hgt
      have h7' := h7 (i - d) (by omega) (by omega)
      change _ < (lzSearch xs w la i).len at h7'
      omega

/-- The bounds of a best match. -/
theorem bestMatch_bounds {xs : List Byte} {w la i d l : Nat} (h : BestMatch xs w la i d l) (hi : i < xs.length) :
    l ≤ la ∧ i + l < xs.length ∧ d ≤ i ∧ d ≤ w ∧ (d = 0 ↔ l = 0) := by
  rcases h with ⟨rfl, rfl, -⟩ | ⟨hl, ⟨h1, h2, h3, h4, h5, -⟩, -⟩
  · exact ⟨Nat.zero_le _, by omega, Nat.zero_le _, Nat.zero_le _, Iff.rfl⟩
  · exact ⟨h4, h5, h2, h3, by omega⟩

/-! ### The encoder -/

/-- The tokens from a cursor on are the greedy parse, when the fuel covers the bytes left. -/
theorem lzTokens_greedy (xs : List Byte) (w la fuel i : Nat) (hi : i ≤ xs.length) (hf : xs.length - i ≤ fuel) :
    GreedyParse xs w la i (lzTokens xs w la fuel i) ∧ (lzTokens xs w la fuel i).length ≤ xs.length - i := by
  induction fuel generalizing i with
  | zero =>
    have : i = xs.length := by omega
    subst this
    exact ⟨.done, by simp [lzTokens]⟩
  | succ fuel ih =>
    by_cases h : i < xs.length
    · have hb := lzSearch_best w la h
      have hbd := bestMatch_bounds hb h
      have hr := ih (i + (lzTokenAt xs w la i).len + 1) (by simp only [lzTokenAt]; omega) (by omega)
      have ht : lzTokens xs w la (fuel + 1) i =
          lzTokenAt xs w la i :: lzTokens xs w la fuel (i + (lzTokenAt xs w la i).len + 1) := by
        simp [lzTokens, h]
      rw [ht]
      refine ⟨.token h hb hr.1, ?_⟩
      have := hr.2
      simp only [List.length_cons]
      omega
    · have : i = xs.length := by omega
      subst this
      have ht : lzTokens xs w la (fuel + 1) xs.length = [] := by simp [lzTokens]
      rw [ht]
      exact ⟨.done, by simp⟩

/-! ### The copy -/

/-- The copy appends `l` bytes, each equal to the byte `d` before it. -/
theorem lzCopy_spec (l d : Nat) (out : List Byte) (hd : d ≤ out.length) :
    ∃ copy, lzCopy l d out = out ++ copy ∧ copy.length = l ∧
      ∀ m, m < l → byteAt copy m = byteAt (out ++ copy) (out.length + m - d) := by
  induction l generalizing out with
  | zero => exact ⟨[], by simp [lzCopy], rfl, fun m hm => by omega⟩
  | succ l ih =>
    obtain ⟨copy, hc, hl, hb⟩ := ih (out ++ [byteAt out (out.length - d)]) (by simp; omega)
    refine ⟨byteAt out (out.length - d) :: copy, by simp [lzCopy, hc], by simp [hl], fun m hm => ?_⟩
    cases m with
    | zero =>
      by_cases h0 : d = 0
      · subst h0
        have := byteAt_append_right out (byteAt out (out.length - 0) :: copy) 0
        simpa using this.symm
      · simp only [byteAt_cons_zero, Nat.add_zero]
        rw [byteAt_append_left (by omega)]
    | succ m =>
      have := hb m (by omega)
      simp only [byteAt_cons_succ, List.length_append, List.length_singleton, List.append_assoc, List.singleton_append]
        at this ⊢
      rw [this]
      congr 1
      omega

/-- The container of rule R103 is the tokens' own bytes. -/
theorem tokenBytes_eq (ks : List LzToken) : tokenBytes ks = ks.flatMap LzToken.bytes := by
  have h : ∀ n : Nat, BitVec.ofNat 8 (n % 256) = BitVec.ofNat 8 n := fun n => BitVec.eq_of_toNat_eq (by simp)
  simp only [tokenBytes, h]
  rfl

@[simp] theorem tokenBytes_nil : tokenBytes [] = [] := rfl

theorem tokenBytes_cons (k : LzToken) (ks : List LzToken) : tokenBytes (k :: ks) = k.bytes ++ tokenBytes ks := by
  simp [tokenBytes_eq]

/-- LZ_ENC's output is the container of the tokens of its rounds. -/
theorem lzEncode_eq_tokenBytes (xs : List Byte) (w la : Nat) :
    lzEncode xs w la = tokenBytes (lzTokens xs w la xs.length 0) := (tokenBytes_eq _).symm

theorem tokenBytes_singleton (k : LzToken) : tokenBytes [k] = k.bytes := by simp [tokenBytes_cons]

@[simp] theorem length_tokenBytes (ks : List LzToken) : (tokenBytes ks).length = 4 * ks.length := by
  simp [tokenBytes, Nat.mul_comm]

/-! ### Expansion -/

/-- A legal token takes the output to one output only, the one the copy of rule R243 makes. -/
theorem lzCopy_of_expandsBy {out : List Byte} {k : LzToken} {out' : List Byte} (hk : LegalToken k)
    (h : ExpandsBy out k out') : lzCopy k.len k.dist out ++ [k.lit] = out' := by
  obtain ⟨hd, copy, rfl, hl, hc⟩ := h
  obtain ⟨copy', h', hl', hc'⟩ := lzCopy_spec k.len k.dist out hd
  rw [h']
  congr 2
  have key : ∀ m, m ≤ k.len → copy'.take m = copy.take m := by
    intro m
    induction m with
    | zero => intro; simp
    | succ m ih =>
      intro hm
      have ih := ih (by omega)
      rw [List.take_succ_eq_append_getElem (by omega), List.take_succ_eq_append_getElem (by omega), ih]
      congr 2
      rw [← byteAt_eq_getElem, ← byteAt_eq_getElem, hc m (by omega), hc' m (by omega)]
      have h0 : k.dist ≠ 0 := fun e => by have := hk.2.2.1 e; omega
      by_cases hlt : out.length + m - k.dist < out.length
      · rw [byteAt_append_left hlt, byteAt_append_left hlt]
      · have e : out.length + m - k.dist = out.length + (m - k.dist) := by omega
        rw [e, byteAt_append_right, byteAt_append_right, ← byteAt_take (show m - k.dist < m by omega), ih,
          byteAt_take (show m - k.dist < m by omega)]
  have := key k.len le_rfl
  rwa [List.take_of_length_le (by omega), List.take_of_length_le (by omega)] at this

/-- The fields of a token read back from its bytes. -/
theorem lzToken_fields {k : LzToken} (hd : k.dist ≤ 65535) (hl : k.len ≤ 255) :
    (BitVec.ofNat 8 (k.dist / 256)).toNat * 256 + (BitVec.ofNat 8 k.dist).toNat = k.dist ∧
      (BitVec.ofNat 8 k.len).toNat = k.len := by
  simp only [BitVec.toNat_ofNat]
  omega

/-- One legal token that fits is decoded as its expansion. -/
theorem lzDecodeTokens_token {out mid : List Byte} {k : LzToken} (hk : LegalToken k) (h : ExpandsBy out k mid) (p : Nat)
    (rest : List Byte) : lzDecodeTokens p out (k.bytes ++ rest) = lzDecodeTokens (p + 4) mid rest := by
  obtain ⟨h1, h2⟩ := lzToken_fields hk.1 hk.2.1
  have hb : k.bytes ++ rest = BitVec.ofNat 8 (k.dist / 256) :: BitVec.ofNat 8 k.dist :: BitVec.ofNat 8 k.len :: k.lit :: rest := rfl
  rw [hb, lzDecodeTokens]
  simp only [h1, h2]
  rw [if_neg (by have := hk.2.2; simp [this]), if_neg (Nat.not_lt.2 h.1), lzCopy_of_expandsBy hk h]

/-- Legal tokens are decoded as their expansion, whatever follows them. -/
theorem lzDecodeTokens_expands {out final : List Byte} {ks : List LzToken} (hk : ∀ k ∈ ks, LegalToken k)
    (h : Expands out ks final) (p : Nat) (rest : List Byte) :
    lzDecodeTokens p out (tokenBytes ks ++ rest) = lzDecodeTokens (p + 4 * ks.length) final rest := by
  induction h generalizing p with
  | nil out => rfl
  | @cons out mid final k ks first more ih =>
    have hb : tokenBytes (k :: ks) ++ rest = k.bytes ++ (tokenBytes ks ++ rest) := by
      rw [tokenBytes_cons, List.append_assoc]
    rw [hb, lzDecodeTokens_token (hk k List.mem_cons_self) first, ih fun x hx => hk x (List.mem_cons_of_mem _ hx)]
    congr 1
    simp
    omega

/-- A greedy parse expands to its input. -/
theorem expands_of_greedyParse {xs : List Byte} {w la i : Nat} {ks : List LzToken} (h : GreedyParse xs w la i ks) :
    Expands (xs.take i) ks xs := by
  induction h with
  | done => rw [List.take_length]; exact .nil _
  | @token i d l rest inside best more ih =>
    have hb := bestMatch_bounds best inside
    refine .cons (mid := xs.take (i + l + 1)) ⟨?_, (xs.drop i).take l, ?_, ?_, ?_⟩ ih
    · simp; omega
    · have h1 : xs.take (i + l + 1) = xs.take (i + l) ++ [byteAt xs (i + l)] := by
        rw [List.take_succ_eq_append_getElem hb.2.1, byteAt_eq_getElem hb.2.1]
      rw [h1, List.take_add]
    · simp; omega
    · intro m hm
      rcases best with ⟨rfl, rfl, -⟩ | ⟨hl, ⟨hd, hdi, hdw, hla, hin, hbyte⟩, -⟩
      · simp at hm
      · have hm' : m < l := hm
        rw [byteAt_take hm', byteAt_drop, ← hbyte m hm']
        have hlen : (xs.take i).length = i := by simp; omega
        have hm2 : i + m - d < i + l := by omega
        show byteAt xs (i - d + m) = byteAt _ ((xs.take i).length + m - d)
        rw [hlen, ← List.take_add, byteAt_take hm2]
        congr 1
        omega

/-- The tokens of a greedy parse are legal. -/
theorem legal_of_greedyParse {xs : List Byte} {w la i : Nat} {ks : List LzToken} (hw : w ≤ 65535) (hla : la ≤ 255)
    (h : GreedyParse xs w la i ks) : ∀ k ∈ ks, LegalToken k ∧ k.dist ≤ w ∧ k.len ≤ la := by
  induction h with
  | done => simp
  | @token i d l rest inside best more ih =>
    have hb := bestMatch_bounds best inside
    intro k hk
    rcases List.mem_cons.1 hk with rfl | hk
    · exact ⟨⟨by simp; omega, by simp; omega, hb.2.2.2.2⟩, hb.2.2.2.1, hb.1⟩
    · exact ih k hk

end Sys2Proof.Machine
end

