-- ==== Sys2Proof/Laws/Operands.lean ====
section
/-! SUPPORT. The operands of a command in a state that holds an input: cited instead of unfolding `State.operands`. -/

namespace Sys2Proof.Machine

theorem State.length_inputBytes (s : State) (n : Nat) : (s.inputBytes n).length = n := by
  simp [State.inputBytes]

/-- IN of a state that holds `xs` is `xs`. -/
theorem inputBytes_of_holds {s : State} {xs : List Byte} (h : HoldsInput s xs) :
    s.inputBytes xs.length = xs := by
  obtain ⟨-, -, hr⟩ := h
  apply List.ext_getElem (State.length_inputBytes s _)
  intro i h1 h2
  have := hr i h2
  simp only [State.inputBytes, List.getElem_map, List.getElem_range, this]
  simp [byteAt, List.getD_eq_getElem?_getD, List.getElem?_eq_getElem h2]

/-- The operands of a state that holds `xs`. -/
theorem operands_of_holds {s : State} {xs : List Byte} (h : HoldsInput s xs) :
    s.operands = { inCap := s.inCap.toNat, n := xs.length, window := s.window.toNat, lookahead := s.lookahead.toNat,
                   pos := s.matchPos.toNat, input := xs } := by
  have hn := h.1
  have hc := h.2.1
  simp only [State.operands, hn]
  rw [if_neg (by omega), inputBytes_of_holds h]

/-- The length check passes when the input fits. -/
theorem checkLength_of_le {op : Operands} (h : op.n ≤ op.inCap) (r : CmdResult) : checkLength op r = r := by
  simp [checkLength, Nat.not_lt.2 h]

theorem checkLength_of_lt {op : Operands} (h : op.inCap < op.n) (r : CmdResult) :
    checkLength op r = .err .badParameter 0 := by
  simp [checkLength, h]

/-- The length check of a state that holds an input passes. -/
theorem checkLength_of_holds {s : State} {xs : List Byte} (h : HoldsInput s xs) (r : CmdResult) :
    checkLength s.operands r = r := by
  apply checkLength_of_le
  rw [operands_of_holds h]
  exact h.2.1

/-- The input of a state that holds one fits in 32 bits. -/
theorem holds_lt {s : State} {xs : List Byte} (h : HoldsInput s xs) : xs.length < 4294967296 := by
  have := s.inLen.isLt
  have := h.1
  omega

/-- Taking a turn does not change what the engine reads. -/
@[simp] theorem popTurn_operands (s : State) : (popTurn s).operands = s.operands := rfl

end Sys2Proof.Machine
end

