-- ==== Sys2Proof/Laws/Step.lean ====
section
/-! SUPPORT. What one host access, one host turn and one step can do, said once for each. -/

namespace Sys2Proof.Machine

theorem regAt_eq_cmd (off : BitVec 12) : regAt off = some .cmd ↔ off.toNat / 4 = 0 := by
  unfold regAt
  generalize off.toNat / 4 = n
  split <;> simp_all

theorem regAt_eq_status (off : BitVec 12) : regAt off = some .status ↔ off.toNat / 4 = 1 := by
  unfold regAt
  generalize off.toNat / 4 = n
  split <;> simp_all

theorem droppable_regWrite (off : BitVec 12) (v : Word) :
    (HostAccess.regWrite off v).droppable = true ↔ regAt off ≠ some .status := by
  rw [Ne, regAt_eq_status]
  simp [HostAccess.droppable]

/-- STATUS bit 0 is BUSY (rule R26). -/
theorem statusWord_busy (s : State) : s.statusWord.getLsbD 0 = s.busy := by
  rw [State.statusWord, BitVec.getLsbD_append]
  simp

/-- What a register write while idle stores, but for CMD and STATUS. -/
theorem writeRegIdle_cases (r : Option RegName) (v : Word) (s : State) (hc : r ≠ some .cmd) (hs : r ≠ some .status) :
    writeRegIdle r v s = s ∨ writeRegIdle r v s = { s with inLen := v } ∨
      writeRegIdle r v s = { s with window := v.setWidth 16 } ∨
      writeRegIdle r v s = { s with lookahead := v.setWidth 8 } ∨ writeRegIdle r v s = { s with matchPos := v } := by
  cases r with
  | none => exact .inl rfl
  | some r =>
    cases r with
    | cmd => exact absurd rfl hc
    | status => exact absurd rfl hs
    | inLen => exact .inr (.inl rfl)
    | window => exact .inr (.inr (.inl rfl))
    | lookahead => exact .inr (.inr (.inr (.inl rfl)))
    | matchPos => exact .inr (.inr (.inr (.inr rfl)))
    | errInfo | outLen | matchDist | matchLen | matchLit | inCap | outCap => exact .inl rfl

/-- What a host access can do to the block. -/
inductive AccessEffect (a : HostAccess) (s : State) : Prop where
  /-- A read: it leaves its own traces only. -/
  | read (r : HostRead) (d : Nat) (le : d ≤ 1) (notWrite : a.droppable = false)
      (eq : performAccess a s = { s with reads := r :: s.reads, draws := s.draws + d })
  /-- A write dropped while BUSY (rule R310). -/
  | dropped (busy : s.busy = true) (write : a.droppable = true) (eq : performAccess a s = dropWrite s)
  /-- A write to STATUS (rules R27, R29). -/
  | status (off : BitVec 12) (v : Word) (isWrite : a = .regWrite off v) (at1 : off.toNat / 4 = 1)
      (eq : performAccess a s = writeStatus v s)
  /-- An acceptance (rule R140). -/
  | accepted (off : BitVec 12) (w : Word) (idle : s.busy = false) (isWrite : a = .regWrite off w) (at0 : off.toNat / 4 = 0)
      (eq : performAccess a s = acceptCommand w s)
  /-- A write while idle that does nothing (rules R24, R42, R64). -/
  | ignored (idle : s.busy = false) (write : a.droppable = true) (eq : performAccess a s = s)
  /-- A write while idle to an operand register (rules R32, R34 to R36). -/
  | operand (il : Word) (wi : BitVec 16) (la : BitVec 8) (mp : Word) (idle : s.busy = false) (write : a.droppable = true)
      (eq : performAccess a s = { s with inLen := il, window := wi, lookahead := la, matchPos := mp })
  /-- A write of a byte of IBUF while idle (rule R64). -/
  | ibuf (x : Word) (v : Byte) (idle : s.busy = false) (isWrite : a = .bufWrite .ibuf x v) (inside : x.toNat < s.inCap.toNat)
      (eq : performAccess a s = { s with ibuf := s.ibuf.write x.toNat v })
  /-- A write of a byte of OBUF while idle (rule R64). -/
  | obuf (x : Word) (v : Byte) (idle : s.busy = false) (isWrite : a = .bufWrite .obuf x v) (inside : x.toNat < s.outCap.toNat)
      (eq : performAccess a s = { s with obuf := s.obuf.write x.toNat v })

theorem performAccess_effect (a : HostAccess) (s : State) : AccessEffect a s := by
  cases a with
  | regRead off =>
    cases hr : regAt off with
    | none => exact .read (.reg off 0) 0 (by omega) rfl (by simp [performAccess, readReg, hr, observe])
    | some r =>
      by_cases hb : (s.busy && r.isResult) = true
      · exact .read (.reg off (Config.freeWord s.draws)) 1 (by omega) rfl
          (by simp only [performAccess, readReg, hr, hb, if_true]; rfl)
      · exact .read (.reg off (s.regValue r)) 0 (by omega) rfl
          (by simp only [performAccess, readReg, hr, hb]; rfl)
  | bufRead sp x =>
    cases sp with
    | ibuf => exact .read _ 0 (by omega) rfl rfl
    | obuf =>
      by_cases hb : s.busy = true
      · exact .read (.buf .obuf x (Config.freeByte s.draws x.toNat)) 1 (by omega) rfl ((if_pos hb).trans rfl)
      · exact .read (.buf .obuf x (if x.toNat < s.outCap.toNat then s.obuf.read x.toNat else 0)) 0 (by omega) rfl
          ((if_neg hb).trans rfl)
  | regWrite off v =>
    by_cases hs : regAt off = some .status
    · exact .status off v rfl ((regAt_eq_status off).1 hs) (by simp [performAccess, writeReg, hs, writeRegIdle])
    · have hd := (droppable_regWrite off v).2 hs
      by_cases hb : s.busy = true
      · exact .dropped hb hd (by simp [performAccess, writeReg, hb, hs])
      · have hb : s.busy = false := by simpa using hb
        have he : performAccess (.regWrite off v) s = writeRegIdle (regAt off) v s := by
          simp [performAccess, writeReg, hb]
        by_cases hc : regAt off = some .cmd
        · exact .accepted off v hb rfl ((regAt_eq_cmd off).1 hc) (by rw [he, hc]; rfl)
        · rcases writeRegIdle_cases (regAt off) v s hc hs with h | h | h | h | h
          · exact .ignored hb hd (he.trans h)
          · exact .operand v s.window s.lookahead s.matchPos hb hd (he.trans h)
          · exact .operand s.inLen _ s.lookahead s.matchPos hb hd (he.trans h)
          · exact .operand s.inLen s.window _ s.matchPos hb hd (he.trans h)
          · exact .operand s.inLen s.window s.lookahead v hb hd (he.trans h)
  | bufWrite sp x v =>
    by_cases hb : s.busy = true
    · exact .dropped hb rfl (by simp [performAccess, writeBuf, hb])
    · have hb : s.busy = false := by simpa using hb
      cases sp with
      | ibuf =>
        by_cases hx : x.toNat < s.inCap.toNat
        · exact .ibuf x v hb rfl hx (by simp [performAccess, writeBuf, hb, hx])
        · exact .ignored hb rfl (by simp [performAccess, writeBuf, hb, hx])
      | obuf =>
        by_cases hx : x.toNat < s.outCap.toNat
        · exact .obuf x v hb rfl hx (by simp [performAccess, writeBuf, hb, hx])
        · exact .ignored hb rfl (by simp [performAccess, writeBuf, hb, hx])

/-- A read of STATUS returns STATUS, busy or idle (rule R311). -/
theorem performAccess_readStatus (s : State) :
    performAccess (.regRead RegName.status.offset) s = observe (.reg RegName.status.offset s.statusWord) s := by
  have h : regAt RegName.status.offset = some .status := by decide
  simp [performAccess, readReg, h, RegName.isResult, State.regValue]

/-- What a host turn can do: nothing when the host has nothing left, one access with its item struck off, or one round of
`wait`, which strikes the item off when it reads BUSY = 0. -/
theorem hostTurn_cases (s : State) :
    (s.program = [] ∧ hostTurn s = s) ∨
    (∃ a rest, s.program = .access a :: rest ∧ hostTurn s = performAccess a { s with program := rest }) ∨
    (∃ rest r, s.program = .wait :: rest ∧
      hostTurn s = { s with program := if s.busy then .wait :: rest else rest, reads := r :: s.reads }) := by
  unfold hostTurn
  split
  · exact .inl ⟨‹_›, rfl⟩
  · exact .inr (.inl ⟨_, _, ‹_›, rfl⟩)
  · rename_i rest h
    rw [performAccess_readStatus, statusWord_busy]
    exact .inr (.inr ⟨rest, _, h, rfl⟩)

/-- A step is a turn of the agent `State.mover` names. -/
theorem step_cases (s : State) :
    (s.mover = none ∧ step s = .next s) ∨
    (s.mover = some .host ∧ step s = .next (hostTurn (popTurn s))) ∨
    (s.mover = some .reset ∧ step s = .next (resetBlock (popTurn s))) ∨
    (s.mover = some .engine ∧ s.busy = false ∧ step s = .next (popTurn s)) ∨
    (s.mover = some .engine ∧ s.busy = true ∧
      ((∃ i, decode s.cmd = .ok i ∧ step s = exec i (popTurn s)) ∨
       (∃ e, decode s.cmd = .error e ∧ step s = .next (illegalCompletion e (popTurn s))))) := by
  unfold step
  cases h : s.mover with
  | none => exact .inl ⟨rfl, rfl⟩
  | some m =>
    cases m
    · exact .inr (.inl ⟨rfl, rfl⟩)
    · right; right; right
      cases hb : s.busy with
      | false => exact .inl ⟨rfl, rfl, by simp [engineStep, hb]⟩
      | true =>
        refine .inr ⟨rfl, rfl, ?_⟩
        cases hd : decode s.cmd with
        | ok i => exact .inl ⟨i, rfl, by simp [engineStep, hb, hd]⟩
        | error e => exact .inr ⟨e, rfl, by simp [engineStep, hb, hd]⟩
    · exact .inr (.inr (.inl ⟨rfl, rfl⟩))

/-- A command's meaning is the completion with its result. -/
theorem exec_eq_completion (i : Instr) (s : State) :
    exec i s = .next (completion (Instr.isMatch i) (commandResult i s.operands) s) := by
  cases i <;> rfl

end Sys2Proof.Machine
end

