-- ==== Sys2Proof/Laws/Commands.lean ====
section
/-! SUPPORT. From a command's result to what its execution leaves: cited instead of unfolding `exec`, `completion` or `perform`. -/

namespace Sys2Proof.Machine

/-- A result that is an output which fits. -/
theorem exec_out {i : Instr} {s : State} {out : List Byte} (h : commandResult i s.operands = .out out)
    (hl : out.length ≤ s.outCap.toNat) : ∃ t, exec i s = .next t ∧ Succeeded s t out := by
  rw [exec_eq_completion, h]
  exact ⟨_, rfl, completion_out_succeeded _ hl⟩

theorem isMatch_false {i : Instr} (hi : i ≠ .lzMatch) : Instr.isMatch i = false := by
  cases i <;> first | rfl | exact absurd rfl hi

/-- A result that is an output which does not fit. -/
theorem exec_out_overflow {i : Instr} {s : State} {out : List Byte} (hi : i ≠ .lzMatch)
    (h : commandResult i s.operands = .out out) (hl : s.outCap.toNat < out.length) :
    ∃ t, exec i s = .next t ∧ Raised s t 4 0 := by
  rw [exec_eq_completion, h, completion_out_overflow _ hl, isMatch_false hi]
  exact ⟨_, rfl, errorCompletion_raised .outputOverflow 0 s⟩

/-- A result that is an error. -/
theorem exec_err {i : Instr} {s : State} {e : ErrKind} {k : Nat} (hi : i ≠ .lzMatch)
    (h : commandResult i s.operands = .err e k) : ∃ t, exec i s = .next t ∧ Raised s t e.code k := by
  rw [exec_eq_completion, h, isMatch_false hi]
  exact ⟨_, rfl, errorCompletion_raised _ _ _⟩

/-- A command whose result is an output and that shows no error has written that output. -/
theorem succeeded_of_errCode {i : Instr} {s t : State} {out : List Byte} (hi : i ≠ .lzMatch)
    (h : commandResult i s.operands = .out out) (he : exec i s = .next t) (h0 : t.errCode = 0) : Succeeded s t out := by
  by_cases hl : out.length ≤ s.outCap.toNat
  · obtain ⟨t', ht, hs⟩ := exec_out h hl
    rw [he] at ht
    cases ht
    exact hs
  · obtain ⟨t', ht, hr⟩ := exec_out_overflow hi h (by omega)
    rw [he] at ht
    cases ht
    exact absurd (hr.reports.errCode.symm.trans h0) (by decide)

/-- What an output register pair shows is one byte sequence. -/
theorem holdsOutput_unique {t : State} {a b : List Byte} (h1 : HoldsOutput t a) (h2 : HoldsOutput t b) : a = b := by
  have hl : a.length = b.length := h1.1.symm.trans h2.1
  apply List.ext_getElem hl
  intro i ha hb
  have h1' := h1.2 i ha
  have h2' := h2.2 i hb
  simp only [byteAt, List.getD_eq_getElem?_getD, List.getElem?_eq_getElem, ha, hb, Option.getD_some] at h1' h2'
  exact h1'.symm.trans h2'

/-! ### The results of the commands in a state that holds an input -/

section
variable {s : State} {xs : List Byte}

theorem rleEnc_result (h : HoldsInput s xs) : commandResult .rleEnc s.operands = .out (rleEncode xs) := by
  simp only [commandResult, rleEncResult]
  rw [checkLength_of_holds h, operands_of_holds h]

theorem rleDec_result (h : HoldsInput s xs) : commandResult .rleDec s.operands = outOrRaise (rleDecode xs) := by
  simp only [commandResult, rleDecResult]
  rw [checkLength_of_holds h, operands_of_holds h]

theorem hufTree_result (h : HoldsInput s xs) : commandResult .hufTree s.operands = .out (hufTreeOutput xs) := by
  simp only [commandResult, hufTreeResult]
  rw [checkLength_of_holds h, operands_of_holds h]

theorem hufEnc_result (h : HoldsInput s xs) : commandResult .hufEnc s.operands = outOrRaise (hufEncode xs) := by
  simp only [commandResult, hufEncResult]
  rw [checkLength_of_holds h, operands_of_holds h]

theorem hufDec_result (h : HoldsInput s xs) : commandResult .hufDec s.operands = outOrRaise (hufDecode xs) := by
  simp only [commandResult, hufDecResult]
  rw [checkLength_of_holds h, operands_of_holds h]

theorem lzEnc_result (h : HoldsInput s xs) :
    commandResult .lzEnc s.operands = .out (lzEncode xs s.window.toNat s.lookahead.toNat) := by
  simp only [commandResult, lzEncResult]
  rw [checkLength_of_holds h, operands_of_holds h]

theorem lzDec_result (h : HoldsInput s xs) : commandResult .lzDec s.operands = outOrRaise (lzDecode xs) := by
  simp only [commandResult, lzDecResult]
  rw [checkLength_of_holds h, operands_of_holds h]

theorem lzMatch_result (h : HoldsInput s xs) (hp : s.matchPos.toNat < xs.length) :
    commandResult .lzMatch s.operands =
      tokenResult (lzTokenAt xs s.window.toNat s.lookahead.toNat s.matchPos.toNat) := by
  simp only [commandResult, lzMatchResult]
  rw [checkLength_of_holds h, operands_of_holds h, checkPosition, if_neg (by simp; omega)]

end

/-! ### The kinds of result -/

theorem outOrRaise_kind (r : Except (ErrKind × Nat) (List Byte)) :
    (∃ out, outOrRaise r = .out out) ∨ ∃ e k, outOrRaise r = .err e k := by
  cases r with
  | ok b => exact .inl ⟨_, rfl⟩
  | error e => exact .inr ⟨_, _, rfl⟩

theorem checkLength_cases (op : Operands) (r : CmdResult) : checkLength op r = r ∨ checkLength op r = .err .badParameter 0 := by
  unfold checkLength
  split <;> simp

/-- LZ_MATCH answers a match or BadParameter; every other command answers an output or an error. -/
theorem commandResult_kind (i : Instr) (op : Operands) :
    (i ≠ .lzMatch → (∃ out, commandResult i op = .out out) ∨ ∃ e k, commandResult i op = .err e k) ∧
    (i = .lzMatch → (∃ d l c, commandResult i op = .matched d l c) ∨ commandResult i op = .err .badParameter 0) := by
  constructor
  · intro hi
    cases i with
    | lzMatch => exact absurd rfl hi
    | rleEnc | hufTree | lzEnc =>
      simp only [commandResult, rleEncResult, hufTreeResult, lzEncResult]
      rcases checkLength_cases op _ with h | h <;> rw [h]
      · exact .inl ⟨_, rfl⟩
      · exact .inr ⟨_, _, rfl⟩
    | rleDec | hufEnc | hufDec | lzDec =>
      simp only [commandResult, rleDecResult, hufEncResult, hufDecResult, lzDecResult]
      rcases checkLength_cases op _ with h | h <;> rw [h]
      · exact outOrRaise_kind _
      · exact .inr ⟨_, _, rfl⟩
  · rintro rfl
    simp only [commandResult, lzMatchResult, checkPosition, tokenResult]
    rcases checkLength_cases op _ with h | h <;> rw [h]
    · split
      · exact .inr rfl
      · exact .inl ⟨_, _, _, rfl⟩
    · exact .inr rfl

/-- The fields of a match fit their registers. -/
theorem matched_fits {s : State} {d l : Nat} {c : Byte} (h : commandResult .lzMatch s.operands = .matched d l c) :
    d < 65536 ∧ l < 256 := by
  simp only [commandResult, lzMatchResult] at h
  unfold checkLength checkPosition at h
  split at h
  · cases h
  · split at h
    · cases h
    · rename_i h1 h2
      simp only [tokenResult, lzTokenAt] at h
      injection h with h3 h4 h5
      have hlen : s.operands.input.length = s.operands.n := by
        simp only [State.operands] at h1 ⊢
        rw [if_neg h1]
        exact State.length_inputBytes _ _
      have hb := bestMatch_bounds (lzSearch_best s.operands.window s.operands.lookahead
        (xs := s.operands.input) (i := s.operands.pos) (by omega)) (by omega)
      have := s.window.isLt
      have := s.lookahead.isLt
      simp [State.operands] at hb
      subst h3 h4
      simp [State.operands]
      omega

/-! ### The engine's step -/

/-- The operands of rule R141 are what the engine reads, and nothing else. -/
theorem operands_congr {s u : State} (h1 : s.inLen = u.inLen) (h2 : s.window = u.window) (h3 : s.lookahead = u.lookahead)
    (h4 : s.matchPos = u.matchPos) (h5 : s.inCap = u.inCap)
    (h6 : ∀ a, a < s.inLen.toNat → s.ibuf.read a = u.ibuf.read a) : s.operands = u.operands := by
  simp only [State.operands, h1, h2, h3, h4, h5, State.inputBytes]
  congr 1
  split
  · rfl
  · exact List.map_congr_left fun a ha => h6 a (h1 ▸ List.mem_range.1 ha)

/-- The engine's step on a pending command, whatever its word, is the completion with what `perform` answers. -/
theorem engine_completes {s : State} (hb : s.busy = true) (hm : s.mover = some .engine) :
    ∃ m, step s = .next (completion m (perform s.cmd s.operands) (popTurn s)) ∧ (m = true ↔ s.cmd = 0x00000032#32) := by
  rcases step_cases s with ⟨h, -⟩ | ⟨h, -⟩ | ⟨h, -⟩ | ⟨-, h, -⟩ | ⟨-, -, ⟨j, hj, h⟩ | ⟨e, he, h⟩⟩
  · simp_all
  · simp_all
  · simp_all
  · simp_all
  · refine ⟨Instr.isMatch j, ?_, ?_⟩
    · rw [h, exec_eq_completion]
      simp [perform, hj]
    · rw [← decode_isMatch hj]
      simp [Instr.isMatch]
  · refine ⟨false, ?_, ?_⟩
    · rw [h]
      simp only [perform, he]
      rfl
    · simp only [Bool.false_eq_true, false_iff]
      intro hc
      rw [hc] at he
      revert he
      cases e <;> decide

/-- A completion ends BUSY and sets DONE. -/
theorem completion_ends (m : Bool) (r : CmdResult) (s : State) :
    (completion m r s).busy = false ∧ (completion m r s).done = true := by
  rcases completion_cases m r s with ⟨_, _, _, h⟩ | ⟨_, _, _, _, h⟩ | ⟨_, _, h, _⟩ <;> rw [h] <;> exact ⟨rfl, rfl⟩

end Sys2Proof.Machine
end

