-- ==== Sys2Proof/Laws/Huffman.lean ====
section
/-! SUPPORT. The Huffman tree, its code table, and the decoder's trie: what the construction keeps and what the walk finds. -/

namespace Sys2Proof.Machine

/-! ### Paths of a tree -/

theorem HufTree.paths_length_pos (t : HufTree) : 1 ≤ t.paths.length := by
  induction t with
  | leaf => simp [HufTree.paths]
  | internal l r w ihl ihr => simp [HufTree.paths]; omega

/-- A tree over k leaves has depth at most k - 1 (rule R183). -/
theorem HufTree.paths_depth (t : HufTree) : ∀ e ∈ t.paths, e.2.length + 1 ≤ t.paths.length := by
  induction t with
  | leaf => simp [HufTree.paths]
  | internal l r w ihl ihr =>
    intro e he
    have hl := l.paths_length_pos
    have hr := r.paths_length_pos
    simp only [HufTree.paths, List.mem_append, List.mem_map, List.length_append, List.length_map] at he ⊢
    rcases he with ⟨e', he', rfl⟩ | ⟨e', he', rfl⟩
    · have := ihl e' he'
      simp only [List.length_cons]
      omega
    · have := ihr e' he'
      simp only [List.length_cons]
      omega

/-- No path of a tree is a prefix of another (rule R184). -/
theorem HufTree.paths_prefixFree (t : HufTree) : PrefixFree t.paths := by
  induction t with
  | leaf => simp [HufTree.paths, PrefixFree]
  | internal l r w ihl ihr =>
    refine List.pairwise_append.2 ⟨?_, ?_, ?_⟩
    · refine List.pairwise_map.2 (ihl.imp fun h => ?_)
      simpa using h
    · refine List.pairwise_map.2 (ihr.imp fun h => ?_)
      simpa using h
    · intro a ha b hb
      obtain ⟨a', -, rfl⟩ := List.mem_map.1 ha
      obtain ⟨b', -, rfl⟩ := List.mem_map.1 hb
      simp

/-- The symbols at the leaves of a tree. -/
def HufTree.syms (t : HufTree) : List Byte := t.paths.map fun e => e.1

@[simp] theorem HufTree.syms_leaf (b : Byte) (w : Nat) : (HufTree.leaf b w).syms = [b] := rfl

@[simp] theorem HufTree.syms_internal (l r : HufTree) (w : Nat) :
    (HufTree.internal l r w).syms = l.syms ++ r.syms := by
  simp [HufTree.syms, HufTree.paths, Function.comp_def]

/-! ### The construction -/

theorem hufInsert_perm (z : HufEntry) (q : List HufEntry) : (hufInsert z q).Perm (z :: q) := by
  induction q with
  | nil => exact .refl _
  | cons x q ih =>
    simp only [hufInsert]
    split
    · exact .refl _
    · exact (ih.cons x).trans (.swap z x q)

/-- The rounds of rule R182 end in one tree over the leaves they began with. -/
theorem hufCombine_syms (fuel next : Nat) (q : List HufEntry) (h1 : q ≠ []) (h2 : q.length ≤ fuel + 1) :
    ∃ t, hufCombine fuel next q = some t ∧ t.syms.Perm (q.flatMap fun e => e.tree.syms) := by
  induction fuel generalizing next q with
  | zero =>
    match q, h1, h2 with
    | [x], _, _ => exact ⟨x.tree, by simp [hufCombine], by simp⟩
  | succ fuel ih =>
    match q, h1, h2 with
    | [x], _, _ => exact ⟨x.tree, by simp [hufCombine], by simp⟩
    | x :: y :: q, _, h2 =>
      have hp := hufInsert_perm
        { tree := .internal x.tree y.tree (x.tree.weight + y.tree.weight), seq := next } q
      obtain ⟨t, ht, hs⟩ := ih (next + 1)
        (hufInsert { tree := .internal x.tree y.tree (x.tree.weight + y.tree.weight), seq := next } q)
        (by intro e; rw [e] at hp; simpa using hp.length_eq)
        (by have := hp.length_eq; simp at this h2; omega)
      refine ⟨t, by simpa [hufCombine] using ht, hs.trans ((hp.flatMap_right _).trans ?_)⟩
      simp

theorem hufQueue_perm (xs : List Byte) : (hufQueue xs).Perm (hufLeaves xs) := by
  unfold hufQueue
  induction hufLeaves xs with
  | nil => exact .refl _
  | cons z q ih => exact (hufInsert_perm z _).trans (ih.cons z)

theorem hufLeaves_syms (xs : List Byte) : ((hufLeaves xs).flatMap fun e => e.tree.syms) = symbols xs := by
  unfold hufLeaves
  generalize symbols xs = l
  generalize 0 = k
  induction l generalizing k with
  | nil => rfl
  | cons b l ih =>
    have := ih (k + 1)
    simp only [List.zipIdx_cons, List.map_cons, List.flatMap_cons, this]
    rfl

@[simp] theorem length_hufLeaves (xs : List Byte) : (hufLeaves xs).length = (symbols xs).length := by
  simp [hufLeaves]

/-- An input with a symbol has a tree, whose leaves are its symbols. -/
theorem hufTree_syms {xs : List Byte} (h : symbols xs ≠ []) :
    ∃ t, hufTree xs = some t ∧ t.syms.Perm (symbols xs) := by
  have hp := hufQueue_perm xs
  have hlen : (hufQueue xs).length = (symbols xs).length := by simpa using hp.length_eq
  have hpos : 0 < (symbols xs).length := List.length_pos_iff.2 h
  obtain ⟨t, ht, hs⟩ := hufCombine_syms (symbols xs).length (symbols xs).length (hufQueue xs)
    (by intro e; rw [e] at hlen; simp at hlen; omega) (by omega)
  exact ⟨t, ht, hs.trans ((hp.flatMap_right _).trans (by rw [hufLeaves_syms]))⟩

/-! ### The symbols -/

theorem symbols_ascending (xs : List Byte) : (symbols xs).Pairwise fun a b => a.toNat < b.toNat := by
  refine List.Pairwise.filter _ (List.pairwise_map.2 ?_)
  refine List.Pairwise.imp_of_mem (R := (· < ·)) (fun {a b} ha hb hab => ?_) List.pairwise_lt_range
  have ha := List.mem_range.1 ha
  have hb := List.mem_range.1 hb
  simp only [BitVec.toNat_ofNat]
  omega

theorem mem_symbols (xs : List Byte) (b : Byte) : b ∈ symbols xs ↔ b ∈ xs := by
  simp only [symbols, frequency, List.mem_filter, List.mem_map, List.mem_range, decide_eq_true_eq, List.count_pos_iff]
  refine ⟨fun h => h.2, fun h => ⟨⟨b.toNat, b.isLt, by simp⟩, h⟩⟩

theorem length_symbols_le (xs : List Byte) : (symbols xs).length ≤ 256 := by
  have := List.length_filter_le (fun b => decide (0 < frequency xs b)) ((List.range 256).map (BitVec.ofNat 8))
  simpa [symbols] using this

/-! ### Looking up a code -/

theorem CodeTable.code_of_mem {t : CodeTable} {e : Byte × List Bool} (hn : (t.map fun x => x.1).Nodup) (h : e ∈ t) :
    t.code e.1 = e.2 := by
  induction t with
  | nil => cases h
  | cons x t ih =>
    simp only [List.map_cons, List.nodup_cons] at hn
    simp only [CodeTable.code, List.lookup]
    rcases List.mem_cons.1 h with rfl | h
    · simp
    · have hne : e.1 ≠ x.1 := fun he => hn.1 (he ▸ List.mem_map_of_mem h)
      have hb : (e.1 == x.1) = false := by simpa using hne
      rw [hb]
      exact ih hn.2 h

theorem nodup_of_ascending {l : List Byte} (h : l.Pairwise fun a b => a.toNat < b.toNat) : l.Nodup :=
  h.imp fun hab e => by subst e; exact absurd hab (Nat.lt_irrefl _)

theorem ValidTable.nodup {t : CodeTable} (h : ValidTable t) : (t.map fun e => e.1).Nodup :=
  nodup_of_ascending (List.pairwise_map.2 h.ascending)

theorem ValidTable.code {t : CodeTable} (h : ValidTable t) {e : Byte × List Bool} (he : e ∈ t) : t.code e.1 = e.2 :=
  CodeTable.code_of_mem h.nodup he

/-! ### The decoder's trie -/

/-- The node a path leads to. -/
def Trie.follow (t : Trie) (path : List Bool) : Trie := path.foldl Trie.child t

@[simp] theorem Trie.follow_nil (t : Trie) : t.follow [] = t := rfl

@[simp] theorem Trie.follow_cons (t : Trie) (b : Bool) (path : List Bool) :
    t.follow (b :: path) = (t.child b).follow path := rfl

theorem Trie.follow_append (t : Trie) (p q : List Bool) : t.follow (p ++ q) = (t.follow p).follow q := by
  simp [Trie.follow]

@[simp] theorem Trie.follow_absent (path : List Bool) : Trie.absent.follow path = .absent := by
  induction path with
  | nil => rfl
  | cons b path ih => simpa [Trie.child] using ih

/-- The two children of a trie with a code put in below side `b`. -/
theorem Trie.child_insert (t : Trie) (b b' : Bool) (c : List Bool) (s : Byte) :
    (t.insert (b :: c) s).child b' = if b' = b then ((match t with
      | .node _ _ => t.child b
      | _ => t).insert c s) else t.child b' := by
  cases t <;> cases b <;> cases b' <;> simp [Trie.insert, Trie.child]

theorem Trie.insert_cons_node (t : Trie) (b : Bool) (c : List Bool) (s : Byte) :
    ∃ z o, t.insert (b :: c) s = .node z o := by
  cases t <;> cases b <;> simp [Trie.insert]

/-- The inserted code leads to its leaf. -/
theorem Trie.follow_insert_self (t : Trie) (c : List Bool) (s : Byte) : (t.insert c s).follow c = .leaf s := by
  induction c generalizing t with
  | nil => cases t <;> simp [Trie.insert]
  | cons b c ih => rw [Trie.follow_cons, Trie.child_insert, if_pos rfl]; exact ih _

/-- A proper part of the inserted code leads to a node. -/
theorem Trie.follow_insert_prefix (t : Trie) (p c : List Bool) (s : Byte) (h : p <+: c) (hne : p ≠ c) :
    ∃ z o, (t.insert c s).follow p = .node z o := by
  induction p generalizing t c with
  | nil =>
    cases c with
    | nil => exact absurd rfl hne
    | cons b c => exact Trie.insert_cons_node t b c s
  | cons b p ih =>
    cases c with
    | nil => simp at h
    | cons b' c =>
      obtain ⟨rfl, h'⟩ := List.cons_prefix_cons.1 h
      rw [Trie.follow_cons, Trie.child_insert, if_pos rfl]
      exact ih _ c h' fun e => hne (by rw [e])

/-- A path that parts from the inserted code leads where it led before. -/
theorem Trie.follow_insert_other (t : Trie) (p c : List Bool) (s : Byte) (h1 : ¬ p <+: c) (h2 : ¬ c <+: p) :
    (t.insert c s).follow p = t.follow p := by
  induction p generalizing t c with
  | nil => simp at h1
  | cons b p ih =>
    cases c with
    | nil => simp at h2
    | cons b' c =>
      rw [Trie.follow_cons, Trie.child_insert]
      by_cases e : b = b'
      · subst e
        have hp : ¬ p <+: c := fun h => h1 (List.cons_prefix_cons.2 ⟨rfl, h⟩)
        have hc : ¬ c <+: p := fun h => h2 (List.cons_prefix_cons.2 ⟨rfl, h⟩)
        rw [if_pos rfl, ih _ _ hp hc, Trie.follow_cons]
        cases t with
        | node z o => rfl
        | absent => simp [Trie.child]
        | leaf x =>
          cases p with
          | nil => simp at hp
          | cons a p => simp [Trie.child]
      · rw [if_neg e, Trie.follow_cons]

/-- Beyond its leaf the inserted code leads nowhere. -/
theorem Trie.follow_insert_beyond (t : Trie) (c q : List Bool) (s : Byte) (h : q ≠ []) :
    (t.insert c s).follow (c ++ q) = .absent := by
  rw [Trie.follow_append, Trie.follow_insert_self]
  cases q with
  | nil => exact absurd rfl h
  | cons b q => simp [Trie.child]

theorem CodeTable.trie_concat (t : CodeTable) (e : Byte × List Bool) :
    CodeTable.trie (t ++ [e]) = (CodeTable.trie t).insert e.2 e.1 := by
  simp [CodeTable.trie]

/-- Each code of a prefix-free table leads to its symbol's leaf (rule R192). -/
theorem CodeTable.trie_follow_code {t : CodeTable} (hp : PrefixFree t) {e : Byte × List Bool} (he : e ∈ t) :
    t.trie.follow e.2 = .leaf e.1 := by
  induction t using List.reverseRecOn with
  | nil => cases he
  | append_singleton t x ih =>
    obtain ⟨h1, -, h3⟩ := List.pairwise_append.1 hp
    rw [CodeTable.trie_concat]
    rcases List.mem_append.1 he with he | he
    · have := h3 e he x (List.mem_singleton_self x)
      rw [Trie.follow_insert_other _ _ _ _ this.1 this.2, ih h1 he]
    · rw [List.mem_singleton.1 he, Trie.follow_insert_self]

/-- A proper part of a code of a prefix-free table leads to a node (rule R192). -/
theorem CodeTable.trie_follow_prefix {t : CodeTable} (hp : PrefixFree t) {p : List Bool}
    (h : ∃ e ∈ t, p <+: e.2 ∧ p ≠ e.2) : ∃ z o, t.trie.follow p = .node z o := by
  induction t using List.reverseRecOn with
  | nil => obtain ⟨e, he, -⟩ := h; cases he
  | append_singleton t x ih =>
    obtain ⟨h1, -, h3⟩ := List.pairwise_append.1 hp
    rw [CodeTable.trie_concat]
    by_cases hx : p <+: x.2 ∧ p ≠ x.2
    · exact Trie.follow_insert_prefix _ _ _ _ hx.1 hx.2
    · obtain ⟨e, he, hpe, hne⟩ := h
      have het : e ∈ t := by
        rcases List.mem_append.1 he with he | he
        · exact he
        · rw [List.mem_singleton.1 he] at hpe hne
          exact absurd ⟨hpe, hne⟩ hx
      have hex := h3 e het x (List.mem_singleton_self x)
      have hxp : ¬ x.2 <+: p := fun hc => hex.2 (hc.trans hpe)
      have hpx : ¬ p <+: x.2 := fun hc => by
        by_cases e' : p = x.2
        · exact hxp (e' ▸ List.prefix_rfl)
        · exact hx ⟨hc, e'⟩
      rw [Trie.follow_insert_other _ _ _ _ hpx hxp]
      exact ih h1 ⟨e, het, hpe, hne⟩

/-- A path that is no part of a code, and goes beyond none, leads to a missing child (rule R192). -/
theorem CodeTable.trie_follow_missing {t : CodeTable} {p : List Bool} (h : ∀ e ∈ t, ¬ p <+: e.2)
    (h' : ∀ e ∈ t, ¬ e.2 <+: p) (hne : p ≠ []) : t.trie.follow p = .absent := by
  induction t using List.reverseRecOn with
  | nil => cases p with
    | nil => exact absurd rfl hne
    | cons b p => simp [CodeTable.trie, Trie.child]
  | append_singleton t x ih =>
    have hx : x ∈ t ++ [x] := List.mem_append_right _ (List.mem_singleton_self x)
    rw [CodeTable.trie_concat, Trie.follow_insert_other _ _ _ _ (h x hx) (h' x hx)]
    exact ih (fun e he => h e (List.mem_append_left _ he)) fun e he => h' e (List.mem_append_left _ he)

/-! ### The walk -/

/-- The position after a path: none at the root. -/
def hufPos (root : Trie) (path : List Bool) : Option Trie := if path = [] then none else some (root.follow path)

@[simp] theorem hufPos_getD (root : Trie) (path : List Bool) : (hufPos root path).getD root = root.follow path := by
  by_cases h : path = [] <;> simp [hufPos, h]

/-- One bit of the walk, from the position after `path`. -/
theorem hufWalk_bit (root : Trie) (payload t : Nat) (path : List Bool) (b : Bool) (bs : List Bool) :
    hufWalk root payload (hufPos root path) t (b :: bs) =
      match root.follow (path ++ [b]) with
      | .absent => malformed (payload + t / 8)
      | .leaf s => (hufWalk root payload none (t + 1) bs).map fun out => s :: out
      | .node _ _ => hufWalk root payload (hufPos root (path ++ [b])) (t + 1) bs := by
  have hf : root.follow (path ++ [b]) = (root.follow path).child b := by rw [Trie.follow_append]; rfl
  have hw : ∀ pos : Option Trie, hufWalk root payload pos t (b :: bs) =
      match (pos.getD root).child b with
      | .absent => malformed (payload + t / 8)
      | .leaf s => (hufWalk root payload none (t + 1) bs).map fun out => s :: out
      | .node z o => hufWalk root payload (some (.node z o)) (t + 1) bs := by
    intro pos
    cases pos <;> rfl
  rw [hw, hufPos_getD, ← hf]
  cases h : root.follow (path ++ [b]) with
  | absent => rfl
  | leaf s => rfl
  | node z o => simp [hufPos, h]

/-- The walk goes along a proper part of a code. -/
theorem hufWalk_path {tab : CodeTable} (hp : PrefixFree tab) (payload : Nat) (bs : List Bool) (rest path : List Bool) (t : Nat)
    (h : ∃ e ∈ tab, path ++ rest <+: e.2 ∧ path ++ rest ≠ e.2) :
    hufWalk tab.trie payload (hufPos tab.trie path) t (rest ++ bs) =
      hufWalk tab.trie payload (hufPos tab.trie (path ++ rest)) (t + rest.length) bs := by
  induction rest generalizing path t with
  | nil => simp
  | cons b rest ih =>
    have happ : path ++ b :: rest = path ++ [b] ++ rest := by simp
    have hpre : ∃ e ∈ tab, path ++ [b] <+: e.2 ∧ path ++ [b] ≠ e.2 := by
      obtain ⟨e, he, h1, h2⟩ := h
      rw [happ] at h1 h2
      refine ⟨e, he, (List.prefix_append _ _).trans h1, fun hc => h2 ?_⟩
      have hl := h1.length_le
      have hc' := congrArg List.length hc
      have hr : rest = [] := List.length_eq_zero_iff.1 (by rw [List.length_append] at hl; omega)
      rw [hr, List.append_nil, hc]
    obtain ⟨z, o, hn⟩ := CodeTable.trie_follow_prefix hp hpre
    rw [List.cons_append, hufWalk_bit, hn]
    simp only
    rw [ih (path ++ [b]) (t + 1) (by rw [← happ]; exact h), ← happ]
    simp [Nat.add_assoc, Nat.add_comm 1]

/-- The walk over a whole code emits its symbol and is back at the root. -/
theorem hufWalk_code {tab : CodeTable} (hp : PrefixFree tab) {e : Byte × List Bool} (he : e ∈ tab) (hne : e.2 ≠ [])
    (payload t : Nat) (bs : List Bool) :
    hufWalk tab.trie payload none t (e.2 ++ bs) =
      (hufWalk tab.trie payload none (t + e.2.length) bs).map fun out => e.1 :: out := by
  have hs : e.2 = e.2.dropLast ++ [e.2.getLast hne] := (List.dropLast_append_getLast hne).symm
  have h0 : hufPos tab.trie [] = none := rfl
  have hw := hufWalk_path hp payload (e.2.getLast hne :: bs) e.2.dropLast [] t ⟨e, he, by
    simpa using List.dropLast_prefix e.2, fun hc => by
      have := congrArg List.length hc
      have hl := List.length_pos_iff.2 hne
      simp at this
      omega⟩
  rw [h0] at hw
  have hl : e.2.length = e.2.dropLast.length + 1 := by
    have := congrArg List.length hs
    simpa using this
  rw [show e.2 ++ bs = e.2.dropLast ++ e.2.getLast hne :: bs by
    conv_lhs => rw [hs]
    simp, hw, List.nil_append, hufWalk_bit, ← hs, CodeTable.trie_follow_code hp he]
  simp only
  rw [hl, Nat.add_assoc]

/-- The walk over the codes of a message emits the message. -/
theorem hufWalk_message {tab : CodeTable} (hv : ValidTable tab) (payload : Nat) (msg : List Byte)
    (hm : ∀ b ∈ msg, ∃ e ∈ tab, e.1 = b) (t : Nat) (bs : List Bool) :
    hufWalk tab.trie payload none t (msg.flatMap tab.code ++ bs) =
      (hufWalk tab.trie payload none (t + (msg.flatMap tab.code).length) bs).map fun out => msg ++ out := by
  induction msg generalizing t with
  | nil =>
    simp
    cases hufWalk tab.trie payload none t bs <;> rfl
  | cons b msg ih =>
    obtain ⟨e, he, rfl⟩ := hm b List.mem_cons_self
    have hc := hv.code he
    have hne : e.2 ≠ [] := by
      have := (hv.lengths e he).1
      intro h
      rw [h] at this
      simp at this
    rw [List.flatMap_cons, hc, List.append_assoc, hufWalk_code hv.prefixFree he hne,
      ih (fun x hx => hm x (List.mem_cons_of_mem _ hx))]
    rw [List.length_append, ← Nat.add_assoc]
    cases hufWalk tab.trie payload none (t + e.2.length + (msg.flatMap tab.code).length) bs <;> rfl

/-! ### The walk, backwards -/

/-- In a prefix-free table a code that is a prefix of a code is that code. -/
theorem PrefixFree.eq_of_prefix {tab : CodeTable} (hp : PrefixFree tab) {x e : Byte × List Bool} (hx : x ∈ tab) (he : e ∈ tab)
    (h : x.2 <+: e.2) : x = e := by
  by_contra hne
  have sym : Std.Symm fun (a b : Byte × List Bool) => ¬ a.2 <+: b.2 ∧ ¬ b.2 <+: a.2 := ⟨fun a b h => h.symm⟩
  exact (List.Pairwise.forall hp hx he hne).1 h

/-- Whatever the walk accepts from the position after a proper part `path` of a code is the rest of the codes of its output. -/
theorem hufWalk_sound {tab : CodeTable} (hv : ValidTable tab) (payload : Nat) (bits path : List Bool) (t : Nat)
    (out : List Byte) (hpath : path = [] ∨ ∃ e ∈ tab, path <+: e.2 ∧ path ≠ e.2)
    (h : hufWalk tab.trie payload (hufPos tab.trie path) t bits = .ok out) :
    (∀ b ∈ out, ∃ e ∈ tab, e.1 = b) ∧ path ++ bits = out.flatMap tab.code := by
  induction bits generalizing path t out with
  | nil =>
    by_cases hp : path = []
    · subst hp
      have : out = [] := by
        rw [show hufPos tab.trie [] = none from rfl, hufWalk] at h
        cases h
        rfl
      subst this
      simp
    · rw [hufPos, if_neg hp, hufWalk] at h
      cases h
  | cons b bits ih =>
    rw [hufWalk_bit] at h
    by_cases hcode : ∃ e ∈ tab, e.2 = path ++ [b]
    · obtain ⟨e, he, hc⟩ := hcode
      rw [← hc, CodeTable.trie_follow_code hv.prefixFree he] at h
      simp only at h
      cases hw : hufWalk tab.trie payload none (t + 1) bits with
      | error x =>
        rw [hw] at h
        cases h
      | ok out' =>
        rw [hw] at h
        cases h
        obtain ⟨h1, h2⟩ := ih [] (t + 1) out' (.inl rfl) hw
        refine ⟨fun x hx => ?_, ?_⟩
        · rcases List.mem_cons.1 hx with rfl | hx
          · exact ⟨e, he, rfl⟩
          · exact h1 x hx
        · rw [List.flatMap_cons, hv.code he, ← h2, hc]
          simp
    · by_cases hpre : ∃ e ∈ tab, path ++ [b] <+: e.2 ∧ path ++ [b] ≠ e.2
      · obtain ⟨z, o, hn⟩ := CodeTable.trie_follow_prefix hv.prefixFree hpre
        rw [hn] at h
        obtain ⟨h1, h2⟩ := ih (path ++ [b]) (t + 1) out (.inr hpre) h
        exact ⟨h1, by rw [← h2]; simp⟩
      · rw [CodeTable.trie_follow_missing (fun e he hc => ?_) (fun e he hc => ?_) (by simp)] at h
        · cases h
        · exact hpre ⟨e, he, hc, fun heq => hcode ⟨e, he, heq.symm⟩⟩
        · rcases List.prefix_concat_iff.1 hc with heq | hle
          · exact hcode ⟨e, he, heq⟩
          · rcases hpath with rfl | ⟨x, hx, hxp, hxne⟩
            · have := (hv.lengths e he).1
              have := hle.length_le
              rw [List.length_nil] at this
              omega
            · have := hv.prefixFree.eq_of_prefix he hx (hle.trans hxp)
              subst this
              exact hxne (hxp.eq_of_length (le_antisymm hxp.length_le hle.length_le))

/-! ### The order of the keys -/

/-- Putting an entry with a new sequence number into an ordered structure keeps the order of the keys. -/
theorem hufInsert_sorted (z : HufEntry) (q : List HufEntry)
    (hs : q.Pairwise KeyBefore)
    (hz : ∀ e ∈ q, e.seq ≠ z.seq) :
    (hufInsert z q).Pairwise KeyBefore := by
  induction q with
  | nil => simp [hufInsert]
  | cons x q ih =>
    obtain ⟨h1, h2⟩ := List.pairwise_cons.1 hs
    simp only [hufInsert]
    split
    · rename_i hb
      simp only [HufEntry.before, Bool.or_eq_true, Bool.and_eq_true, decide_eq_true_eq, beq_iff_eq] at hb
      refine List.pairwise_cons.2 ⟨fun e he => ?_, hs⟩
      rcases List.mem_cons.1 he with rfl | he
      · exact hb
      · have := h1 e he; omega
    · rename_i hb
      simp only [HufEntry.before, Bool.or_eq_true, Bool.and_eq_true, decide_eq_true_eq, beq_iff_eq] at hb
      refine List.pairwise_cons.2 ⟨fun e he => ?_, ih h2 fun e he => hz e (List.mem_cons_of_mem _ he)⟩
      rcases List.mem_cons.1 ((hufInsert_perm z q).mem_iff.1 he) with rfl | he
      · have := hz x List.mem_cons_self; omega
      · exact h1 e he

end Sys2Proof.Machine
end

