-- ==== Sys2Proof/Laws/HuffmanHeader.lean ====
section
/-! SUPPORT. The decoder's reading of a header: one valid entry, and a run of valid entries. -/

namespace Sys2Proof.Machine

theorem length_hufEntryBytes (e : Byte × List Bool) : (hufEntryBytes e).length = 2 + ceil8 e.2.length := by
  simp [hufEntryBytes]
  omega

/-- What the decoder sees at an entry: SYM, LEN, and the bytes after them. -/
theorem entry_at (pre : List Byte) (sym len : Byte) (more : List Byte) :
    byteAt (pre ++ sym :: len :: more) pre.length = sym ∧ byteAt (pre ++ sym :: len :: more) (pre.length + 1) = len ∧
      (pre ++ sym :: len :: more).drop (pre.length + 2) = more := by
  have h0 := byteAt_append_right pre (sym :: len :: more) 0
  have h1 := byteAt_append_right pre (sym :: len :: more) 1
  refine ⟨by simpa using h0, by simpa using h1, ?_⟩
  rw [List.drop_append, List.drop_of_length_le (by omega)]
  simp

theorem take_unpackBits_packBits (c : List Bool) (rest : List Byte) :
    (unpackBits ((packBits c ++ rest).take (ceil8 c.length))).take c.length = c ∧
      ((unpackBits ((packBits c ++ rest).take (ceil8 c.length))).drop c.length).any id = false := by
  have h : (packBits c ++ rest).take (ceil8 c.length) = packBits c := by
    rw [List.take_append_of_le_length (by simp), List.take_of_length_le (by simp)]
  rw [h, unpackBits_packBits]
  refine ⟨by simp, ?_⟩
  rw [List.drop_left, List.any_eq_false]
  intro x hx
  simp [(List.mem_replicate.1 hx).2]

/-- The last symbol of an ascending table is not below the others. -/
theorem getLast?_any_le {t : CodeTable} (h : t.Pairwise fun a b => a.1.toNat < b.1.toNat) (s : Byte) :
    (t.getLast?.any fun e => decide (s.toNat ≤ e.1.toNat)) = true ↔ ∃ e ∈ t, s.toNat ≤ e.1.toNat := by
  cases t using List.reverseRecOn with
  | nil => simp
  | append_singleton t x =>
    obtain ⟨-, -, h3⟩ := List.pairwise_append.1 h
    simp only [List.getLast?_append, List.getLast?_singleton, Option.some_or, Option.any_some, decide_eq_true_eq]
    constructor
    · exact fun hs => ⟨x, by simp, hs⟩
    · rintro ⟨e, he, hs⟩
      rcases List.mem_append.1 he with he | he
      · have := h3 e he x (List.mem_singleton_self x)
        omega
      · rw [List.mem_singleton.1 he] at hs
        exact hs

theorem clashes_iff (t : CodeTable) (c : List Bool) : t.clashes c = true ↔ ∃ e ∈ t, e.2 <+: c ∨ c <+: e.2 := by
  simp [CodeTable.clashes]

/-- A valid entry after the entries of `done` is read and put after them. -/
theorem hufReadEntries_entry (pre more : List Byte) (k : Nat) (done : CodeTable) (e : Byte × List Bool)
    (ha : (done ++ [e]).Pairwise fun a b => a.1.toNat < b.1.toNat) (hl : 1 ≤ e.2.length ∧ e.2.length ≤ 255)
    (hp : PrefixFree (done ++ [e])) :
    hufReadEntries (pre ++ (hufEntryBytes e ++ more)) (k + 1) pre.length done =
      hufReadEntries (pre ++ (hufEntryBytes e ++ more)) k (pre.length + (hufEntryBytes e).length) (done ++ [e]) := by
  have hin : hufEntryBytes e ++ more = e.1 :: BitVec.ofNat 8 e.2.length :: (packBits e.2 ++ more) := by
    simp [hufEntryBytes]
  obtain ⟨h0, h1, h2⟩ := entry_at pre e.1 (BitVec.ofNat 8 e.2.length) (packBits e.2 ++ more)
  obtain ⟨ht, hd⟩ := take_unpackBits_packBits e.2 more
  have hn : (BitVec.ofNat 8 e.2.length).toNat = e.2.length := by simp [BitVec.toNat_ofNat]; omega
  obtain ⟨ha1, -, ha3⟩ := List.pairwise_append.1 ha
  obtain ⟨-, -, hp3⟩ := List.pairwise_append.1 hp
  have hlast : ¬ (done.getLast?.any fun x => decide (e.1.toNat ≤ x.1.toNat)) = true := by
    rw [getLast?_any_le ha1]
    rintro ⟨x, hx, hle⟩
    have := ha3 x hx e (List.mem_singleton_self e)
    omega
  have hclash : ¬ done.clashes e.2 = true := by
    rw [clashes_iff]
    rintro ⟨x, hx, hc⟩
    have := hp3 x hx e (List.mem_singleton_self e)
    exact hc.elim this.1 this.2
  have hlen := length_hufEntryBytes e
  rw [hin]
  rw [hufReadEntries]
  simp only [h0, h1, h2, hn, ht, hd]
  rw [if_neg (by simp), if_neg hlast, if_neg (by omega), if_neg (by simp; omega), if_neg (by simp), if_neg hclash, hlen,
    Nat.add_assoc]

/-- A run of valid entries is read whole; `k` entries remain to be read after it. -/
theorem hufReadEntries_valid (rest : CodeTable) (pre tail : List Byte) (k : Nat) (done : CodeTable)
    (ha : (done ++ rest).Pairwise fun a b => a.1.toNat < b.1.toNat)
    (hl : ∀ e ∈ rest, 1 ≤ e.2.length ∧ e.2.length ≤ 255) (hp : PrefixFree (done ++ rest)) :
    hufReadEntries (pre ++ (rest.flatMap hufEntryBytes ++ tail)) (rest.length + k) pre.length done =
      hufReadEntries (pre ++ (rest.flatMap hufEntryBytes ++ tail)) k
        (pre.length + (rest.flatMap hufEntryBytes).length) (done ++ rest) := by
  induction rest generalizing pre done with
  | nil => simp
  | cons e rest ih =>
    have happ : done ++ e :: rest = done ++ [e] ++ rest := by simp
    rw [happ] at ha hp ⊢
    have h1 := hufReadEntries_entry pre (rest.flatMap hufEntryBytes ++ tail) (rest.length + k) done e
      (List.pairwise_append.1 ha).1 (hl e List.mem_cons_self) (List.pairwise_append.1 hp).1
    have h2 := ih (pre ++ hufEntryBytes e) (done ++ [e]) ha (fun x hx => hl x (List.mem_cons_of_mem _ hx)) hp
    rw [show (e :: rest).length + k = rest.length + k + 1 by simp; omega, List.flatMap_cons, List.append_assoc, h1]
    rw [List.append_assoc, List.length_append] at h2
    rw [h2, List.length_append, Nat.add_assoc]

/-- The header of a valid table is read whole. -/
theorem hufReadEntries_header {tab : CodeTable} (hv : ValidTable tab) (tail : List Byte) :
    hufReadEntries (headerBytes tab ++ tail) tab.length 2 [] = .ok (tab, (headerBytes tab).length) := by
  have h := hufReadEntries_valid tab (be16 tab.length) tail 0 [] hv.ascending hv.lengths hv.prefixFree
  simp only [Nat.add_zero, List.nil_append, length_be16] at h
  simp only [headerBytes, List.append_assoc, List.length_append, length_be16]
  rw [h, hufReadEntries]

theorem rd16_headerBytes {tab : CodeTable} (hv : ValidTable tab) (tail : List Byte) :
    rd16 (headerBytes tab ++ tail) 0 = tab.length := by
  simp only [headerBytes, List.append_assoc]
  exact rd16_be16 (by have := hv.count.2; omega) _

theorem two_lt_length_headerBytes {tab : CodeTable} (hv : ValidTable tab) : 2 < (headerBytes tab).length := by
  have h1 := hv.count.1
  cases tab with
  | nil => simp at h1
  | cons e tab =>
    have := length_hufEntryBytes e
    simp [headerBytes]
    omega

/-- The decoder on a valid header and whatever follows it. -/
theorem hufDecode_header {tab : CodeTable} (hv : ValidTable tab) (tail : List Byte) :
    hufDecode (headerBytes tab ++ tail) =
      hufDecodePayload (headerBytes tab ++ tail) tab (headerBytes tab).length := by
  have h2 := two_lt_length_headerBytes hv
  have hc := hv.count
  unfold hufDecode
  rw [if_neg (by rw [List.length_append]; omega), if_neg (by rw [List.length_append]; omega)]
  simp only [rd16_headerBytes hv, hufReadEntries_header hv]
  rw [if_neg (by omega)]

/-- What the decoder reads as entries are the bytes of entries: the table it answers keeps the rules of rule R191. -/
theorem hufReadEntries_sound (input : List Byte) (k p : Nat) (done tab : CodeTable) (q : Nat)
    (h : hufReadEntries input k p done = .ok (tab, q)) (hp : p ≤ input.length)
    (ha : done.Pairwise fun a b => a.1.toNat < b.1.toNat) (hl : ∀ e ∈ done, 1 ≤ e.2.length ∧ e.2.length ≤ 255)
    (hf : PrefixFree done) :
    ∃ rest, tab = done ++ rest ∧ rest.length = k ∧ (tab.Pairwise fun a b => a.1.toNat < b.1.toNat) ∧
      (∀ e ∈ tab, 1 ≤ e.2.length ∧ e.2.length ≤ 255) ∧ PrefixFree tab ∧ q ≤ input.length ∧
      input.take q = input.take p ++ rest.flatMap hufEntryBytes := by
  induction k generalizing p done with
  | zero =>
    rw [hufReadEntries] at h
    cases h
    exact ⟨[], by simp, rfl, ha, hl, hf, hp, by simp⟩
  | succ k ih =>
    rw [hufReadEntries] at h
    split at h
    · cases h
    rename_i h1
    simp only at h
    split at h
    · cases h
    rename_i h2
    split at h
    · cases h
    rename_i h3
    split at h
    · cases h
    rename_i h4
    split at h
    · cases h
    rename_i h5
    split at h
    · cases h
    rename_i h6
    generalize hs : byteAt input p = sym at *
    generalize hlen : byteAt input (p + 1) = len at *
    generalize hraw : (input.drop (p + 2)).take (ceil8 len.toNat) = raw at *
    have hrawl : raw.length = ceil8 len.toNat := by rw [← hraw]; simp; omega
    have hlt := len.isLt
    have hcl : ((unpackBits raw).take len.toNat).length = len.toNat := by
      rw [List.length_take, length_unpackBits, hrawl]
      simp only [ceil8]
      omega
    have hpack : packBits ((unpackBits raw).take len.toNat) = raw := by
      refine packBits_take_unpackBits hrawl.symm ?_
      have := replicate_of_any_false (l := (unpackBits raw).drop len.toNat) (by simpa using h5)
      rwa [List.length_drop, length_unpackBits] at this
    have ha' : (done ++ [(sym, (unpackBits raw).take len.toNat)]).Pairwise fun a b => a.1.toNat < b.1.toNat := by
      refine List.pairwise_append.2 ⟨ha, by simp, fun a had b hb => ?_⟩
      rw [List.mem_singleton.1 hb]
      by_contra hc
      exact h2 ((getLast?_any_le ha sym).2 ⟨a, had, by simpa using hc⟩)
    have hf' : PrefixFree (done ++ [(sym, (unpackBits raw).take len.toNat)]) := by
      refine List.pairwise_append.2 ⟨hf, by simp, fun a had b hb => ?_⟩
      rw [List.mem_singleton.1 hb]
      exact ⟨fun hc => h6 ((clashes_iff _ _).2 ⟨a, had, .inl hc⟩), fun hc => h6 ((clashes_iff _ _).2 ⟨a, had, .inr hc⟩)⟩
    obtain ⟨rest, e1, e2, e3, e4, e5, e6, e7⟩ := ih (p + 2 + ceil8 len.toNat) _ h (by omega) ha'
      (by
        intro e he
        rcases List.mem_append.1 he with he | he
        · exact hl e he
        · rw [List.mem_singleton.1 he, hcl]
          omega) hf'
    refine ⟨(sym, (unpackBits raw).take len.toNat) :: rest, by rw [e1]; simp, by simp [e2], e3, e4, e5, e6, ?_⟩
    rw [e7, List.flatMap_cons, ← List.append_assoc]
    congr 1
    have hb : hufEntryBytes (sym, (unpackBits raw).take len.toNat) = [sym, len] ++ raw := by
      simp only [hufEntryBytes, hcl, hpack]
      simp
    have ht : input.take (p + 2 + ceil8 len.toNat) = input.take p ++ (input.drop p).take 2 ++ raw := by
      rw [List.take_add, List.take_add, hraw]
    have h2' : (input.drop p).take 2 = [sym, len] := by
      rw [← hs, ← hlen, byteAt_eq_getElem (by omega), byteAt_eq_getElem (by omega), List.drop_eq_getElem_cons (by omega),
        List.drop_eq_getElem_cons (by omega)]
      rfl
    rw [ht, h2', hb, List.append_assoc]

/-- The decoder on a valid header, an NBITS and as many payload bytes as it says. -/
theorem hufDecode_payload {tab : CodeTable} (hv : ValidTable tab) (nb : Nat) (hnb : nb < 4294967296) (payload : List Byte)
    (hp : payload.length = ceil8 nb) :
    hufDecode (headerBytes tab ++ be32 nb ++ payload) = if nb % 8 ≠ 0 ∧ ((unpackBits payload).drop nb).any id then
      malformed ((headerBytes tab).length + 4 + ceil8 nb - 1)
    else hufWalk tab.trie ((headerBytes tab).length + 4) none 0 ((unpackBits payload).take nb) := by
  rw [List.append_assoc, hufDecode_header hv]
  unfold hufDecodePayload
  have hl : (headerBytes tab ++ (be32 nb ++ payload)).length = (headerBytes tab).length + 4 + payload.length := by simp; omega
  have hr : rd32 (headerBytes tab ++ (be32 nb ++ payload)) (headerBytes tab).length = nb := by rw [rd32_append_right, rd32_be32 hnb]
  have hd : (headerBytes tab ++ (be32 nb ++ payload)).drop ((headerBytes tab).length + 4) = payload := by
    rw [← List.append_assoc, List.drop_append_of_le_length (by simp), List.drop_of_length_le (by simp), List.nil_append]
  simp only [hr, hl, hd]
  rw [if_neg (by omega), if_neg (by omega), if_neg (by omega)]

/-- The decoder after some valid entries and with more to read. -/
theorem hufDecode_entries (good : CodeTable) (hg : good = [] ∨ ValidTable good) (k : Nat) (hk : good.length < k)
    (hk2 : k ≤ 256) (tail : List Byte) :
    hufDecode (be16 k ++ good.flatMap hufEntryBytes ++ tail) =
      match hufReadEntries (be16 k ++ good.flatMap hufEntryBytes ++ tail) (k - good.length)
        (2 + (good.flatMap hufEntryBytes).length) good with
      | .error e => .error e
      | .ok (table, q) => hufDecodePayload (be16 k ++ good.flatMap hufEntryBytes ++ tail) table q := by
  unfold hufDecode
  rw [if_neg (by simp), if_neg (by simp; omega)]
  have hr : rd16 (be16 k ++ good.flatMap hufEntryBytes ++ tail) 0 = k := by rw [List.append_assoc]; exact rd16_be16 (by omega) _
  simp only [hr]
  rw [if_neg (by omega)]
  have ha : good.Pairwise fun a b => a.1.toNat < b.1.toNat := by rcases hg with rfl | h; exact .nil; exact h.ascending
  have hl : ∀ e ∈ good, 1 ≤ e.2.length ∧ e.2.length ≤ 255 := by rcases hg with rfl | h; simp; exact h.lengths
  have hp : PrefixFree good := by rcases hg with rfl | h; exact .nil; exact h.prefixFree
  have := hufReadEntries_valid good (be16 k) tail (k - good.length) [] ha hl hp
  rw [show good.length + (k - good.length) = k by omega, length_be16, List.nil_append, ← List.append_assoc] at this
  rw [this]
  all_goals
    generalize hufReadEntries (be16 k ++ good.flatMap hufEntryBytes ++ tail) (k - good.length)
      (2 + (good.flatMap hufEntryBytes).length) good = r
    cases r <;> rfl

/-- A payload whose padding bits are all 0 is the packing of its first `nb` bits. -/
theorem packBits_of_clean_padding {nb : Nat} {payload : List Byte} (hp : payload.length = ceil8 nb) (h : ¬ (nb % 8 ≠ 0 ∧ ((unpackBits payload).drop nb).any id = true)) :
   packBits ((unpackBits payload).take nb) = payload := by
  refine packBits_take_unpackBits hp.symm ?_
  have hl : ((unpackBits payload).drop nb).length = 8 * payload.length - nb := by rw [List.length_drop, length_unpackBits]
  by_cases h8 : nb % 8 = 0
  · have : ((unpackBits payload).drop nb) = [] := List.length_eq_zero_iff.1 (by rw [hl, hp]; simp [ceil8]; omega)
    rw [this] at hl ⊢; rw [← hl]; rfl
  · have := replicate_of_any_false (l := (unpackBits payload).drop nb) (by simpa [h8] using h)
    rwa [hl] at this

/-- The first two bytes are the big-endian form of what `rd16` reads there. -/
theorem take_two_eq_be16 {xs : List Byte} (h : ¬ xs.length < 2) : xs.take 2 = be16 (rd16 xs 0) := by
  match xs, h with
  | a :: b :: l, _ =>
    have ha := a.isLt
    have hb := b.isLt
    simp only [be16, rd16, List.take_succ_cons, List.take_zero, List.cons.injEq, and_true]
    constructor <;> apply BitVec.eq_of_toNat_eq <;> simp [BitVec.toNat_ofNat] <;> omega
  | [a], h => simp at h
  | [], h => simp at h

/-- Four bytes are the big-endian form of what `rd32` reads there. -/
theorem take_four_eq_be32 {xs : List Byte} {q : Nat} (h : q + 4 ≤ xs.length) : be32 (rd32 xs q) = (xs.drop q).take 4 := by
  have hx : xs = xs.take q ++ xs.drop q := (List.take_append_drop _ _).symm
  have hq : (xs.take q).length = q := by simp; omega
  have hr : rd32 xs q = rd32 (xs.drop q) 0 := by
    have := rd32_append_right (xs.take q) (xs.drop q)
    rwa [List.take_append_drop, hq] at this
  rw [hr]
  have hl : 4 ≤ (xs.drop q).length := by simp; omega
  match xs.drop q, hl with
  | a :: b :: c :: d :: l, _ =>
    have ha := a.isLt
    have hb := b.isLt
    have hc := c.isLt
    have hd := d.isLt
    simp only [be32, rd32, rd16, byteAt_cons_zero, List.take_succ_cons, List.take_zero, List.cons.injEq, and_true,
      byteAt_cons_succ, Nat.zero_add]
    refine ⟨?_, ?_, ?_, ?_⟩ <;> apply BitVec.eq_of_toNat_eq <;> simp [BitVec.toNat_ofNat] <;> omega

end Sys2Proof.Machine
end

