-- ==== Sys2Proof/Laws/HuffmanTable.lean ====
section
/-! SUPPORT. The code table of an input: its symbols, and where its codes come from. -/

namespace Sys2Proof.Machine

theorem CodeTable.mem_ascending {t : CodeTable} {syms : List Byte} {e : Byte × List Bool} :
    e ∈ CodeTable.ascending t syms ↔ e.1 ∈ syms ∧ e.2 = t.code e.1 := by
  simp only [CodeTable.ascending, List.mem_map]
  constructor
  · rintro ⟨b, hb, rfl⟩
    exact ⟨hb, rfl⟩
  · rintro ⟨h1, h2⟩
    exact ⟨e.1, h1, by rw [← h2]⟩

/-- With two symbols or more the table is read off a tree whose leaves are the symbols. -/
theorem hufCodeTable_two {xs : List Byte} (h : 2 ≤ (symbols xs).length) :
    ∃ t, hufTree xs = some t ∧ t.syms.Perm (symbols xs) ∧
      hufCodeTable xs = CodeTable.ascending t.paths (symbols xs) := by
  obtain ⟨t, ht, hs⟩ := hufTree_syms (xs := xs) (by intro e; rw [e] at h; simp at h)
  refine ⟨t, ht, hs, ?_⟩
  unfold hufCodeTable
  split
  · rename_i e
    rw [e] at h
    simp at h
  · rename_i e
    rw [e] at h
    simp at h
  · rw [ht]

/-- With fewer symbols it is empty or the one-bit code 0. -/
theorem hufCodeTable_small {xs : List Byte} (h : ¬ 2 ≤ (symbols xs).length) :
    (symbols xs = [] ∧ hufCodeTable xs = []) ∨ ∃ s, symbols xs = [s] ∧ hufCodeTable xs = [(s, [false])] := by
  unfold hufCodeTable
  match hs : symbols xs with
  | [] => exact .inl ⟨rfl, rfl⟩
  | [s] => exact .inr ⟨s, rfl, rfl⟩
  | _ :: _ :: _ =>
    rw [hs] at h
    simp at h

/-- The symbols of the table are the symbols of the input. -/
theorem hufCodeTable_syms (xs : List Byte) : ((hufCodeTable xs).map fun e => e.1) = symbols xs := by
  by_cases h : 2 ≤ (symbols xs).length
  · obtain ⟨t, -, -, e⟩ := hufCodeTable_two h
    rw [e]
    simp [CodeTable.ascending, Function.comp_def]
  · rcases hufCodeTable_small h with ⟨h1, h2⟩ | ⟨s, h1, h2⟩ <;> rw [h1, h2] <;> rfl

/-- With two symbols or more the entries of the table are paths of one tree over the symbols. -/
theorem hufCodeTable_paths {xs : List Byte} (h : 2 ≤ (symbols xs).length) :
    ∃ t : HufTree, t.syms.Perm (symbols xs) ∧ ∀ e ∈ hufCodeTable xs, e ∈ t.paths := by
  obtain ⟨t, -, hp, e⟩ := hufCodeTable_two h
  refine ⟨t, hp, fun x hx => ?_⟩
  have hn : t.syms.Nodup := hp.nodup_iff.2 (nodup_of_ascending (symbols_ascending xs))
  rw [e, CodeTable.mem_ascending] at hx
  obtain ⟨y, hy, hyx⟩ := List.mem_map.1 (hp.mem_iff.2 hx.1)
  have hy2 : CodeTable.code t.paths y.1 = y.2 := CodeTable.code_of_mem hn hy
  have : x = y := Prod.ext hyx.symm (by rw [hx.2, ← hyx, hy2])
  rw [this]
  exact hy

/-- In a tree of two leaves or more every leaf is below the root. -/
theorem HufTree.paths_pos (t : HufTree) (h : 2 ≤ t.paths.length) : ∀ e ∈ t.paths, 1 ≤ e.2.length := by
  cases t with
  | leaf => simp [HufTree.paths] at h
  | internal l r w =>
    intro e he
    simp only [HufTree.paths, List.mem_append, List.mem_map] at he
    rcases he with ⟨_, _, rfl⟩ | ⟨_, _, rfl⟩ <;> simp

/-! ### The loop of rule R182 as a relation -/

theorem KeyBefore.asymm {x y : HufEntry} (h : KeyBefore x y) : ¬ KeyBefore y x := by
  unfold KeyBefore at h ⊢
  omega

/-- The order in which the nodes are listed plays no part. -/
theorem JoinsTo.perm {next : Nat} {q q' : List HufEntry} {t : HufTree} (h : JoinsTo next q t) (hp : q.Perm q') :
    JoinsTo next q' t := by
  cases h with
  | root _ x => rw [List.perm_singleton.1 hp.symm]; exact .root _ _
  | round nodes least second more => exact .round (hp.symm.trans nodes) least second more

/-- In one set of nodes there is one node of least key. -/
theorem least_unique {x x' : HufEntry} {q q' : List HufEntry} (hp : (x :: q).Perm (x' :: q'))
    (h : ∀ e ∈ q, KeyBefore x e) (h' : ∀ e ∈ q', KeyBefore x' e) : x = x' ∧ q.Perm q' := by
  have hx : x = x' := by
    rcases List.mem_cons.1 (hp.mem_iff.1 List.mem_cons_self) with e | hm
    · exact e
    · rcases List.mem_cons.1 (hp.mem_iff.2 List.mem_cons_self) with e | hm'
      · exact e.symm
      · exact absurd (h' x hm) (KeyBefore.asymm (h x' hm'))
  subst hx
  exact ⟨rfl, hp.cons_inv⟩

/-- The loop ends in one tree (rule R196). -/
theorem JoinsTo.unique {next : Nat} {q q' : List HufEntry} {t u : HufTree} (h : JoinsTo next q t) (h' : JoinsTo next q' u)
    (hp : q.Perm q') : t = u := by
  induction h generalizing q' with
  | root next x =>
    cases h' with
    | root _ x' => rw [List.singleton_perm_singleton.1 hp]
    | round nodes' _ _ _ => exact absurd (hp.trans nodes').length_eq (by simp)
  | round nodes least second more ih =>
    cases h' with
    | root _ x' => exact absurd (hp.symm.trans nodes).length_eq (by simp)
    | round nodes' least' second' more' =>
      obtain ⟨rfl, hq⟩ := least_unique (nodes.symm.trans (hp.trans nodes')) least least'
      obtain ⟨rfl, hr⟩ := least_unique hq second second'
      exact ih more' (hr.cons _)

/-- The rounds of `hufCombine` on an ordered structure are those of the relation. -/
theorem joinsTo_of_hufCombine {fuel next : Nat} {q : List HufEntry} {t : HufTree} (hs : q.Pairwise KeyBefore)
    (hn : ∀ e ∈ q, e.seq < next) (h : hufCombine fuel next q = some t) : JoinsTo next q t := by
  induction fuel generalizing next q with
  | zero =>
    match q, h with
    | [x], h => cases h; exact .root _ _
  | succ fuel ih =>
    match q, hs, hn, h with
    | [x], _, _, h => cases h; exact .root _ _
    | x :: y :: q, hs, hn, h =>
      obtain ⟨h1, h2⟩ := List.pairwise_cons.1 hs
      obtain ⟨h3, h4⟩ := List.pairwise_cons.1 h2
      have hp := hufInsert_perm { tree := .internal x.tree y.tree (x.tree.weight + y.tree.weight), seq := next } q
      have hq : ∀ e ∈ q, e.seq < next := fun e he => hn e (by simp [he])
      refine .round (.refl _) h1 h3 (JoinsTo.perm (ih (hufInsert_sorted _ q h4 fun e he => (hq e he).ne) ?_ h) hp)
      intro e he
      rcases List.mem_cons.1 (hp.mem_iff.1 he) with rfl | he
      · exact Nat.lt_succ_self _
      · exact Nat.lt_succ_of_lt (hq e he)

/-! ### The start of the loop -/

theorem hufLeaves_eq_mapIdx (xs : List Byte) :
    hufLeaves xs = (symbols xs).mapIdx fun k b => { tree := .leaf b (xs.count b), seq := k } := by
  simp [hufLeaves, List.mapIdx_eq_zipIdx_map, frequency]

/-- The symbols are the only ascending list of the byte values that occur. -/
theorem symbols_unique {xs syms : List Byte} (h1 : syms.Pairwise fun a b => a.toNat < b.toNat)
    (h2 : ∀ b, b ∈ syms ↔ b ∈ xs) : syms = symbols xs := by
  have hp : syms.Perm (symbols xs) :=
    (List.perm_ext_iff_of_nodup (nodup_of_ascending h1) (nodup_of_ascending (symbols_ascending xs))).2
      fun b => by rw [h2, mem_symbols]
  exact hp.eq_of_pairwise (fun a b _ _ h h' => absurd h (Nat.lt_asymm h')) h1 (symbols_ascending xs)

/-- The start of rule R182 is `hufLeaves`, and nothing else. -/
theorem startLeaves_iff (xs : List Byte) (leaves : List HufEntry) : StartLeaves xs leaves ↔ leaves = hufLeaves xs := by
  rw [hufLeaves_eq_mapIdx]
  constructor
  · rintro ⟨syms, h1, h2, rfl⟩
    rw [symbols_unique h1 h2]
  · rintro rfl
    exact ⟨_, symbols_ascending xs, mem_symbols xs, rfl⟩

theorem hufLeaves_seq_lt (xs : List Byte) : ∀ e ∈ hufLeaves xs, e.seq < (symbols xs).length := by
  rw [hufLeaves_eq_mapIdx]
  intro e he
  obtain ⟨i, hi, rfl⟩ := List.mem_mapIdx.1 he
  exact hi

theorem hufLeaves_seq_nodup (xs : List Byte) : ((hufLeaves xs).map fun e => e.seq).Nodup := by
  have h : ((hufLeaves xs).map fun e => e.seq) = List.range (symbols xs).length := by
    rw [hufLeaves_eq_mapIdx]
    apply List.ext_getElem <;> simp
  rw [h]
  exact List.nodup_range

/-- The structure is ordered by the keys. -/
theorem hufQueue_sorted (xs : List Byte) : (hufQueue xs).Pairwise KeyBefore := by
  have hn := hufLeaves_seq_nodup xs
  unfold hufQueue
  generalize hufLeaves xs = l at hn
  induction l with
  | nil => exact .nil
  | cons z l ih =>
    obtain ⟨h1, h2⟩ := List.nodup_cons.1 hn
    refine hufInsert_sorted z _ (ih h2) fun e he h => h1 ?_
    have hp : (l.foldr hufInsert []).Perm l := by
      clear ih h1 h2 hn he
      induction l with
      | nil => exact .refl _
      | cons y l ih => exact (hufInsert_perm y _).trans (ih.cons y)
    exact List.mem_map.2 ⟨e, hp.mem_iff.1 he, h⟩

/-- What `hufTree` answers is the tree of rule R182, and there is no other. -/
theorem isHuffmanTree_iff {xs : List Byte} {t : HufTree} (h : hufTree xs = some t) (u : HufTree) :
    IsHuffmanTree xs u ↔ u = t := by
  have hj : JoinsTo (symbols xs).length (hufLeaves xs) t :=
    (joinsTo_of_hufCombine (hufQueue_sorted xs) (fun e he => hufLeaves_seq_lt xs e ((hufQueue_perm xs).mem_iff.1 he)) h).perm
      (hufQueue_perm xs)
  constructor
  · rintro ⟨leaves, hl, hu⟩
    rw [startLeaves_iff] at hl
    subst hl
    rw [length_hufLeaves] at hu
    exact hu.unique hj (.refl _)
  · rintro rfl
    exact ⟨_, (startLeaves_iff xs _).2 rfl, by rwa [length_hufLeaves]⟩

/-! ### The paths as a relation -/

/-- The list of paths is the relation of rule R183. -/
theorem HufTree.mem_paths (t : HufTree) (b : Byte) (p : List Bool) : (b, p) ∈ t.paths ↔ PathTo t p b := by
  induction t generalizing p with
  | leaf c w =>
    constructor
    · intro h
      cases List.mem_singleton.1 h
      exact .here _ _
    · rintro ⟨⟩
      exact List.mem_singleton.2 rfl
  | internal l r w ihl ihr =>
    simp only [HufTree.paths, List.mem_append, List.mem_map, Prod.mk.injEq, Prod.exists]
    constructor
    · rintro (⟨c, q, h, rfl, rfl⟩ | ⟨c, q, h, rfl, rfl⟩)
      · exact .left ((ihl q).1 h)
      · exact .right ((ihr q).1 h)
    · rintro (_ | h | h)
      · exact .inl ⟨_, _, (ihl _).2 h, rfl, rfl⟩
      · exact .inr ⟨_, _, (ihr _).2 h, rfl, rfl⟩

/-- With two symbols or more the table is the paths of the tree, reordered. -/
theorem hufCodeTable_perm_paths {xs : List Byte} {t : HufTree} (h : 2 ≤ (symbols xs).length) (ht : hufTree xs = some t) :
    (hufCodeTable xs).Perm t.paths := by
  obtain ⟨u, hu, hp, e⟩ := hufCodeTable_two h
  rw [ht] at hu
  cases hu
  have hn : t.syms.Nodup := hp.nodup_iff.2 (nodup_of_ascending (symbols_ascending xs))
  have hs : t.paths = t.syms.map fun b => (b, CodeTable.code t.paths b) := by
    rw [HufTree.syms, List.map_map]
    refine (List.map_id' _).symm.trans (List.map_congr_left fun x hx => Prod.ext rfl ?_)
    exact (CodeTable.code_of_mem hn hx).symm
  rw [e, CodeTable.ascending]
  conv_rhs => rw [hs]
  exact (hp.symm.map _)

end Sys2Proof.Machine
end

