-- ==== Sys2Proof/Laws/PerInstr.lean ====
section
/-! SUPPORT. What holds of every command as syntax, one lemma per constructor: its fields pass the three checks of rule R93,
and its word decodes to it and to nothing else. -/

namespace Sys2Proof.Laws.WordRoundTrip

open Sys2Proof

/-- A command's fields are well formed, its word has those fields, and the decoder reads the command back. -/
def Statement (i : Instr) : Prop :=
  i.fields.wellFormed = true ∧ CommandWord.ofWord (encode i) = i.fields ∧ decode (encode i) = .ok i ∧
    decodeTableWord 32 (encode i).toNat = some i

theorem rleEnc : Statement .rleEnc := by unfold Statement; decide

theorem rleDec : Statement .rleDec := by unfold Statement; decide

theorem hufEnc : Statement .hufEnc := by unfold Statement; decide

theorem hufDec : Statement .hufDec := by unfold Statement; decide

theorem hufTree : Statement .hufTree := by unfold Statement; decide

theorem lzEnc : Statement .lzEnc := by unfold Statement; decide

theorem lzDec : Statement .lzDec := by unfold Statement; decide

theorem lzMatch : Statement .lzMatch := by unfold Statement; decide

end Sys2Proof.Laws.WordRoundTrip
end

