-- ==== Sys2Proof/Laws/Rle.lean ====
section
/-! SUPPORT. The RLE scan and the RLE container: what `rleRuns`, `rleSplit` and `rleDecodePairs` compute. -/

namespace Sys2Proof.Machine

/-- A run of `r` bytes before bytes that do not begin with its value is one run of the scan. -/
theorem rleRuns_replicate_append (v : Byte) (r : Nat) (vs : List Byte)
    (h : ∀ u k rest, rleRuns vs = (u, k) :: rest → v ≠ u) :
    rleRuns (List.replicate (r + 1) v ++ vs) = (v, r + 1) :: rleRuns vs := by
  induction r with
  | zero =>
    show rleRuns (v :: vs) = _
    rw [rleRuns]
    split
    · rename_i e
      rw [e]
    · rename_i u k rest e
      rw [if_neg (h u k rest e), e]
  | succ r ih =>
    have hc : List.replicate (r + 1 + 1) v ++ vs = v :: (List.replicate (r + 1) v ++ vs) := rfl
    rw [hc, rleRuns, ih]
    simp

/-- The runs of the scan have length at least 1. -/
theorem rleRuns_pos (xs : List Byte) : ∀ r ∈ rleRuns xs, 1 ≤ r.2 := by
  induction xs with
  | nil => simp [rleRuns]
  | cons v vs ih =>
    rw [rleRuns]
    split
    · simp
    · rename_i u k rest e
      rw [e] at ih
      split
      · intro r hr
        rcases List.mem_cons.1 hr with rfl | hr
        · exact Nat.le_add_left _ _
        · exact ih r (List.mem_cons_of_mem _ hr)
      · intro r hr
        rcases List.mem_cons.1 hr with rfl | hr
        · exact Nat.le_refl _
        · exact ih r hr

/-- Neighbouring runs of the scan have different values. -/
theorem rleRuns_chain (xs : List Byte) : (rleRuns xs).IsChain fun a b => a.1 ≠ b.1 := by
  induction xs with
  | nil => simp [rleRuns]
  | cons v vs ih =>
    rw [rleRuns]
    split
    · simp
    · rename_i u k rest e
      rw [e] at ih
      split
      · cases rest with
        | nil => simp
        | cons c rest => simpa [List.isChain_cons_cons] using ih
      · rename_i hne
        exact List.isChain_cons_cons.2 ⟨hne, ih⟩

/-- The runs of the scan stand for the input. -/
theorem rleRuns_bytes (xs : List Byte) : ((rleRuns xs).flatMap fun r => List.replicate r.2 r.1) = xs := by
  induction xs with
  | nil => rfl
  | cons v vs ih =>
    rw [rleRuns]
    split
    · rename_i e
      rw [e] at ih
      simp at ih
      simp [ih]
    · rename_i u k rest e
      rw [e] at ih
      split
      · rename_i hv
        subst hv
        simpa [List.replicate_succ] using ih
      · simpa using ih

/-- The counts of a split run: full ones, then the rest. -/
theorem rleSplit_counts (v : Byte) (r : Nat) :
    rleSplit v r = (List.replicate ((r - 1) / 255) 255 ++ [(r - 1) % 255 + 1]).flatMap fun c => [v, BitVec.ofNat 8 c] := by
  have h : ∀ q, (List.replicate q [v, (255 : Byte)]).flatten =
      (List.replicate q 255).flatMap fun c => [v, BitVec.ofNat 8 c] := by
    intro q
    induction q with
    | zero => rfl
    | succ q ih =>
      simp only [List.replicate_succ, List.flatten_cons, List.flatMap_cons, ih]
      rfl
  unfold rleSplit
  rw [h]
  simp

/-- The counts of a split run of length at least 1 are a full split of it. -/
theorem fullSplit_counts {r : Nat} (h : 1 ≤ r) :
    FullSplit (List.replicate ((r - 1) / 255) 255 ++ [(r - 1) % 255 + 1]) ∧
      (List.replicate ((r - 1) / 255) 255 ++ [(r - 1) % 255 + 1]).sum = r := by
  refine ⟨⟨by simp, fun c hc => ?_, fun c hc => ?_⟩, ?_⟩
  · rw [List.dropLast_concat] at hc
    exact (List.mem_replicate.1 hc).2
  · rcases List.mem_append.1 hc with hc | hc
    · have := (List.mem_replicate.1 hc).2
      omega
    · have := List.mem_singleton.1 hc
      omega
  · simp
    omega

/-- A full split is determined by its sum. -/
theorem fullSplit_unique {cs : List Nat} (h : FullSplit cs) :
    cs = List.replicate ((cs.sum - 1) / 255) 255 ++ [(cs.sum - 1) % 255 + 1] := by
  obtain ⟨hne, hinit, hall⟩ := h
  have hd : cs.dropLast = List.replicate cs.dropLast.length 255 := List.eq_replicate_iff.2 ⟨rfl, hinit⟩
  have hs : cs = List.replicate cs.dropLast.length 255 ++ [cs.getLast hne] := by
    rw [← hd, List.dropLast_append_getLast hne]
  have hl := hall _ (List.getLast_mem hne)
  generalize cs.dropLast.length = q at hs
  generalize cs.getLast hne = r at hs hl
  subst hs
  have h1 : ((List.replicate q 255 ++ [r]).sum - 1) / 255 = q := by simp; omega
  have h2 : ((List.replicate q 255 ++ [r]).sum - 1) % 255 + 1 = r := by simp; omega
  rw [h1, h2]

/-- A container of pairs with counts 1 to 255 decodes pair by pair, from whatever offset. -/
theorem rleDecodePairs_pairBytes (pairs : List (Byte × Nat)) (h : ∀ p ∈ pairs, 1 ≤ p.2 ∧ p.2 ≤ 255) (p : Nat) :
    rleDecodePairs p (pairBytes pairs) = .ok (pairs.flatMap fun q => List.replicate q.2 q.1) := by
  induction pairs generalizing p with
  | nil => rfl
  | cons q pairs ih =>
    obtain ⟨v, c⟩ := q
    have hc := h (v, c) List.mem_cons_self
    have hn : (BitVec.ofNat 8 c).toNat = c := by simp [BitVec.toNat_ofNat]; omega
    have h0 : BitVec.ofNat 8 c ≠ 0 := by
      intro e
      have := congrArg BitVec.toNat e
      rw [hn] at this
      simp at this
      omega
    have hb : pairBytes ((v, c) :: pairs) = v :: BitVec.ofNat 8 c :: pairBytes pairs := rfl
    rw [hb, rleDecodePairs, if_neg h0, ih (fun q hq => h q (List.mem_cons_of_mem _ hq)), hn]
    rfl

@[simp] theorem length_pairBytes (pairs : List (Byte × Nat)) : (pairBytes pairs).length = 2 * pairs.length := by
  induction pairs with
  | nil => rfl
  | cons q pairs ih =>
    have hb : pairBytes (q :: pairs) = q.1 :: BitVec.ofNat 8 q.2 :: pairBytes pairs := rfl
    simp [hb, ih]
    omega

/-! ### Maximal runs -/

/-- The scan of the bytes of maximal runs finds the runs. -/
theorem rleRuns_runBytes {runs : List (Byte × List Nat)} (h : MaximalRuns runs) :
    rleRuns (runBytes runs) = runs.map fun r => (r.1, r.2.sum) := by
  obtain ⟨h1, h2⟩ := h
  induction runs with
  | nil => rfl
  | cons r runs ih =>
    have ih := ih (fun x hx => h1 x (List.mem_cons_of_mem _ hx)) (List.IsChain.tail h2)
    have hr := h1 r List.mem_cons_self
    have hpos : 1 ≤ r.2.sum := by
      obtain ⟨hne, -, hall⟩ := hr
      have := hall _ (List.getLast_mem hne)
      have := List.single_le_sum (l := r.2) (by simp) _ (List.getLast_mem hne)
      omega
    have hb : runBytes (r :: runs) = List.replicate (r.2.sum - 1 + 1) r.1 ++ runBytes runs := by
      rw [Nat.sub_add_cancel hpos]
      rfl
    rw [hb, rleRuns_replicate_append, ih, Nat.sub_add_cancel hpos]
    · rfl
    · intro u k rest e
      rw [ih] at e
      cases runs with
      | nil => cases e
      | cons q runs =>
        simp only [List.map_cons, List.cons.injEq, Prod.mk.injEq] at e
        rw [← e.1.1]
        exact (List.isChain_cons_cons.1 h2).1

/-- Every input is the bytes of maximal runs, with no more pairs than bytes. -/
theorem exists_maximalRuns (xs : List Byte) :
    ∃ runs, MaximalRuns runs ∧ xs = runBytes runs ∧ (runPairs runs).length ≤ xs.length := by
  refine ⟨(rleRuns xs).map fun r => (r.1, List.replicate ((r.2 - 1) / 255) 255 ++ [(r.2 - 1) % 255 + 1]), ⟨?_, ?_⟩, ?_, ?_⟩
  · intro r hr
    obtain ⟨q, hq, rfl⟩ := List.mem_map.1 hr
    exact (fullSplit_counts (rleRuns_pos xs q hq)).1
  · rw [List.isChain_map]
    exact rleRuns_chain xs
  · conv_lhs => rw [← rleRuns_bytes xs]
    simp only [runBytes, List.flatMap_map]
    apply List.flatMap_congr
    intro r hr
    rw [(fullSplit_counts (rleRuns_pos xs r hr)).2]
  · conv_rhs => rw [← rleRuns_bytes xs]
    simp only [runPairs, List.flatMap_map, List.length_flatMap, List.length_map, List.length_replicate]
    apply List.sum_le_sum
    intro r hr
    have := rleRuns_pos xs r hr
    simp
    omega

end Sys2Proof.Machine
end

