-- ==== Sys2Proof/Laws/Run.lean ====
section
/-! SUPPORT. Runs of several steps, and who moves. -/

namespace Sys2Proof.Machine

theorem coreRun_succ (M : Host.Core) (n : Nat) (s t : M.State) (h : M.step s = .next t) : M.run (n + 1) s = M.run n t := by
  simp [Host.Core.run, h]

theorem coreRun_add (M : Host.Core) (n m : Nat) (s t : M.State) (h : M.run n s = .next t) :
    M.run (n + m) s = M.run m t := by
  induction n generalizing s with
  | zero =>
    simp [Host.Core.run] at h
    simp [h]
  | succ n ih =>
    rw [show n + 1 + m = n + m + 1 by omega]
    cases hs : M.step s with
    | next u =>
      rw [coreRun_succ _ _ _ _ hs] at h
      rw [coreRun_succ _ _ _ _ hs]
      exact ih u h
    | fault r => simp [Host.Core.run, hs] at h
    | refused r => simp [Host.Core.run, hs] at h

/-- One step, then the rest of the run. -/
theorem run_succ (n : Nat) {s t : State} (h : step s = .next t) :
    Host.Core.run core (n + 1) s = Host.Core.run core n t := coreRun_succ core n s t h

/-- A first part of a run, then the rest. -/
theorem run_add {n : Nat} (m : Nat) {s t : State} (h : Host.Core.run core n s = .next t) :
    Host.Core.run core (n + m) s = Host.Core.run core m t := coreRun_add core n m s t h

theorem mover_nil {s : State} (h : s.turns = []) :
    s.mover = if s.busy then some .engine else if s.program.isEmpty then none else some .host := by
  simp [State.mover, h]

theorem mover_cons {s : State} {x : Turn} {l : List Turn} (h : s.turns = x :: l) : s.mover = some x := by
  simp [State.mover, h]

/-- An access takes no turn and no item of the program, and does not end BUSY. -/
theorem performAccess_keeps (a : HostAccess) (s : State) :
    (performAccess a s).turns = s.turns ∧ (performAccess a s).program = s.program ∧
      (s.busy = true → (performAccess a s).busy = true) := by
  cases performAccess_effect a s with
  | read r d le _ eq => rw [eq]; exact ⟨rfl, rfl, id⟩
  | dropped _ _ eq => rw [eq]; exact ⟨rfl, rfl, id⟩
  | status off v _ _ eq => rw [eq]; exact ⟨rfl, rfl, id⟩
  | accepted off w _ _ _ eq => rw [eq]; exact ⟨rfl, rfl, fun _ => rfl⟩
  | ignored _ _ eq => rw [eq]; exact ⟨rfl, rfl, id⟩
  | operand il wi la mp _ _ eq => rw [eq]; exact ⟨rfl, rfl, id⟩
  | ibuf x v _ _ _ eq => rw [eq]; exact ⟨rfl, rfl, id⟩
  | obuf x v _ _ _ eq => rw [eq]; exact ⟨rfl, rfl, id⟩

/-- A host turn does not change the order of turns, and does not end BUSY. -/
theorem hostTurn_keeps (s : State) :
    (hostTurn s).turns = s.turns ∧ (s.busy = true → (hostTurn s).busy = true) := by
  rcases hostTurn_cases s with ⟨-, h⟩ | ⟨a, rest, -, h⟩ | ⟨rest, r, -, h⟩ <;> rw [h]
  · exact ⟨rfl, id⟩
  · have := performAccess_keeps a { s with program := rest }
    exact ⟨this.1, this.2.2⟩
  · exact ⟨rfl, id⟩

/-- A host turn while BUSY changes at most DONE, WBUSY, the number of the next draw and what is the host's (rules R71, R310). -/
theorem hostTurn_whileBusy {s : State} (hb : s.busy = true) : ∃ (w : Bool) (d : Nat) (p : List HostStep) (r : List HostRead) (n : Bool),
    hostTurn s = { s with wbusy := w, draws := d, program := p, reads := r, done := n } := by
  rcases hostTurn_cases s with ⟨-, h⟩ | ⟨a, rest, -, h⟩ | ⟨rest, r, -, h⟩ <;> rw [h]
  · exact ⟨_, _, _, _, _, rfl⟩
  · cases performAccess_effect a { s with program := rest } with
    | read r d _ _ eq => rw [eq]; exact ⟨_, _, _, _, _, rfl⟩
    | dropped _ _ eq => rw [eq]; exact ⟨_, _, _, _, _, rfl⟩
    | status off v _ _ eq => rw [eq]; exact ⟨_, _, _, _, _, rfl⟩
    | accepted off w idle _ _ _ => simp [hb] at idle
    | ignored idle _ _ => simp [hb] at idle
    | operand il wi la mp idle _ _ => simp [hb] at idle
    | ibuf x v idle _ _ _ => simp [hb] at idle
    | obuf x v idle _ _ _ => simp [hb] at idle
  · exact ⟨_, _, _, _, _, rfl⟩

/-- An idle block whose host has an access to do performs it, whatever turns without a reset are given: each turn before the
host's is struck off and does nothing. -/
theorem host_reaches {s : State} {a : HostAccess} {rest : List HostStep} (hb : s.busy = false) (hr : .reset ∉ s.turns)
    (hp : s.program = .access a :: rest) :
    ∃ k l, 1 ≤ k ∧ k + l.length ≤ s.turns.length + 1 ∧ .reset ∉ l ∧
      Host.Core.run core k s = .next (performAccess a { s with program := rest, turns := l }) := by
  suffices h : ∀ (l : List Turn) (s : State), s.turns = l → s.busy = false → .reset ∉ s.turns →
      s.program = .access a :: rest → ∃ k l', 1 ≤ k ∧ k + l'.length ≤ l.length + 1 ∧ .reset ∉ l' ∧
        Host.Core.run core k s = .next (performAccess a { s with program := rest, turns := l' }) from h _ s rfl hb hr hp
  clear hb hr hp s
  intro l
  induction l with
  | nil =>
    intro s hl hb hr hp
    have hm : s.mover = some .host := by rw [mover_nil hl, hb, hp]; rfl
    refine ⟨1, [], le_rfl, by simp, by simp, (run_succ 0 (t := _) ?_).trans rfl⟩
    unfold step
    simp [hm, hostTurn, popTurn, hp, hl]
  | cons x l ih =>
    intro s hl hb hr hp
    have hm := mover_cons hl
    rw [hl] at hr
    cases x with
    | reset => simp at hr
    | host =>
      refine ⟨1, l, le_rfl, by simp [Nat.add_comm], by simpa using hr, (run_succ 0 (t := _) ?_).trans rfl⟩
      unfold step
      simp [hm, hostTurn, popTurn, hp, hl]
    | engine =>
      have hs : step s = .next (popTurn s) := by
        unfold step
        simp [hm, engineStep, popTurn, hb]
      obtain ⟨k, l', h1, h2, h3, h4⟩ := ih (popTurn s) (by simp [popTurn, hl]) hb (by simpa [popTurn, hl] using hr) hp
      exact ⟨k + 1, l', by omega, by simp; omega, h3, (run_succ k hs).trans h4⟩

end Sys2Proof.Machine
end

