-- ==== Sys2Proof/Tests/Slice0.lean ====
section
/-! SUPPORT. Tests of the model's own against the spec's examples, and a witness for the hypotheses of each statement. -/

namespace Sys2Proof.Machine

/-! ### Builders -/

/-- A block of small capacities whose IBUF begins with `xs`, IN_LEN its length. -/
def holding (xs : List Byte) : State :=
  { State.resetFor 64 64 with inLen := BitVec.ofNat 32 xs.length, ibuf := { cells := Memory.ofBytes 0 xs, draw := 0 } }

/-- The same with the engine's completion of the word `w` pending. -/
def pending (w : Word) (xs : List Byte) : State := acceptCommand w (holding xs)

/-- The same with OUT_CAP = `n`. -/
def withOutCap (n : Word) (s : State) : State := { s with outCap := n }

/-- A table of two symbols, A = 0 and B = 10: not complete (vectors HD-24, HD-25). -/
def tableAB : CodeTable := [(0x41, [false]), (0x42, [true, false])]

/-- What a host finds after a step: ERRCODE, ERRINFO and the output. -/
def shown : Host.Outcome State Fault Refusal → Option (Nat × Nat × List Byte)
  | .next t => some (t.errCode.toNat, t.errInfo.toNat, (List.range t.outLen.toNat).map t.obuf.read)
  | .fault _ => none
  | .refused _ => none

/-- What a host finds in the MATCH registers after a step: ERRCODE, MATCH_DIST, MATCH_LEN, MATCH_LIT. -/
def shownMatch : Host.Outcome State Fault Refusal → Option (Nat × Nat × Nat × Nat)
  | .next t => some (t.errCode.toNat, t.matchDist.toNat, t.matchLen.toNat, t.matchLit.toNat)
  | .fault _ => none
  | .refused _ => none

/-! ### Well-formedness: one ill-formed word per check of rule R93 -/

theorem test_reservedClear_refuses : CommandWord.wellFormed { rsv := 1, alg := 1, fn := 0 } = false := by decide

theorem test_algNamed_refuses : CommandWord.wellFormed { rsv := 0, alg := 4, fn := 0 } = false := by decide

theorem test_fnDefined_refuses : CommandWord.wellFormed { rsv := 0, alg := 1, fn := 2 } = false := by decide

/-! ### Decoding: the words of rule R92, written out bit by bit as RSV, ALG, FN of rule R90 -/

theorem test_decode_rleEnc : decode 0b000000000000000000000000_0001_0000#32 = .ok .rleEnc := by decide

theorem test_decode_rleDec : decode 0b000000000000000000000000_0001_0001#32 = .ok .rleDec := by decide

theorem test_decode_hufEnc : decode 0b000000000000000000000000_0010_0000#32 = .ok .hufEnc := by decide

theorem test_decode_hufDec : decode 0b000000000000000000000000_0010_0001#32 = .ok .hufDec := by decide

theorem test_decode_hufTree : decode 0b000000000000000000000000_0010_0010#32 = .ok .hufTree := by decide

theorem test_decode_lzEnc : decode 0b000000000000000000000000_0011_0000#32 = .ok .lzEnc := by decide

theorem test_decode_lzDec : decode 0b000000000000000000000000_0011_0001#32 = .ok .lzDec := by decide

theorem test_decode_lzMatch : decode 0b000000000000000000000000_0011_0010#32 = .ok .lzMatch := by decide

/-- Vectors D-1, D-3, D-9 and D-13. -/
theorem test_decode_rejections :
    decode 0x00000000#32 = .error .unknownAlgorithm ∧ decode 0x00000013#32 = .error .undefinedFunction ∧
    decode 0x00000040#32 = .error .unknownAlgorithm ∧ decode 0x80000010#32 = .error .reservedBits := by decide

/-! ### Instructions: vectors of spec/95_test_vectors.md -/

/-- Vector RE-3. -/
theorem test_rleEnc_runs :
    shown (exec .rleEnc (holding [0x41, 0x41, 0x41, 0x42, 0x42, 0x43])) =
      some (0, 0, [0x41, 3, 0x42, 2, 0x43, 1]) := by decide

/-- Vector O-1. -/
theorem test_rleEnc_overflow :
    shown (exec .rleEnc (withOutCap 5 (holding [0x41, 0x42, 0x43]))) = some (4, 0, []) := by decide

/-- Vector RD-3. -/
theorem test_rleDec_adjacent :
    shown (exec .rleDec (holding [0x41, 3, 0x41, 2])) = some (0, 0, [0x41, 0x41, 0x41, 0x41, 0x41]) := by decide

/-- Vector RD-8: the odd length first. -/
theorem test_rleDec_odd_first :
    shown (exec .rleDec (holding [0x41, 2, 0x42, 0, 0x43])) = some (2, 4, []) := by decide

/-- Vector H-11. -/
theorem test_hufEnc_tree :
    shown (exec .hufEnc (holding [0x41, 0x41, 0x41, 0x42, 0x42, 0x43])) =
      some (0, 0, [0, 3, 0x41, 1, 0, 0x42, 2, 0xC0, 0x43, 2, 0x80, 0, 0, 0, 9, 0x1F, 0]) := by decide +kernel

/-- Vector H-3: a single symbol. -/
theorem test_hufEnc_single :
    shown (exec .hufEnc (holding [0x41, 0x41, 0x41, 0x41])) = some (0, 0, [0, 1, 0x41, 1, 0, 0, 0, 0, 4, 0]) := by
  decide +kernel

/-- Vector HD-7. -/
theorem test_hufDec_roundTrip :
    shown (exec .hufDec (holding [0, 3, 0x41, 1, 0, 0x42, 2, 0xC0, 0x43, 2, 0x80, 0, 0, 0, 9, 0x1F, 0])) =
      some (0, 0, [0x41, 0x41, 0x41, 0x42, 0x42, 0x43]) := by decide +kernel

/-- Vector HD-25: the walk reaches a missing child. -/
theorem test_hufDec_missing :
    shown (exec .hufDec (holding [0, 2, 0x41, 1, 0, 0x42, 2, 0x80, 0, 0, 0, 2, 0xC0])) = some (2, 12, []) := by
  decide +kernel

/-- Vector H-10. -/
theorem test_hufTree_ties :
    shown (exec .hufTree (holding [0x41, 0x42, 0x43, 0x44, 0x45])) =
      some (0, 0, [0, 5, 0x41, 3, 0xC0, 0x42, 3, 0xE0, 0x43, 2, 0, 0x44, 2, 0x40, 0x45, 2, 0x80]) := by decide +kernel

/-- Vector H-1. -/
theorem test_hufTree_empty : shown (exec .hufTree (holding [])) = some (0, 0, []) := by decide +kernel

/-- Vector LE-5. -/
theorem test_lzEnc_overlap :
    shown (exec .lzEnc (holding [0x61, 0x62, 0x61, 0x62, 0x61, 0x62])) =
      some (0, 0, [0, 0, 0, 0x61, 0, 0, 0, 0x62, 0, 2, 3, 0x62]) := by decide

/-- Vector LE-3. -/
theorem test_lzEnc_last_byte :
    shown (exec .lzEnc (holding [0x61, 0x61])) = some (0, 0, [0, 0, 0, 0x61, 0, 0, 0, 0x61]) := by decide

/-- Worked example S4. -/
theorem test_lzDec_overlap :
    shown (exec .lzDec (holding [0, 0, 0, 0x61, 0, 0, 0, 0x62, 0, 2, 3, 0x62])) =
      some (0, 0, [0x61, 0x62, 0x61, 0x62, 0x61, 0x62]) := by decide

/-- Vector O-4: the truncated last token first. -/
theorem test_lzDec_truncated :
    shown (exec .lzDec (withOutCap 10 (holding [0, 0, 0, 0x61, 0, 1, 0xFF, 0x62, 0, 0, 0]))) = some (2, 8, []) := by decide

/-- Vector LM-11: of equal lengths the oldest. -/
theorem test_lzMatch_oldest :
    shownMatch (exec .lzMatch { holding [0x61, 0x58, 0x61, 0x59, 0x61, 0x5A, 0x61, 0x62] with matchPos := 6 }) =
      some (0, 6, 1, 0x62) := by decide

/-- Vector LM-15. -/
theorem test_lzMatch_outside :
    shownMatch (exec .lzMatch { holding [0x61, 0x62, 0x63] with matchPos := 3, matchLen := 7 }) = some (6, 0, 0, 0) := by
  decide

/-! ### The host interface -/

/-- STATUS bit by bit: WBUSY, ERRCODE = 6, DONE (rule R24). -/
theorem test_statusWord :
    State.statusWord { State.resetFor 1 1 with wbusy := true, errCode := 6, done := true } = 0x00000162#32 := by decide

/-- Rule R23: bits [1:0] of a register offset are ignored. -/
theorem test_regAt_low_bits : regAt 0x017 = some .window ∧ regAt 0x034 = none ∧ regAt 0xFFF = none := by decide

/-- Rule R108: an alias names its command. -/
theorem test_alias : commandNamed "lz77.match" = some .lzMatch ∧ commandNamed "lz77" = none := by decide

/-- Lines of the host programs of spec/95_test_vectors.md, section 3, and one whose byte is out of range. -/
theorem test_parseLine :
    parseLine "load ibuf, [41 03]".toList = some (.load .ibuf [0x41, 3]) ∧
    parseLine "poison obuf, 16, 0xEE".toList = some (.poison 16 0xEE) ∧
    parseLine "wr STATUS, 0x102 ; clear".toList = some (.wr .status 0x102) ∧
    parseLine "wrb ibuf, 3, 256".toList = none := by decide +kernel

/-- The command placed by `withFetchWord` is the one the next step performs (vector RE-2). -/
theorem test_withFetchWord :
    shown (step ((holding [0x41]).withFetchWord 32 0x10)) = some (0, 0, [0x41, 1]) := by decide

/-! ### Witnesses: states and operands that meet the hypotheses of the statements, one theorem per statement -/

/-- Each clause at its boundary: 0x100 (case 1), 0x0F and 0x40 (case 2), 0x12 (case 3, RLE), 0x23 and 0x33 (case 3), 0x11, 0x22, 0x32. -/
theorem witness_DecodingFollowsTheRuleOrder :
    (0x100#32).toNat / 256 ≠ 0 ∧
    ((0x0F#32).toNat / 256 = 0 ∧ (0x0F#32).toNat / 16 ∉ [1, 2, 3]) ∧ ((0x40#32).toNat / 256 = 0 ∧ (0x40#32).toNat / 16 ∉ [1, 2, 3]) ∧
    ((0x12#32).toNat / 256 = 0 ∧ (0x12#32).toNat / 16 = 1 ∧ 2 ≤ (0x12#32).toNat % 16) ∧
    ((0x23#32).toNat / 256 = 0 ∧ (0x23#32).toNat / 16 ∈ [2, 3] ∧ 3 ≤ (0x23#32).toNat % 16) ∧
    ((0x33#32).toNat / 256 = 0 ∧ (0x33#32).toNat / 16 ∈ [2, 3] ∧ 3 ≤ (0x33#32).toNat % 16) ∧
    ((0x11#32).toNat / 256 = 0 ∧ (0x11#32).toNat / 16 = 1 ∧ (0x11#32).toNat % 16 ≤ 1) ∧
    ((0x22#32).toNat / 256 = 0 ∧ (0x22#32).toNat / 16 ∈ [2, 3] ∧ (0x22#32).toNat % 16 ≤ 2) ∧
    ((0x32#32).toNat / 256 = 0 ∧ (0x32#32).toNat / 16 ∈ [2, 3] ∧ (0x32#32).toNat % 16 ≤ 2) := by decide

theorem witness_AStepRunsTheDecodedCommand :
    (pending 0x10 [0x41]).mover = some .engine ∧ (pending 0x10 [0x41]).busy = true ∧
      decode (pending 0x10 [0x41]).cmd = .ok .rleEnc := by decide

/-- A host with one access to do. -/
def accessing (a : HostAccess) (s : State) : State := { s with program := [.access a] }

theorem witness_AStepPerformsTheHostsNextAccess :
    (accessing (.regWrite 0x000 0x10) (holding [0x41])).mover = some .host ∧
      (accessing (.regWrite 0x000 0x10) (holding [0x41])).program = .access (.regWrite 0x000 0x10) :: [] := by decide

/-- No turn given, the engine's turn, and the host's turn. -/
theorem witness_AnIdleBlockKeepsItsState :
    ∀ l ∈ [[], [Turn.engine], [Turn.host]], State.busy { holding [0x41] with turns := l } = false ∧
      State.program { holding [0x41] with turns := l } = [] ∧ State.mover { holding [0x41] with turns := l } ≠ some .reset := by
  decide

/-- Each outcome: an output that just fits, one that is a byte too long, a match, an error of LZ_MATCH, another error. -/
theorem witness_CompletionAppliesTheResult :
    (∀ s ∈ [withOutCap 2 (pending 0x10 [0x41]), withOutCap 1 (pending 0x10 [0x41]), pending 0x32 [0x41], pending 0x32 [],
        pending 0x11 [0x41]], s.busy = true ∧ s.mover = some .engine) ∧
    perform 0x10 (pending 0x10 [0x41]).operands = .out [0x41, 1] ∧ perform 0x32 (pending 0x32 [0x41]).operands = .matched 0 0 0x41 ∧
    perform 0x32 (pending 0x32 []).operands = .err .badParameter 0 ∧
    perform 0x11 (pending 0x11 [0x41]).operands = .err .malformedInput 0 := by decide

/-- IN_LEN = IN_CAP + 1. -/
theorem witness_AnInputBeyondCapacityIsBadParameter :
    (State.inCap { holding [] with inLen := 65 }).toNat < (State.inLen { holding [] with inLen := 65 }).toNat := by decide

theorem witness_TheEmptyInputGivesTheEmptyOutput : (holding []).inLen = 0 ∧ Instr.hufDec ≠ .lzMatch := by decide

/-- Two states that differ in DONE, WBUSY, OUT_LEN, OBUF and IBUF beyond IN_LEN. -/
theorem witness_TheResultDependsOnTheOperandsAlone :
    let s := pending 0x10 [0x41, 0x41]
    let u := { s with wbusy := true, outLen := 9, obuf := { cells := [(0, 7)], draw := 5 }, ibuf := { cells := [(0, 0x41), (1, 0x41), (2, 0x42)], draw := 6 } }
    s.busy = true ∧ u.busy = true ∧ s.mover = some .engine ∧ u.mover = some .engine ∧
    s.cmd = u.cmd ∧ s.inLen = u.inLen ∧ s.window = u.window ∧ s.lookahead = u.lookahead ∧ s.matchPos = u.matchPos ∧
    s.inCap = u.inCap ∧ s.outCap = u.outCap ∧ (∀ a, a < s.inLen.toNat → s.ibuf.read a = u.ibuf.read a) := by decide

/-- A pending command that fails. -/
theorem witness_AFailureRepeats :
    (pending 0x11 [0x41]).busy = true ∧ (pending 0x11 [0x41]).mover = some .engine ∧
      shown (step (pending 0x11 [0x41])) = some (2, 0, []) := by decide

/-- Two runs, the first one byte longer than a full pair. -/
def someRuns : List (Byte × List Nat) := [(7, [255, 1]), (8, [1])]

/-- A state whose IBUF and OBUF have room for 1024 bytes and which holds `xs`. -/
def holdingMuch (xs : List Byte) : State := { holding xs with inCap := 1024, outCap := 1024 }

theorem witness_RleEncWritesThePairsOfTheMaximalRuns :
    MaximalRuns someRuns ∧ HoldsInput (withOutCap 6 (holdingMuch (runBytes someRuns))) (runBytes someRuns) ∧
      2 * (runPairs someRuns).length ≤ (withOutCap 6 (holdingMuch (runBytes someRuns))).outCap.toNat := by
  refine ⟨⟨by decide, by simp [someRuns]⟩, ?_, by decide⟩
  decide +kernel

/-- OUT_CAP exactly twice the input. -/
theorem witness_RleEncAcceptsEveryInput :
    HoldsInput (withOutCap 4 (holding [0x41, 0x42])) [0x41, 0x42] ∧
      2 * [0x41, 0x42].length ≤ (withOutCap 4 (holding [0x41, 0x42])).outCap.toNat := by decide

/-- Counts 1 and 255; OUT_CAP exactly the output. -/
theorem witness_RleDecRepeatsEachValue :
    (∀ p ∈ [((0x41 : Byte), 1), (0x41, 255)], 1 ≤ p.2 ∧ p.2 ≤ 255) ∧
      HoldsInput (withOutCap 256 (holding [0x41, 1, 0x41, 255])) (pairBytes [(0x41, 1), (0x41, 255)]) ∧
      ([((0x41 : Byte), 1), (0x41, 255)].map fun p => p.2).sum ≤ (withOutCap 256 (holding [0x41, 1, 0x41, 255])).outCap.toNat := by
  decide

/-- An odd length of 1; a zero count in the first pair, and in the second. -/
theorem witness_RleDecErrors :
    (HoldsInput (holding [0x41]) [0x41] ∧ [(0x41 : Byte)].length % 2 = 1) ∧
    (HoldsInput (holding [0x41, 0]) [0x41, 0] ∧ [(0x41 : Byte), 0].length % 2 = 0 ∧ 2 * 0 + 1 < [(0x41 : Byte), 0].length ∧
      byteAt [0x41, 0] (2 * 0 + 1) = 0) ∧
    (HoldsInput (holding [0x41, 2, 0x42, 0]) [0x41, 2, 0x42, 0] ∧ [(0x41 : Byte), 2, 0x42, 0].length % 2 = 0 ∧
      2 * 1 + 1 < [(0x41 : Byte), 2, 0x42, 0].length ∧ byteAt [0x41, 2, 0x42, 0] (2 * 1 + 1) = 0 ∧
      ∀ j, j < 1 → byteAt [0x41, 2, 0x42, 0] (2 * j + 1) ≠ 0) := by decide

/-- The completed encoding of "AAB", and a second block that holds its output. -/
theorem witness_RleRoundTrip :
    ∃ t, HoldsInput (holding [0x41, 0x41, 0x42]) [0x41, 0x41, 0x42] ∧ exec .rleEnc (holding [0x41, 0x41, 0x42]) = .next t ∧
      t.errCode = 0 ∧ HoldsOutput t [0x41, 2, 0x42, 1] ∧ HoldsInput (withOutCap 3 (holding [0x41, 2, 0x42, 1])) [0x41, 2, 0x42, 1] ∧
      [0x41, 0x41, 0x42].length ≤ (withOutCap 3 (holding [0x41, 2, 0x42, 1])).outCap.toNat := by
  refine ⟨_, ?_, rfl, ?_, ?_, ?_, ?_⟩ <;> decide

/-- The example of rule R185: in "AAABBC", C and B are joined first (C left), then A and that node (A left). -/
def treeAAABBC : HufTree := .internal (.leaf 0x41 3) (.internal (.leaf 0x43 1) (.leaf 0x42 2) 3) 6

theorem test_IsHuffmanTree_example : IsHuffmanTree [0x41, 0x41, 0x41, 0x42, 0x42, 0x43] treeAAABBC := by
  refine ⟨[⟨.leaf 0x41 3, 0⟩, ⟨.leaf 0x42 2, 1⟩, ⟨.leaf 0x43 1, 2⟩], ⟨[0x41, 0x42, 0x43], by decide, by simp, by decide⟩, ?_⟩
  refine .round (x := ⟨.leaf 0x43 1, 2⟩) (y := ⟨.leaf 0x42 2, 1⟩) (rest := [⟨.leaf 0x41 3, 0⟩]) (by decide) (by decide) (by decide) ?_
  exact .round (x := ⟨.leaf 0x41 3, 0⟩) (y := ⟨.internal (.leaf 0x43 1) (.leaf 0x42 2) 3, 3⟩) (rest := []) (by decide) (by decide)
    (by decide) (.root _ ⟨treeAAABBC, 4⟩)

/-- The codes of that example: A = "0", C = "10", B = "11". -/
theorem test_PathTo_example :
    PathTo treeAAABBC [false] 0x41 ∧ PathTo treeAAABBC [true, false] 0x43 ∧ PathTo treeAAABBC [true, true] 0x42 :=
  ⟨.left (.here _ _), .right (.left (.here _ _)), .right (.right (.here _ _))⟩

/-- Two symbols with both their entries, and a single symbol. -/
theorem witness_TheCodeTableListsTheSymbols :
    2 ≤ (hufCodeTable [0x41, 0x42]).length ∧ (0x41, [false]) ∈ hufCodeTable [0x41, 0x42] ∧
      (0x42, [true]) ∈ hufCodeTable [0x41, 0x42] ∧ hufCodeTable [0x41] = [(0x41, [false])] := by decide +kernel

/-- The last bit of a whole byte, and a pad bit. -/
theorem witness_PackingIsMsbFirst :
    7 < 8 * (packBits (List.replicate 8 true)).length ∧ 15 < 8 * (packBits (List.replicate 9 true)).length := by decide

/-- Three leaves of "AAB...": the least key first. -/
theorem witness_TheTreeJoinsTheTwoLeastNodes :
    2 ≤ (hufQueue [0x41, 0x41, 0x42]).length ∧
    ((hufQueue [0x41, 0x41, 0x42]).Pairwise KeyBefore) ∧
    (∀ e ∈ hufQueue [0x41, 0x41, 0x42], e.seq < 2) := by decide +kernel

theorem witness_ThePriorityStructureStartsWithTheLeaves :
    (symbols [0x42, 0x41])[1]? = some 0x42 ∧ [(0x42 : Byte), 0x41] ≠ [] := by decide +kernel

/-- Two symbols, a single symbol with OUT_CAP exactly the header, and the empty input. -/
theorem witness_HufTreeWritesTheHeader :
    (HoldsInput (holding [0x41, 0x42]) [0x41, 0x42] ∧ (headerBytes (hufCodeTable [0x41, 0x42])).length ≤ (holding [0x41, 0x42]).outCap.toNat) ∧
    (HoldsInput (withOutCap 5 (holding [0x41, 0x41])) [0x41, 0x41] ∧
      (headerBytes (hufCodeTable [0x41, 0x41])).length ≤ (withOutCap 5 (holding [0x41, 0x41])).outCap.toNat ∧
      (∀ x ∈ [(0x41 : Byte), 0x41], x = 0x41)) ∧
    (HoldsInput (holding []) [] ∧ (headerBytes (hufCodeTable [])).length ≤ (holding []).outCap.toNat) := by decide +kernel

/-- "AAAA" with OUT_CAP exactly its ten bytes, and one less. -/
theorem witness_HufEncWritesTheContainer :
    HoldsInput (withOutCap 10 (holding [0x41, 0x41, 0x41, 0x41])) [0x41, 0x41, 0x41, 0x41] ∧
    HoldsInput (withOutCap 9 (holding [0x41, 0x41, 0x41, 0x41])) [0x41, 0x41, 0x41, 0x41] ∧
    [false, false, false, false] = [0x41, 0x41, 0x41, 0x41].flatMap (hufCodeTable [0x41, 0x41, 0x41, 0x41]).code ∧
    (containerBytes (hufCodeTable [0x41, 0x41, 0x41, 0x41]) [false, false, false, false]).length ≤
      (withOutCap 10 (holding [0x41, 0x41, 0x41, 0x41])).outCap.toNat ∧
    (withOutCap 9 (holding [0x41, 0x41, 0x41, 0x41])).outCap.toNat <
      (containerBytes (hufCodeTable [0x41, 0x41, 0x41, 0x41]) [false, false, false, false]).length := by
  decide +kernel

theorem witness_TheContainerBeginsWithTheTreeOutput :
    ∃ t u, HoldsInput (holding [0x41, 0x42]) [0x41, 0x42] ∧ exec .hufEnc (holding [0x41, 0x42]) = .next t ∧ t.errCode = 0 ∧
      exec .hufTree (holding [0x41, 0x42]) = .next u := by
  refine ⟨_, _, ?_, rfl, ?_, rfl⟩ <;> decide +kernel

theorem tableAB_valid : ValidTable tableAB := ⟨by decide, by decide, by decide, by decide⟩

/-- The message "AB" over an incomplete table; OUT_CAP exactly its length. -/
theorem witness_HufDecDecodesEveryValidContainer :
    ValidTable tableAB ∧ (∀ b ∈ [(0x41 : Byte), 0x42], ∃ e ∈ tableAB, e.1 = b) ∧
    ([0x41, 0x42].flatMap tableAB.code).length < 4294967296 ∧
    HoldsInput (withOutCap 2 (holding (containerBytes tableAB ([0x41, 0x42].flatMap tableAB.code))))
      (containerBytes tableAB ([0x41, 0x42].flatMap tableAB.code)) ∧
    [(0x41 : Byte), 0x42].length ≤ (withOutCap 2 (holding (containerBytes tableAB ([0x41, 0x42].flatMap tableAB.code)))).outCap.toNat := by
  refine ⟨tableAB_valid, ?_⟩
  decide +kernel

/-- Vector HD-6. -/
theorem witness_HufDecAcceptsOnlyValidContainers :
    ∃ t, HoldsInput (holding [0, 1, 0x41, 1, 0, 0, 0, 0, 4, 0]) [0, 1, 0x41, 1, 0, 0, 0, 0, 4, 0] ∧
      exec .hufDec (holding [0, 1, 0x41, 1, 0, 0, 0, 0, 4, 0]) = .next t ∧ t.errCode = 0 := by
  refine ⟨_, ?_, rfl, ?_⟩ <;> decide +kernel

/-- A lone byte; SYMCOUNT 0 and 257; three bytes of NBITS; a pad bit at the end of a byte. -/
theorem witness_HufDecChecksTheFraming :
    (HoldsInput (holding [0]) [0] ∧ [(0 : Byte)].length = 1) ∧
    (HoldsInput (holding [0, 0]) (be16 0 ++ []) ∧ HoldsInput (holding [1, 1]) (be16 257 ++ [])) ∧
    (ValidTable tableAB ∧ HoldsInput (holding (headerBytes tableAB ++ [0, 0, 0])) (headerBytes tableAB ++ [0, 0, 0])) ∧
    (HoldsInput (holding (headerBytes tableAB ++ be32 1 ++ [0x01])) (headerBytes tableAB ++ be32 1 ++ [0x01]) ∧
      [(0x01 : Byte)].length = (1 + 7) / 8 ∧ (byteAt [0x01] (7 / 8)).getLsbD (7 - 7 % 8) = true) := by
  refine ⟨by decide, by decide, ⟨tableAB_valid, ?_⟩, ?_⟩ <;> decide +kernel

/-- NBITS = 9 with one payload byte, and with three. -/
theorem witness_HufDecChecksTheExactLength :
    ValidTable tableAB ∧
    (HoldsInput (holding (headerBytes tableAB ++ be32 9 ++ [0])) (headerBytes tableAB ++ be32 9 ++ [0]) ∧
      [(0 : Byte)].length < (9 + 7) / 8) ∧
    (HoldsInput (holding (headerBytes tableAB ++ be32 9 ++ [0, 0, 0])) (headerBytes tableAB ++ be32 9 ++ [0, 0, 0]) ∧
      (9 + 7) / 8 < [(0 : Byte), 0, 0].length) := by
  refine ⟨tableAB_valid, ?_⟩
  decide +kernel

/-- The codes of "A", then 1 (a proper part of B's code): a second 1 leads to a missing child, and an end stops the walk. -/
theorem witness_HufDecStopsWhereTheWalkFails :
    ValidTable tableAB ∧ (∀ x ∈ [(0x41 : Byte)], ∃ e ∈ tableAB, e.1 = x) ∧ (∃ e ∈ tableAB, [true] <+: e.2 ∧ [true] ≠ e.2) ∧
    (HoldsInput (holding (containerBytes tableAB [false, true, true])) (containerBytes tableAB [false, true, true]) ∧
      (∀ e ∈ tableAB, ¬ [true] ++ [true] <+: e.2) ∧ [false, true, true] = [0x41].flatMap tableAB.code ++ [true] ++ true :: []) ∧
    (HoldsInput (holding (containerBytes tableAB [false, true])) (containerBytes tableAB [false, true]) ∧
      [false, true] = [0x41].flatMap tableAB.code ++ [true]) := by
  refine ⟨tableAB_valid, ?_⟩
  decide +kernel

/-- The entry A = 0 before, and then: one byte; SYM 41 again; LEN 0; LEN 9 with one byte; a pad bit; the code 00. -/
theorem witness_HufDecChecksEachEntry :
    ValidTable [((0x41 : Byte), [false])] ∧
    (∀ tail ∈ [[0x42], [0x41, 1, 0x80], [0x42, 0], [0x42, 9, 0], [0x42, 1, 0x81], [0x42, 2, 0x00]],
      HoldsInput (holding (be16 2 ++ [((0x41 : Byte), [false])].flatMap hufEntryBytes ++ tail))
        (be16 2 ++ [((0x41 : Byte), [false])].flatMap hufEntryBytes ++ tail)) ∧
    (∃ e ∈ [((0x41 : Byte), [false])], (0x41 : Byte).toNat ≤ e.1.toNat) ∧
    (∀ e ∈ [((0x41 : Byte), [false])], e.1.toNat < (0x42 : Byte).toNat) ∧
    [(0 : Byte)].length < ((9 : Byte).toNat + 7) / 8 ∧
    (((1 : Byte).toNat + 7) / 8 ≤ [(0x81 : Byte)].length ∧ (byteAt [0x81] (7 / 8)).getLsbD (7 - 7 % 8) = true) ∧
    ([false, false].length = (2 : Byte).toNat ∧ [0x00] = packBits [false, false] ++ [] ∧
      ∃ e ∈ [((0x41 : Byte), [false])], e.2 <+: [false, false] ∨ [false, false] <+: e.2) := by
  refine ⟨⟨by decide, by decide, by decide, by decide⟩, ?_⟩
  decide +kernel

/-- Vectors H-4 and HD-8; OUT_CAP of the decoder exactly the message. -/
theorem witness_HuffmanRoundTrip :
    ∃ t, HoldsInput (holding [0x41, 0x42]) [0x41, 0x42] ∧ exec .hufEnc (holding [0x41, 0x42]) = .next t ∧ t.errCode = 0 ∧
      HoldsOutput t [0, 2, 0x41, 1, 0, 0x42, 1, 0x80, 0, 0, 0, 2, 0x40] ∧
      HoldsInput (withOutCap 2 (holding [0, 2, 0x41, 1, 0, 0x42, 1, 0x80, 0, 0, 0, 2, 0x40]))
        [0, 2, 0x41, 1, 0, 0x42, 1, 0x80, 0, 0, 0, 2, 0x40] ∧
      [0x41, 0x42].length ≤
        (withOutCap 2 (holding [0, 2, 0x41, 1, 0, 0x42, 1, 0x80, 0, 0, 0, 2, 0x40])).outCap.toNat := by
  refine ⟨_, ?_, rfl, ?_, ?_, ?_, ?_⟩ <;> decide +kernel

/-- The last position of the input. -/
theorem witness_LzMatchFindsTheOldestLongestMatch :
    HoldsInput { holding [0x61, 0x62] with matchPos := 1 } [0x61, 0x62] ∧
      (State.matchPos { holding [0x61, 0x62] with matchPos := 1 }).toNat < [0x61, 0x62].length := by decide

/-- MATCH_POS = IN_LEN, and the empty input. -/
theorem witness_LzMatchOutsideTheInputIsBadParameter :
    (State.inLen { holding [0x61] with matchPos := 1 }).toNat ≤ (State.matchPos { holding [0x61] with matchPos := 1 }).toNat ∧
      (holding []).inLen.toNat ≤ (holding []).matchPos.toNat := by decide

/-- "aa" and "aaaa" at the last cursor, and a cursor with a match. -/
theorem witness_TheSearchResultIsBounded :
    1 < [(0x61 : Byte), 0x61].length ∧ 1 < [(0x61 : Byte), 0x61, 0x61, 0x61].length ∧
      1 ≤ (lzSearch [0x61, 0x61, 0x61, 0x61] 20 15 1).len := by decide

/-- OUT_CAP exactly four times the input. -/
theorem witness_LzEncWritesTheGreedyParse :
    HoldsInput (withOutCap 8 (holding [0x61, 0x61])) [0x61, 0x61] ∧
      4 * [0x61, 0x61].length ≤ (withOutCap 8 (holding [0x61, 0x61])).outCap.toNat := by decide

theorem witness_EmittedTokensAreBounded :
    ∃ t, HoldsInput (holding [0x61, 0x61, 0x61]) [0x61, 0x61, 0x61] ∧ exec .lzEnc (holding [0x61, 0x61, 0x61]) = .next t ∧
      t.errCode = 0 := by
  refine ⟨_, ?_, rfl, ?_⟩ <;> decide

/-- The tokens of "aaaa": a literal, then a copy that overlaps itself. -/
def someTokens : List LzToken := [{ dist := 0, len := 0, lit := 0x61 }, { dist := 1, len := 2, lit := 0x61 }]

theorem someTokens_expand : Expands [] someTokens [0x61, 0x61, 0x61, 0x61] :=
  .cons (mid := [0x61]) ⟨by decide, [], rfl, rfl, by decide⟩
    (.cons (mid := [0x61, 0x61, 0x61, 0x61]) ⟨by decide, [0x61, 0x61], rfl, rfl, by decide⟩ (.nil _))

/-- OUT_CAP exactly the output. -/
theorem witness_LzDecExpandsTheTokens :
    (∀ k ∈ someTokens, LegalToken k) ∧ Expands [] someTokens [0x61, 0x61, 0x61, 0x61] ∧
    HoldsInput (withOutCap 4 (holding (tokenBytes someTokens))) (tokenBytes someTokens) ∧
    [(0x61 : Byte), 0x61, 0x61, 0x61].length ≤ (withOutCap 4 (holding (tokenBytes someTokens))).outCap.toNat := by
  refine ⟨by decide, someTokens_expand, ?_⟩
  decide

/-- A length of 5; a distance without a length; a distance one beyond the output. -/
theorem witness_LzDecErrors :
    (HoldsInput (holding [0, 0, 0, 0x61, 0]) [0, 0, 0, 0x61, 0] ∧ [(0 : Byte), 0, 0, 0x61, 0].length % 4 ≠ 0) ∧
    (∀ k ∈ someTokens, LegalToken k) ∧ Expands [] someTokens [0x61, 0x61, 0x61, 0x61] ∧
    (HoldsInput (holding (tokenBytes someTokens ++ tokenBytes [⟨1, 0, 0x61⟩] ++ []))
        (tokenBytes someTokens ++ tokenBytes [⟨1, 0, 0x61⟩] ++ []) ∧ ¬ ((1 : Nat) = 0 ↔ (0 : Nat) = 0)) ∧
    (HoldsInput (holding (tokenBytes someTokens ++ tokenBytes [⟨5, 1, 0x61⟩] ++ []))
        (tokenBytes someTokens ++ tokenBytes [⟨5, 1, 0x61⟩] ++ []) ∧ ((5 : Nat) = 0 ↔ (1 : Nat) = 0) ∧
      [(0x61 : Byte), 0x61, 0x61, 0x61].length < 5) := by
  refine ⟨by decide, by decide, someTokens_expand, ?_, ?_⟩ <;> decide

theorem witness_LzRoundTrip :
    ∃ t, HoldsInput (holding [0x61, 0x61]) [0x61, 0x61] ∧ exec .lzEnc (holding [0x61, 0x61]) = .next t ∧ t.errCode = 0 ∧
      HoldsOutput t [0, 0, 0, 0x61, 0, 0, 0, 0x61] ∧
      HoldsInput (withOutCap 2 (holding [0, 0, 0, 0x61, 0, 0, 0, 0x61])) [0, 0, 0, 0x61, 0, 0, 0, 0x61] ∧
      [0x61, 0x61].length ≤ (withOutCap 2 (holding [0, 0, 0, 0x61, 0, 0, 0, 0x61])).outCap.toNat := by
  refine ⟨_, ?_, rfl, ?_, ?_, ?_, ?_⟩ <;> decide

/-- Offsets 0 and 3 reach CMD, idle and BUSY. -/
theorem witness_AWriteToCmdIsAccepted :
    (0x000#12).toNat / 4 = 0 ∧ (0x003#12).toNat / 4 = 0 ∧ (holding []).busy = false ∧ (pending 0x10 []).busy = true := by decide

/-- A write to CMD, to a reserved offset, to a buffer, and to STATUS. -/
theorem witness_WritesWhileBusyAreDropped :
    (pending 0x10 []).busy = true ∧ (HostAccess.regWrite 0x000 0x11).droppable = true ∧
      (HostAccess.regWrite 0xFFC 0).droppable = true ∧ (HostAccess.bufWrite .ibuf 0 1).droppable = true ∧
      (0x007#12).toNat / 4 = 1 := by decide

theorem witness_AWriteToStatusClearsFlags : (0x004#12).toNat / 4 = 1 ∧ (0x007#12).toNat / 4 = 1 := by decide

/-- The first and the last offset above STATUS. -/
theorem witness_RegisterWritesWhileIdle :
    (holding []).busy = false ∧ 2 ≤ (0x008#12).toNat / 4 ∧ 2 ≤ (0xFFF#12).toNat / 4 := by decide

/-- While idle ERRINFO; while BUSY STATUS and a reserved offset. -/
theorem witness_RegisterReadsGiveTheMap :
    (holding []).busy = false ∧ (0x004#12).toNat / 4 ∉ [2, 4, 8, 9, 10] ∧ (0x034#12).toNat / 4 ∉ [2, 4, 8, 9, 10] := by decide

/-- The first and the last result register. -/
theorem witness_ResultReadsWhileBusyAreFreshDraws :
    (pending 0x10 []).busy = true ∧ (0x008#12).toNat / 4 ∈ [2, 4, 8, 9, 10] ∧ (0x028#12).toNat / 4 ∈ [2, 4, 8, 9, 10] := by decide

/-- The last byte of a buffer, and the first address beyond. -/
theorem witness_BufferBytesReadBack :
    (holding []).busy = false ∧ (63#32).toNat < (holding []).inCap.toNat ∧ (63#32).toNat < (holding []).outCap.toNat ∧
      (holding []).inCap.toNat ≤ (64#32).toNat ∧ (holding []).outCap.toNat ≤ (64#32).toNat ∧ (pending 0x10 []).busy = true := by
  decide

/-- IN_CAP exactly the length; no turn given, and some of both agents. -/
theorem witness_LoadMakesTheInput : ∀ l ∈ [[], [Turn.engine, Turn.host]],
    let s := { State.resetFor 2 2 with program := assemble [.load .ibuf [0x41, 0x42]], turns := l }
    s.busy = false ∧ Turn.reset ∉ s.turns ∧ [(0x41 : Byte), 0x42].length ≤ s.inCap.toNat ∧
      s.program = assemble [.load .ibuf [0x41, 0x42]] := by decide

/-- An acceptance, a completion and a reset. -/
theorem witness_OnlyAcceptanceAndCompletionMoveBusy :
    (∃ t, step (accessing (.regWrite 0x000 0x10) (holding [])) = .next t ∧ (holding []).busy = false ∧ t.busy = true) ∧
    (∃ t, step (pending 0x10 []) = .next t ∧ (pending 0x10 []).busy = true ∧ t.busy = false) ∧
    (∃ t, step { pending 0x10 [] with turns := [.reset] } = .next t ∧ t.busy = false) := by
  refine ⟨⟨_, rfl, ?_, ?_⟩, ⟨_, rfl, ?_, ?_⟩, ⟨_, rfl, ?_⟩⟩ <;> decide

/-- A dropped write, a clear, and a reset. -/
theorem witness_OnlyDroppedWritesSetWbusy :
    (∃ t, step { accessing (.regWrite 0x00C 1) (pending 0x10 []) with turns := [.host] } = .next t ∧ t.wbusy = true) ∧
    (∃ t, step (accessing (.regWrite 0x004 0x100) { holding [] with wbusy := true }) = .next t ∧ t.wbusy = false) ∧
    (∃ t, step { holding [] with wbusy := true, turns := [.reset] } = .next t ∧ t.wbusy = false) := by
  refine ⟨⟨_, rfl, ?_⟩, ⟨_, rfl, ?_⟩, ⟨_, rfl, ?_⟩⟩ <;> decide

/-- The completion of RLE_ENC. -/
theorem witness_OnlyLzMatchChangesTheMatchRegisters :
    ∃ t, step (pending 0x10 []) = .next t ∧ (pending 0x10 []).mover ≠ some .reset ∧
      ¬ ((pending 0x10 []).mover = some .engine ∧ (pending 0x10 []).busy = true ∧ (pending 0x10 []).cmd = 0x00000032#32) := by
  refine ⟨_, rfl, ?_, ?_⟩ <;> decide

/-- A write of the last byte of IBUF. -/
theorem witness_OnlyTheHostWritesIbuf :
    ∃ t, step (accessing (.bufWrite .ibuf 63 5) (holding [0x41])) = .next t ∧
      (accessing (.bufWrite .ibuf 63 5) (holding [0x41])).mover ≠ some .reset ∧ t.ibuf.read 63 = 5 := by
  refine ⟨_, rfl, ?_, ?_⟩ <;> decide

theorem witness_ResetGivesTheResetValues : State.mover { pending 0x10 [0x41] with turns := [.reset] } = some .reset := by decide

/-- The least and the greatest capacity. -/
theorem witness_TheInvariantHoldsAtReset : (1 : Word) ≠ 0 ∧ (0xFFFFFFFF : Word) ≠ 0 := by decide

/-- A pending RLE_ENC after reset meets the invariant, and its step has a next state. -/
theorem witness_EveryStepKeepsTheInvariant : ∃ t, (pending 0x10 [0x41]).Inv ∧ step (pending 0x10 [0x41]) = .next t :=
  ⟨_, ⟨by decide, by decide, by decide, by decide, by decide, by decide, by decide, by decide, by decide, by decide, by decide,
    by decide, by decide⟩, rfl⟩

theorem witness_HostTurnsWhileBusyDoNotChangeTheResult : (pending 0x10 [0x41]).busy = true := by decide

theorem witness_EveryPendingCommandCompletes :
    (pending 0x10 [0x41]).busy = true ∧ Turn.reset ∉ (pending 0x10 [0x41]).turns := by decide

theorem witness_EveryWaitLoopEnds : State.program { pending 0x10 [0x41] with program := [.wait] } = .wait :: [] := by decide

end Sys2Proof.Machine
end

section
/-! Buffer accesses, rule R64: one equation for each case of a `bufRead` and a `bufWrite`, and the obligation they settle. -/

namespace Sys2Proof.Machine

variable {s : State} {a : Word} {v : Byte}

theorem performAccess_bufRead_ibuf (a : Word) (s : State) :
    performAccess (.bufRead .ibuf a) s =
      { s with reads := .buf .ibuf a (if a.toNat < s.inCap.toNat then s.ibuf.read a.toNat else 0) :: s.reads } := rfl

theorem performAccess_bufRead_obuf_idle (idle : s.busy = false) :
    performAccess (.bufRead .obuf a) s =
      { s with reads := .buf .obuf a (if a.toNat < s.outCap.toNat then s.obuf.read a.toNat else 0) :: s.reads } := by
  simp [performAccess, readBuf, idle, observe]

theorem performAccess_bufWrite_busy (busy : s.busy = true) (sp : Space) :
    performAccess (.bufWrite sp a v) s = dropWrite s := by
  simp [performAccess, writeBuf, busy]

theorem performAccess_bufWrite_ibuf_inside (idle : s.busy = false) (inside : a.toNat < s.inCap.toNat) :
    performAccess (.bufWrite .ibuf a v) s = { s with ibuf := s.ibuf.write a.toNat v } := by
  simp [performAccess, writeBuf, idle, inside]

theorem performAccess_bufWrite_obuf_inside (idle : s.busy = false) (inside : a.toNat < s.outCap.toNat) :
    performAccess (.bufWrite .obuf a v) s = { s with obuf := s.obuf.write a.toNat v } := by
  simp [performAccess, writeBuf, idle, inside]

theorem performAccess_bufWrite_ibuf_outside (idle : s.busy = false) (outside : s.inCap.toNat ≤ a.toNat) :
    performAccess (.bufWrite .ibuf a v) s = s := by
  simp [performAccess, writeBuf, idle, outside.not_gt]

theorem performAccess_bufWrite_obuf_outside (idle : s.busy = false) (outside : s.outCap.toNat ≤ a.toNat) :
    performAccess (.bufWrite .obuf a v) s = s := by
  simp [performAccess, writeBuf, idle, outside.not_gt]

/-- Settles O49: each clause is the equation of its case; the buffer a write inside the capacity leaves is `Buffer.write`'s. -/
theorem bufferBytesReadBack : Obligations.BufferBytesReadBack := by
  intro s a v
  refine ⟨performAccess_bufRead_ibuf a s, performAccess_bufRead_obuf_idle, fun idle inside => ?inIbuf,
    fun idle inside => ?inObuf, performAccess_bufWrite_ibuf_outside, performAccess_bufWrite_obuf_outside,
    performAccess_bufWrite_busy⟩
  case inIbuf =>
    exact ⟨s.ibuf.write a.toNat v, performAccess_bufWrite_ibuf_inside idle inside, s.ibuf.read_write_same _ _,
      fun x other => s.ibuf.read_write_other _ x v other⟩
  case inObuf =>
    exact ⟨s.obuf.write a.toNat v, performAccess_bufWrite_obuf_inside idle inside, s.obuf.read_write_same _ _,
      fun x other => s.obuf.read_write_other _ x v other⟩

end Sys2Proof.Machine
end

section
/-! The command word, rules R92 and R93: decoder and encoder undo each other, what the decoder answers for each ALG and FN, and
the two obligations these settle. -/

namespace Sys2Proof.Machine

/-! ### Decoder and encoder agree -/

theorem wordRoundTrip (i : Instr) : Laws.WordRoundTrip.Statement i := by
  cases i with
  | rleEnc => exact Laws.WordRoundTrip.rleEnc
  | rleDec => exact Laws.WordRoundTrip.rleDec
  | hufEnc => exact Laws.WordRoundTrip.hufEnc
  | hufDec => exact Laws.WordRoundTrip.hufDec
  | hufTree => exact Laws.WordRoundTrip.hufTree
  | lzEnc => exact Laws.WordRoundTrip.lzEnc
  | lzDec => exact Laws.WordRoundTrip.lzDec
  | lzMatch => exact Laws.WordRoundTrip.lzMatch

@[simp] theorem decode_encode (i : Instr) : decode (encode i) = .ok i := by
  obtain ⟨_, _, decodes, _⟩ := wordRoundTrip i
  exact decodes

theorem decode_eq_ok_iff {w : Word} {i : Instr} : decode w = .ok i ↔ encode i = w := by
  constructor
  · exact encode_of_decode
  · rintro rfl
    exact decode_encode i

/-- Settles O2: every command decodes back from its word (`decode_encode`), and nothing but that word decodes to it
(`encode_of_decode`); the eight words are evaluated. -/
theorem decodeAndEncodeAgree : Obligations.DecodeAndEncodeAgree := by
  intro w i
  refine ⟨decode_eq_ok_iff, ?words⟩
  case words => cases i <;> rfl

/-! ### The functions of each algorithm -/

section
variable {fn : BitVec 4}

theorem decodeRle_defined (h : fn.toNat ≤ 1) : ∃ i, decodeRle fn = .ok i := by
  obtain zero | one : fn.toNat = 0 ∨ fn.toNat = 1 := by omega
  · exact ⟨.rleEnc, by simp [decodeRle, zero]⟩
  · exact ⟨.rleDec, by simp [decodeRle, one]⟩

theorem decodeRle_undefined (h : 2 ≤ fn.toNat) : decodeRle fn = .error .undefinedFunction := by
  unfold decodeRle
  split
  case h_3 => rfl
  all_goals omega

theorem decodeHuffman_defined (h : fn.toNat ≤ 2) : ∃ i, decodeHuffman fn = .ok i := by
  obtain zero | one | two : fn.toNat = 0 ∨ fn.toNat = 1 ∨ fn.toNat = 2 := by omega
  · exact ⟨.hufEnc, by simp [decodeHuffman, zero]⟩
  · exact ⟨.hufDec, by simp [decodeHuffman, one]⟩
  · exact ⟨.hufTree, by simp [decodeHuffman, two]⟩

theorem decodeHuffman_undefined (h : 3 ≤ fn.toNat) : decodeHuffman fn = .error .undefinedFunction := by
  unfold decodeHuffman
  split
  case h_4 => rfl
  all_goals omega

theorem decodeLz77_defined (h : fn.toNat ≤ 2) : ∃ i, decodeLz77 fn = .ok i := by
  obtain zero | one | two : fn.toNat = 0 ∨ fn.toNat = 1 ∨ fn.toNat = 2 := by omega
  · exact ⟨.lzEnc, by simp [decodeLz77, zero]⟩
  · exact ⟨.lzDec, by simp [decodeLz77, one]⟩
  · exact ⟨.lzMatch, by simp [decodeLz77, two]⟩

theorem decodeLz77_undefined (h : 3 ≤ fn.toNat) : decodeLz77 fn = .error .undefinedFunction := by
  unfold decodeLz77
  split
  case h_4 => rfl
  all_goals omega

end

/-! ### The order of rule R93 -/

section
variable {w : Word}

/-- With the reserved bits clear, ALG is all that stands above FN. -/
theorem ofWord_alg_of_reservedClear (clear : w.toNat / 256 = 0) : (CommandWord.ofWord w).alg.toNat = w.toNat / 16 := by
  rw [ofWord_alg]
  omega

theorem ofWord_rsv_of_reservedClear (clear : w.toNat / 256 = 0) : (CommandWord.ofWord w).rsv = 0 :=
  BitVec.eq_of_toNat_eq ((ofWord_rsv w).trans clear)

theorem decode_of_alg_one (alg : w.toNat / 16 = 1) : decode w = decodeRle (CommandWord.ofWord w).fn := by
  have clear : w.toNat / 256 = 0 := by omega
  simp [decode, CommandWord.decode, ofWord_rsv_of_reservedClear clear, ofWord_alg_of_reservedClear clear, alg]

theorem decode_of_alg_two (alg : w.toNat / 16 = 2) : decode w = decodeHuffman (CommandWord.ofWord w).fn := by
  have clear : w.toNat / 256 = 0 := by omega
  simp [decode, CommandWord.decode, ofWord_rsv_of_reservedClear clear, ofWord_alg_of_reservedClear clear, alg]

theorem decode_of_alg_three (alg : w.toNat / 16 = 3) : decode w = decodeLz77 (CommandWord.ofWord w).fn := by
  have clear : w.toNat / 256 = 0 := by omega
  simp [decode, CommandWord.decode, ofWord_rsv_of_reservedClear clear, ofWord_alg_of_reservedClear clear, alg]

theorem decode_of_alg_unnamed (clear : w.toNat / 256 = 0) (alg : w.toNat / 16 ∉ [1, 2, 3]) :
    decode w = .error .unknownAlgorithm := by
  simp only [List.mem_cons, List.not_mem_nil, or_false, not_or] at alg
  obtain ⟨notRle, notHuffman, notLz77⟩ := alg
  rw [← ofWord_alg_of_reservedClear clear] at notRle notHuffman notLz77
  unfold decode CommandWord.decode
  rw [if_neg (not_not.mpr (ofWord_rsv_of_reservedClear clear))]
  split
  case h_4 => rfl
  all_goals contradiction

/-- Check 3 fails for RLE. -/
theorem decode_undefined_of_alg_one (alg : w.toNat / 16 = 1) (fn : 2 ≤ w.toNat % 16) :
    decode w = .error .undefinedFunction := by
  rw [← ofWord_fn] at fn
  exact (decode_of_alg_one alg).trans (decodeRle_undefined fn)

/-- Check 3 fails for Huffman or LZ77. -/
theorem decode_undefined_of_alg_two_three (alg : w.toNat / 16 ∈ [2, 3]) (fn : 3 ≤ w.toNat % 16) :
    decode w = .error .undefinedFunction := by
  rw [← ofWord_fn] at fn
  obtain huffman | lz77 := List.mem_pair.mp alg
  · exact (decode_of_alg_two huffman).trans (decodeHuffman_undefined fn)
  · exact (decode_of_alg_three lz77).trans (decodeLz77_undefined fn)

/-- RLE passes all three checks. -/
theorem decode_defined_of_alg_one (alg : w.toNat / 16 = 1) (fn : w.toNat % 16 ≤ 1) : ∃ i, decode w = .ok i := by
  rw [← ofWord_fn] at fn
  rw [decode_of_alg_one alg]
  exact decodeRle_defined fn

/-- Huffman and LZ77 pass all three checks. -/
theorem decode_defined_of_alg_two_three (alg : w.toNat / 16 ∈ [2, 3]) (fn : w.toNat % 16 ≤ 2) : ∃ i, decode w = .ok i := by
  rw [← ofWord_fn] at fn
  obtain huffman | lz77 := List.mem_pair.mp alg
  · rw [decode_of_alg_two huffman]
    exact decodeHuffman_defined fn
  · rw [decode_of_alg_three lz77]
    exact decodeLz77_defined fn

/-! ### What `perform` makes of the decoder's answer -/

theorem perform_of_decode_error {e : DecodeError} (h : decode w = .error e) (op : Operands) :
    perform w op = .err (decodeErrKind e) 0 := by
  simp [perform, h]

theorem perform_of_decode_ok {i : Instr} (h : decode w = .ok i) (op : Operands) : perform w op = commandResult i op := by
  simp [perform, h]

/-- A word that decodes is the word of a command, and `perform` is that command. -/
theorem perform_of_decodes (h : ∃ i, decode w = .ok i) (op : Operands) :
    ∃ i, encode i = w ∧ perform w op = commandResult i op := by
  obtain ⟨i, ok⟩ := h
  exact ⟨i, encode_of_decode ok, perform_of_decode_ok ok op⟩

end

/-- Settles O3: each clause is the decoder's answer for that case, carried through `perform`. -/
theorem decodingFollowsTheRuleOrder : Obligations.DecodingFollowsTheRuleOrder := by
  intro w op
  refine ⟨fun rsv => ?reserved, fun clear alg => ?unnamed, fun _ alg fn => ?undefinedRle, fun _ alg fn => ?undefinedOther,
    fun _ alg fn => ?rle, fun _ alg fn => ?other⟩
  case reserved => exact perform_of_decode_error (decode_reserved rsv) op
  case unnamed => exact perform_of_decode_error (decode_of_alg_unnamed clear alg) op
  case undefinedRle => exact perform_of_decode_error (decode_undefined_of_alg_one alg fn) op
  case undefinedOther => exact perform_of_decode_error (decode_undefined_of_alg_two_three alg fn) op
  case rle => exact perform_of_decodes (decode_defined_of_alg_one alg fn) op
  case other => exact perform_of_decodes (decode_defined_of_alg_two_three alg fn) op

end Sys2Proof.Machine
end

section
/-! Register writes, rules R140 and R310: one equation while idle and one while BUSY, and the obligation on CMD they settle. -/

namespace Sys2Proof.Machine

variable {s : State} {off : BitVec 12}

/-- While idle no register write is dropped. -/
theorem performAccess_regWrite_idle (idle : s.busy = false) (v : Word) :
    performAccess (.regWrite off v) s = writeRegIdle (regAt off) v s := by
  simp [performAccess, writeReg, idle]

/-- While BUSY a register write is dropped, but for one to STATUS (rule R310). -/
theorem performAccess_regWrite_busy (busy : s.busy = true) (notStatus : regAt off ≠ some .status) (v : Word) :
    performAccess (.regWrite off v) s = dropWrite s := by
  simp [performAccess, writeReg, busy, notStatus]

/-- Settles O43: an offset that reaches CMD is not dropped while idle, where CMD's arm is `acceptCommand`, and is no offset of
STATUS, so that it is dropped while BUSY. -/
theorem aWriteToCmdIsAccepted : Obligations.AWriteToCmdIsAccepted := by
  intro s off w at0
  have reachesCmd : regAt off = some .cmd := (regAt_eq_cmd off).2 at0
  refine ⟨fun idle => ?accepted, fun busy => ?dropped⟩
  case accepted =>
    calc performAccess (.regWrite off w) s
      _ = writeRegIdle (some .cmd) w s := by rw [performAccess_regWrite_idle idle, reachesCmd]
      _ = acceptCommand w s := rfl
  case dropped =>
    have notStatus : regAt off ≠ some .status := by simp [reachesCmd]
    exact performAccess_regWrite_busy busy notStatus w

end Sys2Proof.Machine
end

section
/-! RLE, rules R160 to R165: the decoder's output on a container of pairs, the encoder's output as such a container, and the two
obligations these settle. -/

namespace Sys2Proof.Machine

/-! ### The decoder on a container of pairs -/

theorem rleDecode_pairBytes {pairs : List (Byte × Nat)} (counts : ∀ p ∈ pairs, 1 ≤ p.2 ∧ p.2 ≤ 255) :
    rleDecode (pairBytes pairs) = .ok (pairs.flatMap fun p => List.replicate p.2 p.1) := by
  have even : (pairBytes pairs).length % 2 ≠ 1 := by
    rw [length_pairBytes]
    omega
  rw [rleDecode, if_neg even, rleDecodePairs_pairBytes pairs counts]

/-- Settles O16: the container decodes pair by pair (`rleDecodePairs_pairBytes`), and its output is as long as the counts sum. -/
theorem rleDecRepeatsEachValue : Obligations.RleDecRepeatsEachValue := by
  intro s pairs counts input room
  have result : commandResult .rleDec s.operands = .out (pairs.flatMap fun p => List.replicate p.2 p.1) := by
    rw [rleDec_result input, rleDecode_pairBytes counts, outOrRaise]
  have fits : (pairs.flatMap fun p => List.replicate p.2 p.1).length ≤ s.outCap.toNat := by
    simpa only [List.length_flatMap, List.length_replicate] using room
  exact exec_out result fits

/-! ### The pairs of maximal runs -/

/-- The encoder's counts of each run are the run's own, since a full split is determined by its sum. -/
theorem rleEncode_runBytes {runs : List (Byte × List Nat)} (maximal : MaximalRuns runs) :
    rleEncode (runBytes runs) = pairBytes (runPairs runs) := by
  have ⟨full, _⟩ := maximal
  have splits : ∀ r ∈ runs, rleSplit r.1 r.2.sum = pairBytes (r.2.map fun c => (r.1, c)) := by
    intro r mem
    rw [rleSplit_counts, ← fullSplit_unique (full r mem), pairBytes, List.flatMap_map]
  calc rleEncode (runBytes runs)
    _ = runs.flatMap fun r => rleSplit r.1 r.2.sum := by rw [rleEncode, rleRuns_runBytes maximal, List.flatMap_map]
    _ = runs.flatMap fun r => pairBytes (r.2.map fun c => (r.1, c)) := List.flatMap_congr splits
    _ = pairBytes (runPairs runs) := by simp only [pairBytes, runPairs, List.flatMap_assoc]

theorem runPairs_counts {runs : List (Byte × List Nat)} (maximal : MaximalRuns runs) :
    ∀ p ∈ runPairs runs, 1 ≤ p.2 ∧ p.2 ≤ 255 := by
  intro p mem
  obtain ⟨r, memRuns, memCounts⟩ := List.mem_flatMap.1 mem
  obtain ⟨c, memC, rfl⟩ := List.mem_map.1 memCounts
  obtain ⟨full, -⟩ := maximal
  obtain ⟨-, -, bounds⟩ := full r memRuns
  exact bounds c memC

theorem flatMap_replicate_eq_replicate_sum (v : Byte) (cs : List Nat) :
    (cs.flatMap fun c => List.replicate c v) = List.replicate cs.sum v := by
  induction cs with
  | nil => rfl
  | cons c cs ih => rw [List.flatMap_cons, ih, List.replicate_append_replicate, List.sum_cons]

/-- Each value repeated by the counts of its pairs is the bytes of the runs. -/
theorem runPairs_bytes (runs : List (Byte × List Nat)) :
    ((runPairs runs).flatMap fun p => List.replicate p.2 p.1) = runBytes runs := by
  simp only [runPairs, runBytes, List.flatMap_assoc, List.flatMap_map, flatMap_replicate_eq_replicate_sum]

/-! ### The round trip -/

/-- Rule R165 over all byte sequences: an input is the bytes of maximal runs, and their pairs decode to those bytes. -/
theorem rleDecode_rleEncode (xs : List Byte) : rleDecode (rleEncode xs) = .ok xs := by
  obtain ⟨runs, maximal, rfl, -⟩ := exists_maximalRuns xs
  rw [rleEncode_runBytes maximal, rleDecode_pairBytes (runPairs_counts maximal), runPairs_bytes]

/-- Settles O18: the output that the first state shows is `rleEncode` of its input, which decodes to that input. -/
theorem rleRoundTrip : Obligations.RleRoundTrip := by
  intro s s' t xs es input encoded noError output input' room
  have encodes : Succeeded s t (rleEncode xs) := succeeded_of_errCode (by decide) (rleEnc_result input) encoded noError
  obtain rfl : es = rleEncode xs := holdsOutput_unique output encodes.output
  have result : commandResult .rleDec s'.operands = .out xs := by
    rw [rleDec_result input', rleDecode_rleEncode, outOrRaise]
  exact exec_out result room

end Sys2Proof.Machine
end

section
/-! The Huffman code table, rules R183 and R184: its symbols, the bounds of its codes, its one tree, and the two obligations these
settle. -/

namespace Sys2Proof.Machine

/-! ### The symbols of the table -/

theorem hufCodeTable_ascending (xs : List Byte) : (hufCodeTable xs).Pairwise fun a b => a.1.toNat < b.1.toNat := by
  have ascending := symbols_ascending xs
  rw [← hufCodeTable_syms, List.pairwise_map] at ascending
  exact ascending

theorem exists_mem_hufCodeTable_iff (xs : List Byte) (b : Byte) : (∃ e ∈ hufCodeTable xs, e.1 = b) ↔ b ∈ xs := by
  rw [← mem_symbols, ← hufCodeTable_syms, List.mem_map]

theorem length_hufCodeTable (xs : List Byte) : (hufCodeTable xs).length = (symbols xs).length := by
  rw [← hufCodeTable_syms, List.length_map]

theorem symbols_eq_nil_iff (xs : List Byte) : symbols xs = [] ↔ xs = [] := by
  simp only [List.eq_nil_iff_forall_not_mem, mem_symbols]

theorem hufCodeTable_eq_nil_iff (xs : List Byte) : hufCodeTable xs = [] ↔ xs = [] := by
  rw [← symbols_eq_nil_iff, ← hufCodeTable_syms, List.map_eq_nil_iff]

/-! ### The codes of the table -/

theorem hufCodeTable_lone {xs : List Byte} {e : Byte × List Bool} (lone : hufCodeTable xs = [e]) : e.2 = [false] := by
  have one : ¬ 2 ≤ (symbols xs).length := by simp [← length_hufCodeTable, lone]
  obtain ⟨-, empty⟩ | ⟨b, -, table⟩ := hufCodeTable_small one
  · simp [lone] at empty
  · obtain rfl : e = (b, [false]) := by simpa [lone] using table
    rfl

/-- Two symbols or more have codes of at least one bit, as leaves below the root, and of at most k - 1 bits, k at most 256. -/
theorem hufCodeTable_lengths (xs : List Byte) : ∀ e ∈ hufCodeTable xs, 1 ≤ e.2.length ∧ e.2.length ≤ 255 := by
  intro e mem
  by_cases two : 2 ≤ (symbols xs).length
  · obtain ⟨t, tree, -, -⟩ := hufCodeTable_two two
    have paths := hufCodeTable_perm_paths two tree
    have leaves : t.paths.length = (symbols xs).length := by rw [← paths.length_eq, length_hufCodeTable]
    have onPath := paths.mem_iff.1 mem
    have below := t.paths_pos (leaves ▸ two) e onPath
    have depth := t.paths_depth e onPath
    have count := length_symbols_le xs
    omega
  · obtain ⟨-, table⟩ | ⟨b, -, table⟩ := hufCodeTable_small two
    · simp [table] at mem
    · obtain rfl : e = (b, [false]) := by simpa [table] using mem
      simp

/-- Rule R184 holds of the paths of the tree, and it does not depend on the order in which they are listed. -/
theorem hufCodeTable_prefixFree (xs : List Byte) : PrefixFree (hufCodeTable xs) := by
  by_cases two : 2 ≤ (symbols xs).length
  · obtain ⟨t, tree, -, -⟩ := hufCodeTable_two two
    exact (hufCodeTable_perm_paths two tree).symm.pairwise t.paths_prefixFree And.symm
  · obtain ⟨-, table⟩ | ⟨b, -, table⟩ := hufCodeTable_small two <;> simp [table, PrefixFree]

/-- The table of a non-empty input is one the decoder accepts (rule R191). -/
theorem hufCodeTable_valid {xs : List Byte} (nonempty : xs ≠ []) : ValidTable (hufCodeTable xs) where
  count := by
    have inhabited : hufCodeTable xs ≠ [] := mt (hufCodeTable_eq_nil_iff xs).1 nonempty
    exact ⟨List.length_pos_iff.2 inhabited, length_hufCodeTable xs ▸ length_symbols_le xs⟩
  ascending := hufCodeTable_ascending xs
  lengths := hufCodeTable_lengths xs
  prefixFree := hufCodeTable_prefixFree xs

/-- Settles O21, by the paths of the tree. -/
theorem huffmanCodesArePrefixFree : Obligations.HuffmanCodesArePrefixFree := hufCodeTable_prefixFree

/-- Settles O20: the symbols are those of `symbols`; the codes are the paths of the tree `hufTree` answers, which is the one tree
of rule R182 (`isHuffmanTree_iff`). -/
theorem theCodeTableListsTheSymbols : Obligations.TheCodeTableListsTheSymbols := by
  intro xs
  refine ⟨hufCodeTable_ascending xs, exists_mem_hufCodeTable_iff xs, hufCodeTable_lengths xs, hufCodeTable_eq_nil_iff xs,
    fun _ => hufCodeTable_lone, fun two => ?tree⟩
  case tree =>
    rw [length_hufCodeTable] at two
    obtain ⟨t, tree, -, -⟩ := hufCodeTable_two two
    have paths := hufCodeTable_perm_paths two tree
    have unique := isHuffmanTree_iff tree
    refine ⟨t, tree, (unique t).2 rfl, fun u => (unique u).1, fun b p => ?path, fun e mem => ?depth⟩
    case path => rw [paths.mem_iff, t.mem_paths]
    case depth =>
      rw [paths.length_eq]
      exact t.paths_depth e (paths.mem_iff.1 mem)

end Sys2Proof.Machine
end

section
/-! Huffman containers, rules R189, R194 and R195: the encoder's output as the container of the table, the decoder on such a
container and on one of the wrong length, and the three obligations these settle. -/

namespace Sys2Proof.Machine

/-! ### The encoder -/

theorem hufEncode_nil : hufEncode [] = .ok [] := rfl

theorem hufTreeOutput_of_ne_nil {xs : List Byte} (nonempty : xs ≠ []) : hufTreeOutput xs = headerBytes (hufCodeTable xs) := by
  have inhabited : hufCodeTable xs ≠ [] := mt (hufCodeTable_eq_nil_iff xs).1 nonempty
  unfold hufTreeOutput
  split
  next empty => exact absurd empty inhabited
  next e rest table => rw [table, hufHeader, headerBytes]

/-- What the encoder answers for a non-empty input is the container of its table and its codes, fewer than 2^32 bits. -/
theorem hufEncode_ok_iff {xs out : List Byte} (nonempty : xs ≠ []) :
    hufEncode xs = .ok out ↔ (xs.flatMap (hufCodeTable xs).code).length < 4294967296 ∧
      out = containerBytes (hufCodeTable xs) (xs.flatMap (hufCodeTable xs).code) := by
  have positive : xs.length ≠ 0 := mt List.length_eq_zero_iff.1 nonempty
  simp only [hufEncode, if_neg positive, hufPayloadBits, hufTreeOutput_of_ne_nil nonempty, containerBytes]
  generalize xs.flatMap (hufCodeTable xs).code = bits
  split
  next long => simp [Nat.not_lt.2 long]
  next short => simp [Nat.not_le.1 short, eq_comm]

/-! ### The decoder -/

theorem hufDecode_nil : hufDecode [] = .ok [] := rfl

/-- The decoder on the container of a valid table and a message in its symbols. -/
theorem hufDecode_container {tab : CodeTable} (valid : ValidTable tab) {msg : List Byte}
    (inTable : ∀ b ∈ msg, ∃ e ∈ tab, e.1 = b) (short : (msg.flatMap tab.code).length < 4294967296) :
    hufDecode (containerBytes tab (msg.flatMap tab.code)) = .ok msg := by
  obtain ⟨bits, padding⟩ := take_unpackBits_packBits (msg.flatMap tab.code) []
  rw [List.append_nil, ← length_packBits, List.take_length] at bits padding
  have walk := hufWalk_message valid ((headerBytes tab).length + 4) msg inTable 0 []
  rw [List.append_nil] at walk
  rw [containerBytes, hufDecode_payload valid _ short _ (length_packBits _),
    if_neg fun padBitSet => Bool.false_ne_true (padding.symm.trans padBitSet.2), bits, walk, hufWalk, Except.map, List.append_nil]

/-- Past a valid header and a whole NBITS the decoder compares the payload's length with NBITS (rule R194): short at the offset
of NBITS, long at the first extra byte. -/
theorem hufDecode_wrong_length {tab : CodeTable} (valid : ValidTable tab) {nb : Nat} (fits : nb < 4294967296)
    (payload : List Byte) :
    (payload.length < ceil8 nb → hufDecode (headerBytes tab ++ be32 nb ++ payload) = malformed (headerBytes tab).length) ∧
    (ceil8 nb < payload.length →
      hufDecode (headerBytes tab ++ be32 nb ++ payload) = malformed ((headerBytes tab).length + 4 + ceil8 nb)) := by
  have nbits : rd32 (headerBytes tab ++ (be32 nb ++ payload)) (headerBytes tab).length = nb := by
    rw [rd32_append_right, rd32_be32 fits]
  have whole : ¬ (headerBytes tab ++ (be32 nb ++ payload)).length < (headerBytes tab).length + 4 := by simp
  have left : (headerBytes tab ++ (be32 nb ++ payload)).length - ((headerBytes tab).length + 4) = payload.length := by
    simp; omega
  rw [List.append_assoc, hufDecode_header valid, hufDecodePayload, if_neg whole]
  simp only [nbits, left]
  refine ⟨fun short => ?_, fun long => ?_⟩
  · rw [if_pos short]
  · rw [if_neg long.not_gt, if_pos long]

/-! ### The commands -/

/-- A command that shows no error has not raised one: its codec answered the bytes it has written. -/
theorem codec_ok_of_errCode {i : Instr} {s t : State} {r : Except (ErrKind × Nat) (List Byte)} (hi : i ≠ .lzMatch)
    (result : commandResult i s.operands = outOrRaise r) (executed : exec i s = .next t) (noError : t.errCode = 0) :
    ∃ out, r = .ok out ∧ Succeeded s t out := by
  cases r with
  | ok out => exact ⟨out, rfl, succeeded_of_errCode hi result executed noError⟩
  | error e =>
    obtain ⟨kind, offset⟩ := e
    obtain ⟨u, executed', raised⟩ := exec_err hi result
    obtain rfl : t = u := by simpa [executed] using executed'
    have code : kind.code = 0 := raised.reports.errCode.symm.trans noError
    cases kind <;> exact absurd code (by decide)

theorem output_fits_of_errCode {i : Instr} {s t : State} {out : List Byte} (hi : i ≠ .lzMatch)
    (result : commandResult i s.operands = .out out) (executed : exec i s = .next t) (noError : t.errCode = 0) :
    out.length ≤ s.outCap.toNat := by
  by_contra tooLong
  obtain ⟨u, executed', raised⟩ := exec_out_overflow hi result (Nat.not_le.1 tooLong)
  obtain rfl : t = u := by simpa [executed] using executed'
  exact absurd (raised.reports.errCode.symm.trans noError) (by decide)

theorem exec_hufDec_of_ok {s : State} {xs out : List Byte} (input : HoldsInput s xs) (decodes : hufDecode xs = .ok out)
    (room : out.length ≤ s.outCap.toNat) : ∃ t, exec .hufDec s = .next t ∧ Succeeded s t out :=
  exec_out (by rw [hufDec_result input, decodes, outOrRaise]) room

theorem exec_hufDec_of_malformed {s : State} {xs : List Byte} {p : Nat} (input : HoldsInput s xs)
    (fails : hufDecode xs = malformed p) : ∃ t, exec .hufDec s = .next t ∧ Raised s t 2 p :=
  exec_err (e := .malformedInput) (by decide) (by rw [hufDec_result input, fails, malformed, outOrRaise])

/-- Rule R195 over all byte sequences: what the encoder answers decodes to the encoder's input. -/
theorem hufDecode_of_hufEncode {xs out : List Byte} (encodes : hufEncode xs = .ok out) : hufDecode out = .ok xs := by
  by_cases nonempty : xs = []
  · subst nonempty
    obtain rfl : [] = out := by simpa [hufEncode_nil] using encodes
    exact hufDecode_nil
  · obtain ⟨short, rfl⟩ := (hufEncode_ok_iff nonempty).1 encodes
    exact hufDecode_container (hufCodeTable_valid nonempty) (fun b => (exists_mem_hufCodeTable_iff xs b).2) short

/-- Settles O33: the output that the first state shows is `hufEncode` of its input, which decodes to that input. -/
theorem huffmanRoundTrip : Obligations.HuffmanRoundTrip := by
  intro s s' t xs es input encoded noError output input' room
  obtain ⟨out, encodes, succeeded⟩ := codec_ok_of_errCode (by decide) (hufEnc_result input) encoded noError
  obtain rfl : es = out := holdsOutput_unique output succeeded.output
  exact exec_hufDec_of_ok input' (hufDecode_of_hufEncode encodes) room

/-- Settles O26: both outputs begin with the header of the input's table. HUF_TREE's fits in OBUF because HUF_ENC's, which is
longer, did. -/
theorem theContainerBeginsWithTheTreeOutput : Obligations.TheContainerBeginsWithTheTreeOutput := by
  intro s t u xs input nonempty encoded noError built
  obtain ⟨out, encodes, succeeded⟩ := codec_ok_of_errCode (by decide) (hufEnc_result input) encoded noError
  obtain ⟨short, rfl⟩ := (hufEncode_ok_iff nonempty).1 encodes
  have fits : (containerBytes (hufCodeTable xs) (xs.flatMap (hufCodeTable xs).code)).length ≤ s.outCap.toNat :=
    output_fits_of_errCode (i := .hufEnc) (by decide) (by rw [hufEnc_result input, encodes, outOrRaise]) encoded noError
  have headerFits : (headerBytes (hufCodeTable xs)).length ≤ s.outCap.toNat := by
    simp only [containerBytes, List.length_append] at fits
    omega
  have header : commandResult .hufTree s.operands = .out (headerBytes (hufCodeTable xs)) := by
    rw [hufTree_result input, hufTreeOutput_of_ne_nil nonempty]
  obtain ⟨u', built', treeSucceeded⟩ := exec_out header headerFits
  obtain rfl : u = u' := by simpa [built] using built'
  exact ⟨headerBytes (hufCodeTable xs), xs.flatMap (hufCodeTable xs).code, treeSucceeded.output, succeeded.output, rfl⟩

/-- Settles O30: the decoder's length check, carried through the command. -/
theorem hufDecChecksTheExactLength : Obligations.HufDecChecksTheExactLength := by
  intro s tab nb payload valid fits input
  obtain ⟨short, long⟩ := hufDecode_wrong_length valid fits payload
  exact ⟨fun few => exec_hufDec_of_malformed input (short few), fun extra => exec_hufDec_of_malformed input (long extra)⟩

end Sys2Proof.Machine
end

section
/-! LZ77, rules R235 and R244 to R246: the bounds of a search result, the encoder's tokens, the decoder on them, what the decoder's
result does not depend on, and the four obligations these settle. -/

namespace Sys2Proof.Machine

/-! ### The search -/

/-- Settles O36: the search finds a best match (`lzSearch_best`), and these are its bounds (`bestMatch_bounds`). -/
theorem theSearchResultIsBounded : Obligations.TheSearchResultIsBounded := by
  intro xs w la i inside
  obtain ⟨len, literal, distCursor, distWindow, both⟩ := bestMatch_bounds (lzSearch_best w la inside) inside
  refine ⟨?length, both.symm, fun found => ⟨?near, le_min distCursor distWindow⟩⟩
  case length => omega
  case near => omega

/-! ### The tokens of the encoder -/

/-- Without an error LZ_ENC has written the container of a greedy parse of the whole input. -/
theorem lzEnc_writes_greedyParse {s t : State} {xs : List Byte} (input : HoldsInput s xs) (encoded : exec .lzEnc s = .next t)
    (noError : t.errCode = 0) :
    ∃ ks, GreedyParse xs s.window.toNat s.lookahead.toNat 0 ks ∧ Succeeded s t (tokenBytes ks) := by
  obtain ⟨parse, -⟩ := lzTokens_greedy xs s.window.toNat s.lookahead.toNat xs.length 0 (Nat.zero_le _) (Nat.sub_le _ _)
  refine ⟨_, parse, ?_⟩
  rw [← lzEncode_eq_tokenBytes]
  exact succeeded_of_errCode (by decide) (lzEnc_result input) encoded noError

/-- Rule R245 of a parse under the registers: WINDOW is at most 65535 and LOOKAHEAD at most 255. -/
theorem greedyParse_bounded {xs : List Byte} {w : BitVec 16} {la : BitVec 8} {i : Nat} {ks : List LzToken}
    (parse : GreedyParse xs w.toNat la.toNat i ks) : ∀ k ∈ ks, LegalToken k ∧ k.dist ≤ w.toNat ∧ k.len ≤ la.toNat :=
  legal_of_greedyParse (Nat.le_of_lt_succ w.isLt) (Nat.le_of_lt_succ la.isLt) parse

/-- Settles O38: the output is the container of a greedy parse, whose tokens are bounded. -/
theorem emittedTokensAreBounded : Obligations.EmittedTokensAreBounded := by
  intro s t xs input encoded noError
  obtain ⟨ks, parse, succeeded⟩ := lzEnc_writes_greedyParse input encoded noError
  exact ⟨ks, succeeded.output, greedyParse_bounded parse⟩

/-! ### The decoder on a container of tokens -/

theorem lzDecodeTokens_nil (p : Nat) (out : List Byte) : lzDecodeTokens p out [] = .ok out := rfl

theorem lzDecode_tokenBytes {ks : List LzToken} {ys : List Byte} (legal : ∀ k ∈ ks, LegalToken k)
    (expands : Expands [] ks ys) : lzDecode (tokenBytes ks) = .ok ys := by
  have whole : ¬ (tokenBytes ks).length % 4 ≠ 0 := by simp
  have decodes := lzDecodeTokens_expands legal expands 0 []
  rw [List.append_nil, lzDecodeTokens_nil] at decodes
  rw [lzDecode, if_neg whole, decodes]

/-- Rule R246 over all byte sequences: a greedy parse expands to its input, and its tokens are legal. -/
theorem lzDecode_greedyParse {xs : List Byte} {w : BitVec 16} {la : BitVec 8} {ks : List LzToken}
    (parse : GreedyParse xs w.toNat la.toNat 0 ks) : lzDecode (tokenBytes ks) = .ok xs :=
  lzDecode_tokenBytes (fun k mem => (greedyParse_bounded parse k mem).1) (expands_of_greedyParse parse)

/-- Settles O42: the output that the first state shows is the container of a greedy parse, which decodes to the parsed input. -/
theorem lzRoundTrip : Obligations.LzRoundTrip := by
  intro s s' t xs es input encoded noError output input' room
  obtain ⟨ks, parse, succeeded⟩ := lzEnc_writes_greedyParse input encoded noError
  obtain rfl : es = tokenBytes ks := holdsOutput_unique output succeeded.output
  have result : commandResult .lzDec s'.operands = .out xs := by
    rw [lzDec_result input', lzDecode_greedyParse parse, outOrRaise]
  exact exec_out result room

/-! ### What LZ_DEC does not depend on -/

/-- WINDOW and LOOKAHEAD set to the values given. -/
def withWindow (w : BitVec 16) (la : BitVec 8) (s : State) : State := { s with window := w, lookahead := la }

section
variable (w : BitVec 16) (la : BitVec 8)

theorem errorCompletion_withWindow (m : Bool) (e : ErrKind) (info : Nat) (s : State) :
    errorCompletion m e info (withWindow w la s) = withWindow w la (errorCompletion m e info s) := by
  cases m <;> rfl

/-- A completion neither reads nor writes WINDOW and LOOKAHEAD. -/
theorem completion_withWindow (m : Bool) (r : CmdResult) (s : State) :
    completion m r (withWindow w la s) = withWindow w la (completion m r s) := by
  cases r with
  | out bytes =>
    have sameCap : (withWindow w la s).outCap = s.outCap := rfl
    simp only [completion, sameCap]
    split
    · exact errorCompletion_withWindow w la m .outputOverflow 0 s
    · rfl
  | matched d l c => rfl
  | err e info => exact errorCompletion_withWindow w la m e info s

/-- Setting the two registers before LZ_DEC is setting them after it: of its operands its result takes the input and the length
check only (rule R244). -/
theorem exec_lzDec_withWindow (s : State) :
    exec .lzDec (withWindow w la s) = .next (withWindow w la (completion false (lzDecResult s.operands) s)) := by
  have sameResult : lzDecResult (withWindow w la s).operands = lzDecResult s.operands := rfl
  calc exec .lzDec (withWindow w la s)
    _ = .next (completion false (lzDecResult (withWindow w la s).operands) (withWindow w la s)) := exec_eq_completion .lzDec _
    _ = .next (withWindow w la (completion false (lzDecResult s.operands) s)) := by rw [sameResult, completion_withWindow]

/-- Set back to what a completion kept, the two registers are as the completion left them. -/
theorem withWindow_restored {s t : State} (frame : EngineFrame s t) :
    withWindow s.window s.lookahead (withWindow w la t) = t := by
  rw [← frame.window, ← frame.lookahead]
  rfl

end

theorem SameResult.refl (t : State) : SameResult t t := by
  constructor <;> intros <;> rfl

/-- Settles O41: the two runs end in one state but for the two registers, and in that state itself once these are set back. -/
theorem lzDecIgnoresTheWindow : Obligations.LzDecIgnoresTheWindow := by
  intro s w la
  refine ⟨_, _, exec_eq_completion .lzDec s, exec_lzDec_withWindow w la s, rfl, rfl, ?same⟩
  case same =>
    have restored := withWindow_restored w la (completion_frame false (lzDecResult s.operands) s)
    exact restored.symm ▸ SameResult.refl _

end Sys2Proof.Machine
end

section
/-! Hazards and reset, rules R310, R300 and R48: a write that BUSY drops, a write to STATUS, a reset turn, and the two obligations
these settle. -/

namespace Sys2Proof.Machine

variable {s : State}

/-! ### Writes while BUSY -/

/-- While BUSY every access that counts as droppable is dropped, in either kind of write (rule R310). -/
theorem performAccess_of_droppable (busy : s.busy = true) {a : HostAccess} (write : a.droppable = true) :
    performAccess a s = dropWrite s := by
  cases a with
  | regRead off => cases write
  | bufRead sp x => cases write
  | regWrite off v => exact performAccess_regWrite_busy busy ((droppable_regWrite off v).1 write) v
  | bufWrite sp x v => exact performAccess_bufWrite_busy busy sp

/-- A write to STATUS is performed, busy or idle (rules R27, R29, R30, R310). -/
theorem performAccess_regWrite_status {off : BitVec 12} (at1 : off.toNat / 4 = 1) (v : Word) (s : State) :
    performAccess (.regWrite off v) s = writeStatus v s := by
  have reachesStatus : regAt off = some .status := (regAt_eq_status off).2 at1
  simp [performAccess, writeReg, writeRegIdle, reachesStatus]

/-- A write to STATUS neither reads nor writes BUSY: done with any other BUSY, it comes to the same once BUSY is set back. -/
theorem writeStatus_eq_busy_restored (v : Word) (b : Bool) (s : State) :
    writeStatus v s = { writeStatus v { s with busy := b } with busy := s.busy } := rfl

/-- Settles O44: a droppable access is `dropWrite`; a write to STATUS is `writeStatus` whatever BUSY holds. -/
theorem writesWhileBusyAreDropped : Obligations.WritesWhileBusyAreDropped := by
  intro s busy
  refine ⟨fun a write => performAccess_of_droppable busy write, fun off v at1 => ?status⟩
  case status =>
    calc performAccess (.regWrite off v) s
      _ = writeStatus v s := performAccess_regWrite_status at1 v s
      _ = { writeStatus v { s with busy := false } with busy := s.busy } := writeStatus_eq_busy_restored v false s
      _ = { performAccess (.regWrite off v) { s with busy := false } with busy := true } := by
        rw [performAccess_regWrite_status at1, busy]

/-! ### Reset -/

/-- A reset turn resets the block, its turn struck off. -/
theorem step_of_mover_reset (resets : s.mover = some .reset) : step s = .next (resetBlock (popTurn s)) := by
  rw [step, resets]

/-- STATUS reads 0 after a reset (rule R48). -/
@[simp] theorem resetBlock_statusWord (s : State) : (resetBlock s).statusWord = 0 := by
  simp [State.statusWord]

/-- Settles O55: the reset turn answers `resetBlock`, whose fields the `resetBlock_` lemmas of the state's laws give, STATUS the one
above. -/
theorem resetGivesTheResetValues : Obligations.ResetGivesTheResetValues := by
  intro s resets
  refine ⟨resetBlock (popTurn s), step_of_mover_reset resets, ?fields⟩
  case fields => simp

end Sys2Proof.Machine
end

section
/-! The Huffman decoder, rules R190 to R194: what it accepts, where it reports a broken frame, a broken entry and a failing walk, and
the five obligations these settle. -/

namespace Sys2Proof.Machine

/-! ### What the decoder accepts -/

/-- Settles O27, by the decoder on the container of a valid table (`hufDecode_container`). -/
theorem hufDecDecodesEveryValidContainer : Obligations.HufDecDecodesEveryValidContainer := by
  intro s tab msg valid inTable short input room
  exact exec_hufDec_of_ok input (hufDecode_container valid inTable short) room

/-- What is accepted after a valid header is NBITS and the packed codes of the output. -/
theorem hufDecodePayload_sound {tab : CodeTable} (valid : ValidTable tab) {input out : List Byte} {q : Nat}
    (decodes : hufDecodePayload input tab q = .ok out) :
    (∀ b ∈ out, ∃ e ∈ tab, e.1 = b) ∧
      input.drop q = be32 (out.flatMap tab.code).length ++ packBits (out.flatMap tab.code) := by
  unfold hufDecodePayload at decodes
  split at decodes
  next => cases decodes
  next whole =>
    simp only at decodes
    split_ifs at decodes with short long padding
    iterate 3 cases decodes
    generalize nbits : rd32 input q = nb at *
    generalize rest : input.drop (q + 4) = payload at *
    have length : payload.length = ceil8 nb := by
      rw [← rest, List.length_drop]
      omega
    obtain ⟨inTable, codes⟩ := hufWalk_sound valid _ _ [] 0 out (.inl rfl) decodes
    rw [List.nil_append] at codes
    have count : (out.flatMap tab.code).length = nb := by
      rw [← codes, List.length_take, length_unpackBits, length, ceil8]
      omega
    have head : (input.drop q).take 4 = be32 nb := by rw [← nbits, take_four_eq_be32 (by omega)]
    refine ⟨inTable, ?_⟩
    rw [count, ← codes, packBits_of_clean_padding length padding, ← head, ← rest, ← List.drop_drop, List.take_append_drop]

/-- Whatever non-empty input the decoder accepts is the container of a valid table and of the codes of its output. -/
theorem hufDecode_sound {xs out : List Byte} (nonempty : xs ≠ []) (decodes : hufDecode xs = .ok out) :
    ∃ tab, ValidTable tab ∧ (∀ b ∈ out, ∃ e ∈ tab, e.1 = b) ∧ xs = containerBytes tab (out.flatMap tab.code) := by
  have positive : xs.length ≠ 0 := mt List.length_eq_zero_iff.1 nonempty
  rw [hufDecode, if_neg positive] at decodes
  simp only at decodes
  split_ifs at decodes with lone count
  iterate 2 cases decodes
  split at decodes
  next => cases decodes
  next tab q reads =>
    obtain ⟨rest, rfl, size, ascending, lengths, prefixFree, -, header⟩ :=
      hufReadEntries_sound xs _ 2 [] tab q reads (Nat.le_of_not_lt lone) .nil (by simp) .nil
    have valid : ValidTable tab := ⟨by omega, ascending, lengths, prefixFree⟩
    obtain ⟨inTable, payload⟩ := hufDecodePayload_sound valid decodes
    refine ⟨tab, valid, inTable, ?_⟩
    calc xs
      _ = xs.take q ++ xs.drop q := (List.take_append_drop q xs).symm
      _ = containerBytes tab (out.flatMap tab.code) := by
        rw [header, payload, take_two_eq_be16 lone, ← size, containerBytes, headerBytes, List.append_assoc _ (be32 _)]

/-- Settles O28: a completion without an error has decoded its input, and `hufDecode_sound` says which inputs decode. -/
theorem hufDecAcceptsOnlyValidContainers : Obligations.HufDecAcceptsOnlyValidContainers := by
  intro s t xs input nonempty executed noError
  obtain ⟨msg, decodes, succeeded⟩ := codec_ok_of_errCode (by decide) (hufDec_result input) executed noError
  obtain ⟨tab, valid, inTable, container⟩ := hufDecode_sound nonempty decodes
  exact ⟨tab, msg, valid, inTable, container, succeeded.output⟩

/-! ### A broken frame -/

theorem hufDecode_lone {xs : List Byte} (lone : xs.length = 1) : hufDecode xs = malformed 0 := by
  simp [hufDecode, lone]

theorem hufDecode_wrong_count {k : Nat} (wrong : k = 0 ∨ 256 < k) (fits : k < 65536) (rest : List Byte) :
    hufDecode (be16 k ++ rest) = malformed 0 := by
  have nonempty : (be16 k ++ rest).length ≠ 0 := by simp
  have two : ¬ (be16 k ++ rest).length < 2 := by simp; omega
  simp only [hufDecode, if_neg nonempty, if_neg two, rd16_be16 fits, if_pos wrong]

theorem hufDecode_short_nbits {tab : CodeTable} (valid : ValidTable tab) {few : List Byte} (short : few.length < 4) :
    hufDecode (headerBytes tab ++ few) = malformed (headerBytes tab).length := by
  rw [hufDecode_header valid, hufDecodePayload, if_pos (by rw [List.length_append]; omega)]

/-- A pad bit of 1 is reported at the last payload byte. -/
theorem hufDecode_pad_bit {tab : CodeTable} (valid : ValidTable tab) {nb j : Nat} (fits : nb < 4294967296)
    {payload : List Byte} (length : payload.length = ceil8 nb) (isPad : nb ≤ j) (inside : j < 8 * payload.length)
    (set : (byteAt payload (j / 8)).getLsbD (7 - j % 8) = true) :
    hufDecode (headerBytes tab ++ be32 nb ++ payload) = malformed ((headerBytes tab).length + 3 + payload.length) := by
  have unaligned : nb % 8 ≠ 0 := by
    rw [ceil8] at length
    omega
  rw [hufDecode_payload valid nb fits payload length, if_pos ⟨unaligned, any_drop_unpackBits isPad inside set⟩, ← length]
  congr 1
  omega

/-- Settles O29: the decoder's answer in each case, carried through the command. -/
theorem hufDecChecksTheFraming : Obligations.HufDecChecksTheFraming := by
  intro s xs input
  refine ⟨fun lone => ?lone, fun k rest wrong fits bytes => ?count, fun tab few valid short bytes => ?nbits,
    fun tab nb payload j valid fits length bytes isPad inside set => ?pad⟩
  case lone => exact exec_hufDec_of_malformed input (hufDecode_lone lone)
  case count => exact exec_hufDec_of_malformed input (bytes ▸ hufDecode_wrong_count wrong fits rest)
  case nbits => exact exec_hufDec_of_malformed input (bytes ▸ hufDecode_short_nbits valid short)
  case pad => exact exec_hufDec_of_malformed input (bytes ▸ hufDecode_pad_bit valid fits length isPad inside set)

/-! ### A failing walk -/

/-- A container with a valid header and as many bits as NBITS says is decoded by the walk over its bits. -/
theorem hufDecode_containerBytes {tab : CodeTable} (valid : ValidTable tab) {bits : List Bool}
    (short : bits.length < 4294967296) :
    hufDecode (containerBytes tab bits) = hufWalk tab.trie ((headerBytes tab).length + 4) none 0 bits := by
  obtain ⟨unpacked, padding⟩ := take_unpackBits_packBits bits []
  rw [List.append_nil, ← length_packBits, List.take_length] at unpacked padding
  rw [containerBytes, hufDecode_payload valid _ short _ (length_packBits _),
    if_neg fun padBitSet => Bool.false_ne_true (padding.symm.trans padBitSet.2), unpacked]

section
variable {tab : CodeTable} {path : List Bool} (valid : ValidTable tab) (payload : Nat)
include valid

/-- The walk over the codes of a message and a proper part of a code goes on behind that part. -/
theorem hufWalk_message_path {msg : List Byte} (inTable : ∀ x ∈ msg, ∃ e ∈ tab, e.1 = x)
    (onCode : ∃ e ∈ tab, path <+: e.2 ∧ path ≠ e.2) (bs : List Bool) :
    hufWalk tab.trie payload none 0 (msg.flatMap tab.code ++ path ++ bs) =
      (hufWalk tab.trie payload (hufPos tab.trie path) ((msg.flatMap tab.code).length + path.length) bs).map (msg ++ ·) := by
  have along := hufWalk_path valid.prefixFree payload bs path [] (msg.flatMap tab.code).length onCode
  rw [List.nil_append, show hufPos tab.trie [] = none from rfl] at along
  rw [List.append_assoc, hufWalk_message valid payload msg inTable, Nat.zero_add, along]

/-- One bit behind a proper part of a code, where no code goes on with it, there is no child (rule R192). -/
theorem follow_off_the_codes {b : Bool} (onCode : ∃ e ∈ tab, path <+: e.2 ∧ path ≠ e.2)
    (off : ∀ e ∈ tab, ¬ path ++ [b] <+: e.2) : tab.trie.follow (path ++ [b]) = .absent := by
  refine CodeTable.trie_follow_missing off (fun e mem below => ?_) (by simp)
  obtain whole | inPath := List.prefix_concat_iff.1 below
  · exact off e mem (whole ▸ List.prefix_rfl)
  · obtain ⟨x, memX, begins, proper⟩ := onCode
    obtain rfl : e = x := valid.prefixFree.eq_of_prefix mem memX (inPath.trans begins)
    exact proper (begins.eq_of_length (le_antisymm begins.length_le inPath.length_le))

end

/-- Settles O31: the walk goes along the codes and the part of a code (`hufWalk_message_path`), and then either meets a missing
child (`follow_off_the_codes`) or has no bit left inside a code. -/
theorem hufDecStopsWhereTheWalkFails : Obligations.HufDecStopsWhereTheWalkFails := by
  intro s tab msg path bits valid inTable onCode short input
  have walk := hufWalk_message_path valid ((headerBytes tab).length + 4) inTable onCode
  refine ⟨fun b tail off split => exec_hufDec_of_malformed input ?missing,
    fun inside split => exec_hufDec_of_malformed input ?ended⟩
  case missing =>
    rw [hufDecode_containerBytes valid short, split, walk, hufWalk_bit, follow_off_the_codes valid onCode off]
    rfl
  case ended =>
    have steps : (msg.flatMap tab.code).length + path.length = bits.length := by rw [split, List.length_append]
    have walked := walk []
    rw [List.append_nil, ← split, steps, hufPos, if_neg inside, hufWalk] at walked
    rw [hufDecode_containerBytes valid short, walked]
    rfl

/-! ### A broken entry -/

/-- The reader at an entry: its checks in their order, and the entries after it (rules R190, R191). -/
theorem hufReadEntries_at (pre : List Byte) (sym len : Byte) (more : List Byte) (k : Nat) (good : CodeTable) :
    hufReadEntries (pre ++ sym :: len :: more) (k + 1) pre.length good =
      if good.getLast?.any fun e => sym.toNat ≤ e.1.toNat then malformed pre.length
      else if len.toNat = 0 then malformed (pre.length + 1)
      else if more.length < ceil8 len.toNat then malformed (pre.length + 2)
      else if ((unpackBits (more.take (ceil8 len.toNat))).drop len.toNat).any id then
        malformed (pre.length + 2 + ceil8 len.toNat - 1)
      else if good.clashes ((unpackBits (more.take (ceil8 len.toNat))).take len.toNat) then malformed pre.length
      else hufReadEntries (pre ++ sym :: len :: more) k (pre.length + 2 + ceil8 len.toNat)
        (good ++ [(sym, (unpackBits (more.take (ceil8 len.toNat))).take len.toNat)]) := by
  obtain ⟨atSym, atLen, after⟩ := entry_at pre sym len more
  have length : (pre ++ sym :: len :: more).length = pre.length + 2 + more.length := by
    simp only [List.length_append, List.length_cons]
    omega
  have whole : ¬ (pre ++ sym :: len :: more).length < pre.length + 2 := by omega
  have cut : (pre ++ sym :: len :: more).length < pre.length + 2 + ceil8 len.toNat ↔ more.length < ceil8 len.toNat := by
    omega
  rw [hufReadEntries, if_neg whole]
  simp only [atSym, atLen, after, cut]

/-- When the reading of the entries after the valid ones `good` fails, HUF_DEC reports where. -/
theorem exec_hufDec_of_entry {s : State} {k n q : Nat} {good : CodeTable} {tail : List Byte}
    (goodValid : good = [] ∨ ValidTable good) (toRead : k = good.length + (n + 1)) (atMost : k ≤ 256)
    (input : HoldsInput s (be16 k ++ good.flatMap hufEntryBytes ++ tail))
    (fails : hufReadEntries (be16 k ++ good.flatMap hufEntryBytes ++ tail) (n + 1)
      (be16 k ++ good.flatMap hufEntryBytes).length good = malformed q) :
    ∃ t, exec .hufDec s = .next t ∧ Raised s t 2 q := by
  refine exec_hufDec_of_malformed input ?_
  rw [hufDecode_entries good goodValid k (by omega) atMost, show k - good.length = n + 1 by omega]
  rw [List.length_append, length_be16] at fails
  rw [fails]
  rfl

/-- Settles O32: each clause is the check of `hufReadEntries_at` that applies, no earlier one applying. -/
theorem hufDecChecksEachEntry : Obligations.HufDecChecksEachEntry := by
  rintro s k good tail p fewer atMost goodValid rfl input
  obtain ⟨n, toRead⟩ := Nat.exists_eq_add_of_lt fewer
  have ascending : good.Pairwise fun a b => a.1.toNat < b.1.toNat := by
    obtain rfl | valid := goodValid
    · exact .nil
    · exact valid.ascending
  have raises := fun q => exec_hufDec_of_entry (q := q) goodValid toRead atMost input
  have offset : (be16 k ++ good.flatMap hufEntryBytes).length = 2 + (good.flatMap hufEntryBytes).length := by simp
  rw [← offset]
  refine ⟨fun cut => raises _ ?cut, ?entry⟩
  case cut => rw [hufReadEntries, if_pos (by rw [List.length_append]; omega)]
  case entry =>
    rintro sym len more rfl
    have entry := hufReadEntries_at (be16 k ++ good.flatMap hufEntryBytes) sym len more n good
    have inOrder : (∀ e ∈ good, e.1.toNat < sym.toNat) →
        ¬ (good.getLast?.any fun e => decide (sym.toNat ≤ e.1.toNat)) = true := by
      rw [getLast?_any_le ascending]
      rintro above ⟨e, mem, below⟩
      exact below.not_gt (above e mem)
    have someBits : len ≠ 0 → len.toNat ≠ 0 := mt fun zero => BitVec.eq_of_toNat_eq zero
    rw [show (len.toNat + 7) / 8 = ceil8 len.toNat from rfl]
    refine ⟨fun below => raises _ ?order, fun above zero => raises _ ?zero, fun above nonzero short => raises _ ?short,
      fun above nonzero whole ⟨j, isPad, inside, set⟩ => raises _ ?pad,
      fun c rest above nonzero length bytes clash => raises _ ?clash⟩
    case order => rw [entry, if_pos ((getLast?_any_le ascending sym).2 below)]
    case zero => rw [entry, if_neg (inOrder above), if_pos (zero ▸ rfl)]
    case short => rw [entry, if_neg (inOrder above), if_neg (someBits nonzero), if_pos short]
    case pad =>
      have taken : (more.take (ceil8 len.toNat)).length = ceil8 len.toNat := List.length_take_of_le whole
      have padSet : ((unpackBits (more.take (ceil8 len.toNat))).drop len.toNat).any id = true :=
        any_drop_unpackBits isPad (taken.symm ▸ inside) (by rwa [byteAt_take (Nat.div_lt_of_lt_mul inside)])
      rw [entry, if_neg (inOrder above), if_neg (someBits nonzero), if_neg whole.not_gt, if_pos padSet]
      congr 1
      omega
    case clash =>
      obtain ⟨code, padding⟩ := take_unpackBits_packBits c rest
      rw [length, ← bytes] at code padding
      have whole : ¬ more.length < ceil8 len.toNat := by
        rw [bytes, List.length_append, length_packBits, length]
        omega
      rw [entry, if_neg (inOrder above), if_neg (someBits nonzero), if_neg whole, if_neg (by simp [padding]),
        code, if_pos ((clashes_iff good c).2 clash)]

end Sys2Proof.Machine
end

section
/-! The Huffman tree and encoder, rules R180 to R187: one round of the construction, its start, what HUF_TREE and HUF_ENC write, and
the four obligations these settle. -/

namespace Sys2Proof.Machine

/-! ### The construction -/

/-- Settles O22: a round takes the first two entries of the ordered structure, and putting their node back keeps the order because
its seq is new. -/
theorem theTreeJoinsTheTwoLeastNodes : Obligations.TheTreeJoinsTheTwoLeastNodes := by
  intro fuel next q two sorted seqs
  match q, two with
  | x :: y :: rest, _ =>
    refine ⟨x, y, rest, _, rfl, rfl, hufInsert_perm _ rest, hufInsert_sorted _ rest ?sortedRest ?newSeq⟩
    case sortedRest => exact sorted.of_cons.of_cons
    case newSeq => exact fun e mem => (seqs e (by simp [mem])).ne

/-- Each symbol's leaf is in the structure the construction starts from. -/
theorem leaf_mem_hufQueue {xs : List Byte} {k : Nat} {b : Byte} (symbol : (symbols xs)[k]? = some b) :
    { tree := .leaf b (xs.count b), seq := k : HufEntry } ∈ hufQueue xs := by
  obtain ⟨inside, rfl⟩ := List.getElem?_eq_some_iff.1 symbol
  rw [(hufQueue_perm xs).mem_iff, hufLeaves_eq_mapIdx, List.mem_mapIdx]
  exact ⟨k, inside, rfl⟩

/-- Settles O23: `symbols` and `hufQueue` by their laws, and the tree of a non-empty input by its definition. -/
theorem thePriorityStructureStartsWithTheLeaves : Obligations.ThePriorityStructureStartsWithTheLeaves := by
  intro xs
  have size : (hufQueue xs).length = (symbols xs).length := by rw [(hufQueue_perm xs).length_eq, length_hufLeaves]
  refine ⟨symbols_ascending xs, mem_symbols xs, hufQueue_sorted xs, size, fun k b => leaf_mem_hufQueue,
    fun nonempty => ?tree⟩
  case tree =>
    obtain ⟨t, tree, -⟩ := hufTree_syms (mt (symbols_eq_nil_iff xs).1 nonempty)
    exact ⟨(symbols xs).length, t, tree, tree⟩

/-! ### HUF_TREE -/

theorem hufTreeOutput_nil : hufTreeOutput [] = [] := rfl

/-- An input of one byte value has the one-bit code 0 (rule R183). -/
theorem hufCodeTable_of_single {xs : List Byte} {b : Byte} (nonempty : xs ≠ []) (single : ∀ x ∈ xs, x = b) :
    hufCodeTable xs = [(b, [false])] := by
  obtain ⟨x, memX⟩ := List.exists_mem_of_ne_nil xs nonempty
  have occurs : b ∈ xs := single x memX ▸ memX
  have symbol : [b] = symbols xs := symbols_unique (List.pairwise_singleton _ b) fun y =>
    ⟨fun mem => List.mem_singleton.1 mem ▸ occurs, fun mem => List.mem_singleton.2 (single y mem)⟩
  obtain ⟨none, -⟩ | ⟨c, one, table⟩ := hufCodeTable_small (xs := xs) (by simp [← symbol])
  · exact absurd (symbol.trans none) (List.cons_ne_nil b [])
  · obtain rfl : b = c := List.singleton_inj.1 (symbol.trans one)
    exact table

theorem headerBytes_single (b : Byte) : headerBytes [(b, [false])] = [0, 1, b, 1, 0] := by
  have code : packBits [false] = [0] := by decide
  simp [headerBytes, be16, hufEntryBytes, code]

/-- Settles O24: the output of HUF_TREE is the header of the input's table, five bytes for one symbol. -/
theorem hufTreeWritesTheHeader : Obligations.HufTreeWritesTheHeader := by
  intro s xs input room
  have output : hufTreeOutput xs = if xs = [] then [] else headerBytes (hufCodeTable xs) := by
    split
    next empty => rw [empty, hufTreeOutput_nil]
    next nonempty => exact hufTreeOutput_of_ne_nil nonempty
  have fits : (hufTreeOutput xs).length ≤ s.outCap.toNat := by
    rw [output]
    split
    · exact Nat.zero_le _
    · exact room
  obtain ⟨t, executed, succeeded⟩ := exec_out (hufTree_result input) fits
  refine ⟨t, executed, output ▸ succeeded, fun b nonempty single => ?fiveBytes⟩
  case fiveBytes =>
    rw [← headerBytes_single, ← hufCodeTable_of_single nonempty single, ← hufTreeOutput_of_ne_nil nonempty]
    exact succeeded.output

/-! ### HUF_ENC -/

/-- A payload whose bits NBITS cannot count is an overflow (rule R187). -/
theorem hufEncode_long {xs : List Byte} (nonempty : xs ≠ [])
    (long : 4294967296 ≤ (xs.flatMap (hufCodeTable xs).code).length) : hufEncode xs = .error (.outputOverflow, 0) := by
  have positive : xs.length ≠ 0 := mt List.length_eq_zero_iff.1 nonempty
  rw [hufEncode, if_neg positive]
  exact if_pos long

/-- Settles O25: the encoder answers the container of its table and its codes, fewer than 2^32 bits (`hufEncode_ok_iff`), and an
overflow otherwise. -/
theorem hufEncWritesTheContainer : Obligations.HufEncWritesTheContainer := by
  rintro s xs bits input nonempty rfl
  have encodes := fun short => (hufEncode_ok_iff nonempty).2 ⟨short, rfl⟩
  have result := hufEnc_result input
  refine ⟨fun short room => ?container, fun overflow => ?overflow⟩
  case container => exact exec_out (by rw [result, encodes short, outOrRaise]) room
  case overflow =>
    by_cases long : 4294967296 ≤ (xs.flatMap (hufCodeTable xs).code).length
    · exact exec_err (e := .outputOverflow) (by decide) (by rw [result, hufEncode_long nonempty long, outOrRaise])
    · have tooLong := overflow.resolve_left long
      exact exec_out_overflow (by decide) (by rw [result, encodes (Nat.lt_of_not_le long), outOrRaise]) tooLong

end Sys2Proof.Machine
end

section
/-! Packing, rule R9: the bits of a packed bit-string and the bytes of the container integers, and the obligation they settle. -/

namespace Sys2Proof.Machine

theorem getD_packed_bits (bs : List Bool) (k : Nat) : (unpackBits (packBits bs)).getD k false = bs.getD k false := by
  rw [unpackBits_packBits]
  obtain inside | beyond := Nat.lt_or_ge k bs.length
  · rw [List.getD_append _ _ _ _ inside]
  · rw [List.getD_append_right _ _ _ _ beyond, List.getD_eq_default _ _ beyond, List.getD_eq_getElem?_getD,
      List.getElem?_getD_replicate_default_eq]

/-- Settles O19: unpacking a packed bit-string gives it back with pad bits of 0, and bit k of what is unpacked is bit 7 - k mod 8 of
byte k div 8 (`getD_unpackBits`); the integers are their definitions. -/
theorem packingIsMsbFirst : Obligations.PackingIsMsbFirst := by
  refine ⟨fun bs => ⟨length_packBits bs, fun k inside => ?bits⟩, fun v => ⟨?be16, ?be32⟩, fun xs p => ⟨?rd16, ?rd32⟩⟩
  case bits => rw [← getD_unpackBits _ k inside, getD_packed_bits]
  case be16 => simp [be16]
  case be32 => simp [be32]
  case rd16 => rw [rd16, Nat.mul_comm]
  case rd32 =>
    simp only [rd32, rd16, Nat.add_assoc p 2 1]
    omega

end Sys2Proof.Machine
end

section
/-! RLE, rules R160 to R162: what RLE_ENC writes, where RLE_DEC reports a malformed container, and the three obligations these
settle. -/

namespace Sys2Proof.Machine

/-- Settles O14: the encoder answers the pairs of the maximal runs (`rleEncode_runBytes`), two bytes each. -/
theorem rleEncWritesThePairsOfTheMaximalRuns : Obligations.RleEncWritesThePairsOfTheMaximalRuns := by
  intro s runs maximal input room
  have result : commandResult .rleEnc s.operands = .out (pairBytes (runPairs runs)) := by
    rw [rleEnc_result input, rleEncode_runBytes maximal]
  exact exec_out result ((length_pairBytes _).trans_le room)

/-- Settles O15: every input is the bytes of maximal runs with no more pairs than bytes (`exists_maximalRuns`). -/
theorem rleEncAcceptsEveryInput : Obligations.RleEncAcceptsEveryInput := by
  intro s xs input room
  obtain ⟨runs, maximal, rfl, few⟩ := exists_maximalRuns xs
  have fewBytes : 2 * (runPairs runs).length ≤ 2 * (runBytes runs).length := Nat.mul_le_mul_left 2 few
  obtain ⟨t, executed, succeeded⟩ :=
    rleEncWritesThePairsOfTheMaximalRuns s runs maximal input (fewBytes.trans room)
  refine ⟨runs, t, maximal, rfl, executed, succeeded, ?length⟩
  case length => rwa [succeeded.output.1, length_pairBytes]

/-- The first zero count of a container read from offset `p` on is reported at its own offset. -/
theorem rleDecodePairs_zero_count (k : Nat) : ∀ (p : Nat) (xs : List Byte), 2 * k + 1 < xs.length →
    byteAt xs (2 * k + 1) = 0 → (∀ j, j < k → byteAt xs (2 * j + 1) ≠ 0) →
    rleDecodePairs p xs = .error (.malformedInput, p + (2 * k + 1)) := by
  induction k with
  | zero =>
    intro p xs inside zero _
    match xs, inside with
    | v :: c :: rest, _ =>
      have zero : c = 0 := zero
      rw [rleDecodePairs, if_pos zero]
  | succ k ih =>
    intro p xs inside zero before
    match xs, inside with
    | v :: c :: rest, inside =>
      have nonzero : c ≠ 0 := before 0 (Nat.succ_pos k)
      have inRest : 2 * k + 1 < rest.length := by
        simp only [List.length_cons] at inside
        omega
      have tailFails := ih (p + 2) rest inRest zero fun j earlier => before (j + 1) (Nat.succ_lt_succ earlier)
      rw [rleDecodePairs, if_neg nonzero, tailFails, Except.map]
      congr 2
      omega

theorem exec_rleDec_of_malformed {s : State} {xs : List Byte} {p : Nat} (input : HoldsInput s xs)
    (fails : rleDecode xs = .error (.malformedInput, p)) : ∃ t, exec .rleDec s = .next t ∧ Raised s t 2 p :=
  exec_err (e := .malformedInput) (by decide) (by rw [rleDec_result input, fails, outOrRaise])

/-- Settles O17: the parity check comes first; the pairs before the first zero count are read over
(`rleDecodePairs_zero_count`). -/
theorem rleDecErrors : Obligations.RleDecErrors := by
  intro s xs input
  refine ⟨fun odd => exec_rleDec_of_malformed input ?odd,
    fun k even inside zero before => exec_rleDec_of_malformed input ?zero⟩
  case odd => rw [rleDecode, if_pos odd]
  case zero => rw [rleDecode, if_neg (by omega), rleDecodePairs_zero_count k 0 xs inside zero before, Nat.zero_add]

end Sys2Proof.Machine
end

section
/-! LZ77, rules R240 to R243: what LZ_MATCH, LZ_ENC and LZ_DEC answer, where LZ_DEC reports a bad token, and the five obligations
these settle. -/

namespace Sys2Proof.Machine

/-! ### LZ_MATCH -/

/-- An error of LZ_MATCH (rule R274). -/
theorem exec_lzMatch_err {s : State} {e : ErrKind} {info : Nat} (result : commandResult .lzMatch s.operands = .err e info) :
    ∃ t, exec .lzMatch s = .next t ∧ MatchRaised s t e.code info := by
  rw [exec_eq_completion, result]
  exact ⟨_, rfl, errorCompletion_matchRaised e info s⟩

/-- Settles O34: the result is the token at MATCH_POS, whose match the search found (`lzSearch_best`). -/
theorem lzMatchFindsTheOldestLongestMatch : Obligations.LzMatchFindsTheOldestLongestMatch := by
  intro s xs input inside
  have result := lzMatch_result input inside
  obtain ⟨dist, len⟩ := matched_fits result
  refine ⟨_, _, _, exec_eq_completion .lzMatch s, lzSearch_best s.window.toNat s.lookahead.toNat inside, ?found⟩
  case found =>
    rw [result]
    exact completion_matched_found _ dist len

/-- Settles O35: the length check and the position check of rule R142 raise the same error. -/
theorem lzMatchOutsideTheInputIsBadParameter : Obligations.LzMatchOutsideTheInputIsBadParameter := by
  intro s outside
  refine exec_lzMatch_err (e := .badParameter) ?_
  have position : ∀ r, checkPosition s.operands r = .err .badParameter 0 := fun r => if_pos outside
  rw [commandResult, lzMatchResult, position]
  obtain passed | failed := checkLength_cases s.operands (.err .badParameter 0)
  · exact passed
  · exact failed

/-! ### LZ_ENC -/

/-- Settles O37: the encoder's tokens are a greedy parse with at most one token per byte (`lzTokens_greedy`). -/
theorem lzEncWritesTheGreedyParse : Obligations.LzEncWritesTheGreedyParse := by
  intro s xs input room
  obtain ⟨parse, few⟩ := lzTokens_greedy xs s.window.toNat s.lookahead.toNat xs.length 0 (Nat.zero_le _) (Nat.sub_le _ _)
  have result := lzEnc_result input
  rw [lzEncode_eq_tokenBytes] at result
  generalize lzTokens xs s.window.toNat s.lookahead.toNat xs.length 0 = ks at *
  have fits : (tokenBytes ks).length ≤ s.outCap.toNat := by
    rw [length_tokenBytes]
    omega
  obtain ⟨t, executed, succeeded⟩ := exec_out result fits
  exact ⟨t, ks, executed, parse, few, succeeded⟩

/-! ### LZ_DEC -/

/-- Settles O39, by the decoder on legal tokens (`lzDecode_tokenBytes`). -/
theorem lzDecExpandsTheTokens : Obligations.LzDecExpandsTheTokens := by
  intro s ks ys legal expands input room
  have result : commandResult .lzDec s.operands = .out ys := by
    rw [lzDec_result input, lzDecode_tokenBytes legal expands, outOrRaise]
  exact exec_out result room

theorem exec_lzDec_of_error {s : State} {xs : List Byte} {e : ErrKind} {p : Nat} (input : HoldsInput s xs)
    (fails : lzDecode xs = .error (e, p)) : ∃ t, exec .lzDec s = .next t ∧ Raised s t e.code p :=
  exec_err (by decide) (by rw [lzDec_result input, fails, outOrRaise])

/-- The decoder at a token: the two checks of rule R243, then the copy. -/
theorem lzDecodeTokens_at {k : LzToken} (dist : k.dist ≤ 65535) (len : k.len ≤ 255) (p : Nat) (out rest : List Byte) :
    lzDecodeTokens p out (k.bytes ++ rest) =
      if ¬ (k.dist = 0 ↔ k.len = 0) then .error (.malformedInput, p)
      else if out.length < k.dist then .error (.decodeOutOfRange, p)
      else lzDecodeTokens (p + 4) (lzCopy k.len k.dist out ++ [k.lit]) rest := by
  obtain ⟨readDist, readLen⟩ := lzToken_fields dist len
  have bytes : k.bytes ++ rest =
      BitVec.ofNat 8 (k.dist / 256) :: BitVec.ofNat 8 k.dist :: BitVec.ofNat 8 k.len :: k.lit :: rest := rfl
  rw [bytes, lzDecodeTokens]
  simp only [readDist, readLen, ne_eq, eq_iff_iff]

/-- After legal tokens the decoder is at the next one with what they expand to. -/
theorem lzDecode_after {ks : List LzToken} {mid rest : List Byte} (bad : LzToken) (legal : ∀ k ∈ ks, LegalToken k)
    (expands : Expands [] ks mid) (whole : rest.length % 4 = 0) :
    lzDecode (tokenBytes ks ++ tokenBytes [bad] ++ rest) = lzDecodeTokens (4 * ks.length) mid (bad.bytes ++ rest) := by
  have noneCut : ¬ (tokenBytes ks ++ tokenBytes [bad] ++ rest).length % 4 ≠ 0 := by
    simp only [List.length_append, length_tokenBytes, List.length_singleton]
    omega
  rw [lzDecode, if_neg noneCut, List.append_assoc, lzDecodeTokens_expands legal expands, tokenBytes_singleton, Nat.zero_add]

/-- Settles O40: the length check comes first; after the legal tokens the decoder is at the bad one, and its two checks are those of
`lzDecodeTokens_at`. -/
theorem lzDecErrors : Obligations.LzDecErrors := by
  intro s xs input
  refine ⟨fun cut => exec_lzDec_of_error (e := .malformedInput) input ?cut, ?token⟩
  case cut => rw [lzDecode, if_pos cut]
  case token =>
    rintro ks bad rest mid legal expands dist len whole rfl
    have atBad := (lzDecode_after bad legal expands whole).trans (lzDecodeTokens_at dist len _ mid rest)
    refine ⟨fun mixed => exec_lzDec_of_error (e := .malformedInput) input ?mixed,
      fun even far => exec_lzDec_of_error (e := .decodeOutOfRange) input ?far⟩
    case mixed => rw [atBad, if_pos mixed]
    case far => rw [atBad, if_neg (not_not.2 even), if_pos far]

end Sys2Proof.Machine
end

section
/-! Completions and steps, rules R142 to R146: what every completion writes, who makes it, what its result depends on, and the ten
obligations these settle. -/

namespace Sys2Proof.Machine

/-- Settles O1: each word is its command's own (`decode_encode`). -/
theorem theEightWordsDecode : Obligations.TheEightWordsDecode :=
  ⟨decode_encode .rleEnc, decode_encode .rleDec, decode_encode .hufEnc, decode_encode .hufDec, decode_encode .hufTree,
    decode_encode .lzEnc, decode_encode .lzDec, decode_encode .lzMatch⟩

/-! ### Who moves -/

theorem step_of_mover_engine {s : State} (moves : s.mover = some .engine) : step s = engineStep (popTurn s) := by
  rw [step, moves]

theorem step_of_mover_host {s : State} (moves : s.mover = some .host) : step s = .next (hostTurn (popTurn s)) := by
  rw [step, moves]

theorem hostTurn_of_access {s : State} {a : HostAccess} {rest : List HostStep} (first : s.program = .access a :: rest) :
    hostTurn s = performAccess a { s with program := rest } := by
  rw [hostTurn, first]

/-- Settles O4: the engine's turn on a pending command that decodes. -/
theorem aStepRunsTheDecodedCommand : Obligations.AStepRunsTheDecodedCommand := by
  intro s i moves busy decodes
  have popped : decode (popTurn s).cmd = .ok i := decodes
  rw [step_of_mover_engine moves, engineStep, popTurn_busy, if_pos busy, popped]
  rfl

/-- Settles O5: the host's turn on a program that begins with an access. -/
theorem aStepPerformsTheHostsNextAccess : Obligations.AStepPerformsTheHostsNextAccess := by
  intro s a rest moves first
  rw [step_of_mover_host moves, hostTurn_of_access (s := popTurn s) first]
  rfl

/-- Settles O6: every kind of turn, every command included, answers a next state. -/
theorem everyStateHasANextState : Obligations.EveryStateHasANextState := by
  intro s
  obtain ⟨-, h⟩ | ⟨-, h⟩ | ⟨-, h⟩ | ⟨-, -, h⟩ | ⟨-, -, ⟨i, -, h⟩ | ⟨e, -, h⟩⟩ := step_cases s
  case inr.inr.inr.inr.inl => exact ⟨_, h.trans (exec_eq_completion i _)⟩
  all_goals exact ⟨_, h⟩

/-! ### The kind of a result -/

theorem perform_lzMatch (op : Operands) : perform 0x00000032#32 op = commandResult .lzMatch op :=
  perform_of_decode_ok (decode_encode .lzMatch) op

/-- LZ_MATCH never answers an output. -/
theorem cmd_ne_lzMatch_of_out {w : Word} {op : Operands} {bytes : List Byte} (result : perform w op = .out bytes) :
    w ≠ 0x00000032#32 := by
  rintro rfl
  rw [perform_lzMatch] at result
  obtain ⟨d, l, c, found⟩ | failed := (commandResult_kind .lzMatch op).2 rfl
  · exact nomatch result.symm.trans found
  · exact nomatch result.symm.trans failed

/-- Only LZ_MATCH answers a match. -/
theorem cmd_eq_lzMatch_of_matched {w : Word} {op : Operands} {d l : Nat} {c : Byte} (result : perform w op = .matched d l c) :
    w = 0x00000032#32 := by
  cases decodes : decode w with
  | error e => exact nomatch result.symm.trans (perform_of_decode_error decodes op)
  | ok i =>
    rw [perform_of_decode_ok decodes] at result
    refine (decode_isMatch decodes).1 (by_contra fun other => ?_)
    obtain ⟨out, written⟩ | ⟨e, k, failed⟩ := (commandResult_kind i op).1 other
    · exact nomatch result.symm.trans written
    · exact nomatch result.symm.trans failed

/-! ### Completion -/

/-- Settles O8: the engine's step is a completion with what `perform` answers (`engine_completes`), of the kind the word decides. -/
theorem completionAppliesTheResult : Obligations.CompletionAppliesTheResult := by
  intro s busy moves
  obtain ⟨m, steps, isMatch⟩ := engine_completes busy moves
  refine ⟨_, steps, ?_⟩
  have notMatch : s.cmd ≠ 0x00000032#32 → m = false := fun other => Bool.eq_false_iff.2 (mt isMatch.1 other)
  cases result : perform s.cmd s.operands with
  | out bytes =>
    obtain rfl := notMatch (cmd_ne_lzMatch_of_out result)
    dsimp only
    split
    next fits => exact completion_out_succeeded false fits
    next overflows =>
      rw [completion_out_overflow (s := popTurn s) false (Nat.lt_of_not_le overflows)]
      exact errorCompletion_raised .outputOverflow 0 _
  | matched d l c =>
    have word := cmd_eq_lzMatch_of_matched result
    rw [word, perform_lzMatch] at result
    obtain ⟨dist, len⟩ := matched_fits result
    exact completion_matched_found m dist len
  | err e info =>
    dsimp only
    split
    next word =>
      obtain rfl := isMatch.2 word
      exact errorCompletion_matchRaised e info _
    next other =>
      obtain rfl := notMatch other
      exact errorCompletion_raised e info _

/-- The codes 7 to 15 are never written (rule R28). -/
theorem ErrKind.code_le (e : ErrKind) : e.code.toNat ≤ 6 := by
  cases e <;> decide

theorem completion_errCode_le (m : Bool) (r : CmdResult) (s : State) : (completion m r s).errCode.toNat ≤ 6 := by
  obtain ⟨out, -, -, h⟩ | ⟨d, l, c, -, h⟩ | ⟨e, info, h, -⟩ := completion_cases m r s <;> rw [h]
  · exact Nat.zero_le 6
  · exact Nat.zero_le 6
  · exact e.code_le

/-- A completion of LZ_MATCH leaves OBUF alone (rules R143, R240; log entry 7). -/
theorem completion_lzMatch_keeps_obuf (s : State) :
    (completion true (commandResult .lzMatch s.operands) s).obuf = s.obuf ∧
      (completion true (commandResult .lzMatch s.operands) s).outLen = 0 := by
  obtain ⟨d, l, c, found⟩ | failed := (commandResult_kind .lzMatch s.operands).2 rfl
  · rw [found]
    exact ⟨rfl, rfl⟩
  · rw [failed]
    exact ⟨rfl, rfl⟩

/-- A completion of another command, or of a word that names none, leaves the MATCH registers alone (rules R37 to R39). -/
theorem completion_keeps_match {r : CmdResult} (noMatch : ∀ d l c, r ≠ .matched d l c) (s : State) :
    MatchKept s (completion false r s) := by
  obtain ⟨out, -, -, h⟩ | ⟨d, l, c, found, -⟩ | ⟨e, info, h, -⟩ := completion_cases false r s
  · exact h ▸ ⟨rfl, rfl, rfl⟩
  · exact absurd found (noMatch d l c)
  · exact h ▸ (errorCompletion_raised e info s).matchKept

theorem commandResult_ne_matched {i : Instr} (other : i ≠ .lzMatch) (op : Operands) (d l : Nat) (c : Byte) :
    commandResult i op ≠ .matched d l c := by
  obtain ⟨out, written⟩ | ⟨e, k, failed⟩ := (commandResult_kind i op).1 other
  · exact written ▸ nofun
  · exact failed ▸ nofun

/-- Settles O9: a command is a completion with its result (`exec_eq_completion`). -/
theorem everyCommandKeepsItsFrame : Obligations.EveryCommandKeepsItsFrame := by
  intro i s
  obtain ⟨idle, done⟩ := completion_ends (Instr.isMatch i) (commandResult i s.operands) s
  refine ⟨_, exec_eq_completion i s, completion_frame _ _ s, idle, done, completion_errCode_le _ _ s, ?lzMatch, fun other => ?other⟩
  case lzMatch =>
    rintro rfl
    obtain ⟨obuf, outLen⟩ := completion_lzMatch_keeps_obuf s
    exact ⟨fun a => congrArg (Buffer.read · a) obuf, outLen⟩
  case other =>
    rw [isMatch_false other]
    exact completion_keeps_match (commandResult_ne_matched other s.operands) s

/-- The length check of rule R142 is the same for all eight commands. -/
theorem commandResult_beyond_capacity (i : Instr) {op : Operands} (beyond : op.inCap < op.n) :
    commandResult i op = .err .badParameter 0 := by
  cases i <;> exact checkLength_of_lt beyond _

/-- Settles O10: the length check fails, and the error completion is of the command's kind. -/
theorem anInputBeyondCapacityIsBadParameter : Obligations.AnInputBeyondCapacityIsBadParameter := by
  intro i s beyond
  have result := commandResult_beyond_capacity i (op := s.operands) beyond
  by_cases word : i = .lzMatch
  · subst word
    obtain ⟨t, executed, raised⟩ := exec_lzMatch_err result
    exact ⟨t, executed, absurd rfl, fun _ => raised⟩
  · obtain ⟨t, executed, raised⟩ := exec_err word result
    exact ⟨t, executed, fun _ => raised, fun isMatch => absurd isMatch word⟩

theorem holdsInput_nil {s : State} (empty : s.inLen = 0) : HoldsInput s [] :=
  ⟨congrArg BitVec.toNat empty, Nat.zero_le _, fun i inside => absurd inside (Nat.not_lt_zero i)⟩

/-- Settles O11: every codec answers the empty output on the empty input. -/
theorem theEmptyInputGivesTheEmptyOutput : Obligations.TheEmptyInputGivesTheEmptyOutput := by
  intro i s empty other
  have input := holdsInput_nil empty
  refine exec_out ?result (Nat.zero_le _)
  case result =>
    cases i with
    | lzMatch => exact absurd rfl other
    | rleEnc => rw [rleEnc_result input, rleEncode, rleRuns, List.flatMap_nil]
    | rleDec => rw [rleDec_result input]; rfl
    | hufEnc => rw [hufEnc_result input]; rfl
    | hufDec => rw [hufDec_result input]; rfl
    | hufTree => rw [hufTree_result input]; rfl
    | lzEnc => rw [lzEnc_result input]; rfl
    | lzDec => rw [lzDec_result input]; rfl

/-! ### What the result depends on -/

/-- Two completions with one result, in blocks of one OUT_CAP, are of one kind (rule R145). -/
theorem completion_same_kind (m : Bool) (r : CmdResult) {s u : State} (cap : s.outCap = u.outCap) :
    (∃ out, completion m r s = finish (report 0 0 out.length (fillObuf out s)) ∧
      completion m r u = finish (report 0 0 out.length (fillObuf out u))) ∨
    (∃ d l c, completion m r s = finish (report 0 0 0 (setMatch d l c s)) ∧
      completion m r u = finish (report 0 0 0 (setMatch d l c u))) ∨
    (∃ e info, completion m r s = errorCompletion m e info s ∧ completion m r u = errorCompletion m e info u) := by
  cases r with
  | out bytes =>
    obtain overflows | fits := Nat.lt_or_ge s.outCap.toNat bytes.length
    · exact .inr (.inr ⟨_, _, completion_out_overflow m overflows, completion_out_overflow m (cap ▸ overflows)⟩)
    · exact .inl ⟨bytes, if_neg fits.not_gt, if_neg (cap ▸ fits.not_gt)⟩
  | matched d l c => exact .inr (.inl ⟨d, l, c, rfl, rfl⟩)
  | err e info => exact .inr (.inr ⟨e, info, rfl, rfl⟩)

/-- Two such completions report the same and write the same output. -/
theorem completion_same_report (m : Bool) (r : CmdResult) {s u : State} (cap : s.outCap = u.outCap) :
    (completion m r s).outLen = (completion m r u).outLen ∧ (completion m r s).errCode = (completion m r u).errCode ∧
      (completion m r s).errInfo = (completion m r u).errInfo ∧
      ∀ a, a < (completion m r s).outLen.toNat → (completion m r s).obuf.read a = (completion m r u).obuf.read a := by
  obtain ⟨out, h, h'⟩ | ⟨d, l, c, h, h'⟩ | ⟨e, info, h, h'⟩ := completion_same_kind m r cap <;> rw [h, h']
  · refine ⟨rfl, rfl, rfl, fun a below => ?_⟩
    have inside : a < out.length := below.trans_le (BitVec.toNat_ofNat out.length 32 ▸ Nat.mod_le _ _)
    exact (Buffer.read_ofBytes out _ a inside).trans (Buffer.read_ofBytes out _ a inside).symm
  · exact ⟨rfl, rfl, rfl, fun a below => absurd below (Nat.not_lt_zero a)⟩
  · exact ⟨rfl, rfl, rfl, fun a below => absurd below (Nat.not_lt_zero a)⟩

/-- Two completions of LZ_MATCH with one result leave the same MATCH registers. -/
theorem completion_same_match {r : CmdResult} (noOutput : ∀ bytes, r ≠ .out bytes) (s u : State) :
    MatchKept (completion true r u) (completion true r s) := by
  cases r with
  | out bytes => exact absurd rfl (noOutput bytes)
  | matched d l c => exact ⟨rfl, rfl, rfl⟩
  | err e info => exact ⟨rfl, rfl, rfl⟩

/-- Settles O12: the two steps are completions with one result, which is `perform` of equal operands (`operands_congr`). -/
theorem theResultDependsOnTheOperandsAlone : Obligations.TheResultDependsOnTheOperandsAlone := by
  intro s u busyS busyU movesS movesU cmd inLen window lookahead matchPos inCap outCap input
  obtain ⟨m, stepS, isMatch⟩ := engine_completes busyS movesS
  obtain ⟨m', stepU, isMatch'⟩ := engine_completes busyU movesU
  obtain rfl : m = m' := Bool.eq_iff_iff.2 (by rw [isMatch, isMatch', cmd])
  have sameResult : perform u.cmd u.operands = perform s.cmd s.operands := by
    rw [cmd, operands_congr inLen window lookahead matchPos inCap input]
  rw [sameResult] at stepU
  obtain ⟨outLen, errCode, errInfo, obuf⟩ :=
    completion_same_report m (perform s.cmd s.operands) (s := popTurn s) (u := popTurn u) outCap
  refine ⟨_, _, stepS, stepU, outLen, errCode, errInfo, obuf, fun word => ?registers⟩
  case registers =>
    obtain rfl := isMatch.2 word
    have noOutput : ∀ bytes, perform s.cmd s.operands ≠ .out bytes := fun _ result => cmd_ne_lzMatch_of_out result word
    obtain ⟨dist, len, lit⟩ := completion_same_match noOutput (popTurn s) (popTurn u)
    exact ⟨dist, len, lit⟩

/-- Settles O13: the second acceptance finds the operands the first completion kept (`completion_frame`), so the result is the
same. -/
theorem aFailureRepeats : Obligations.AFailureRepeats := by
  intro s busy moves
  obtain ⟨m, steps, -⟩ := engine_completes busy moves
  generalize completed : completion m (perform s.cmd s.operands) (popTurn s) = t at steps
  obtain ⟨cmd, -, inLen, window, lookahead, matchPos, inCap, outCap, ibuf, -, -, -⟩ : EngineFrame (popTurn s) t :=
    completed ▸ completion_frame m _ _
  obtain ⟨idle, -⟩ : t.busy = false ∧ t.done = true := completed ▸ completion_ends m _ _
  refine ⟨t, steps, fun _ => ?again⟩
  case again =>
    have accepted : performAccess (.regWrite 0x000 t.cmd) t = acceptCommand t.cmd t := by
      rw [performAccess_regWrite_idle idle]
      rfl
    rw [accepted]
    obtain ⟨t', u, stepS, stepU, -, errCode, errInfo, -, -⟩ := theResultDependsOnTheOperandsAlone s
      { acceptCommand t.cmd t with turns := [.engine] } busy rfl moves rfl cmd.symm inLen.symm window.symm lookahead.symm
      matchPos.symm inCap.symm outCap.symm fun a _ => (ibuf a).symm
    obtain rfl : t = t' := by simpa [steps] using stepS
    exact ⟨u, stepU, errCode.symm, errInfo.symm⟩

end Sys2Proof.Machine
end

section
/-! Register accesses, rules R24 and R311: what a read returns, busy or idle, what a write stores while idle, and the four
obligations these settle. -/

namespace Sys2Proof.Machine

variable {s : State} {off : BitVec 12}

/-! ### Writes -/

theorem and_not_eq_ite (flag clear : Bool) : (flag && !clear) = if clear then false else flag := by
  cases clear <;> simp

/-- Settles O45, by `performAccess_regWrite_status`. -/
theorem aWriteToStatusClearsFlags : Obligations.AWriteToStatusClearsFlags := by
  intro s off v at1
  rw [performAccess_regWrite_status at1, writeStatus, and_not_eq_ite, and_not_eq_ite]

/-- Settles O46: the access column of rule R24, offset by offset. -/
theorem registerWritesWhileIdle : Obligations.RegisterWritesWhileIdle := by
  intro s off v idle above
  rw [performAccess_regWrite_idle idle, regAt]
  generalize off.toNat / 4 = n at above ⊢
  match n, above with
  | 2, _ | 3, _ | 4, _ | 5, _ | 6, _ | 7, _ | 8, _ | 9, _ | 10, _ | 11, _ | 12, _ => rfl
  | n + 13, _ => rfl

/-! ### Reads -/

/-- The result registers stand at the offsets 0x008, 0x010, 0x020, 0x024 and 0x028 (rules R24, R311). -/
theorem exists_result_regAt_iff : (∃ r, regAt off = some r ∧ r.isResult = true) ↔ off.toNat / 4 ∈ [2, 4, 8, 9, 10] := by
  unfold regAt
  generalize off.toNat / 4 = n
  split <;> simp_all [RegName.isResult]

/-- While idle, and for every register but the results, a read returns the map's value, 0 where it holds no register. -/
theorem performAccess_regRead_map (shown : s.busy = false ∨ off.toNat / 4 ∉ [2, 4, 8, 9, 10]) :
    performAccess (.regRead off) s = observe (.reg off ((regAt off).elim 0 s.regValue)) s := by
  rw [← exists_result_regAt_iff] at shown
  cases reg : regAt off with
  | none => simp [performAccess, readReg, reg]
  | some r =>
    have notHidden : (s.busy && r.isResult) = false := by
      obtain idle | notResult := shown
      · rw [idle, Bool.false_and]
      · rw [Bool.eq_false_iff.2 fun result => notResult ⟨r, reg, result⟩, Bool.and_false]
    simp [performAccess, readReg, reg, notHidden]

/-- While BUSY a read of a result register returns a draw (rule R311). -/
theorem performAccess_regRead_hidden (busy : s.busy = true) (result : off.toNat / 4 ∈ [2, 4, 8, 9, 10]) :
    performAccess (.regRead off) s = observe (.reg off (Config.freeWord s.draws)) (takeDraw s) := by
  obtain ⟨r, reg, isResult⟩ := exists_result_regAt_iff.2 result
  simp [performAccess, readReg, reg, busy, isResult]

/-- STATUS as a number: its four fields at their places (rule R24). -/
theorem statusWord_toNat (s : State) :
    s.statusWord.toNat = s.busy.toNat + 2 * s.done.toNat + 16 * s.errCode.toNat + 256 * s.wbusy.toNat := by
  have fields : ∀ (busy done wbusy : Bool) (code : BitVec 4),
      (0#23 ++ BitVec.ofBool wbusy ++ code ++ 0#2 ++ BitVec.ofBool done ++ BitVec.ofBool busy).toNat =
        busy.toNat + 2 * done.toNat + 16 * code.toNat + 256 * wbusy.toNat := by decide
  exact fields s.busy s.done s.wbusy s.errCode

theorem toNat_setWidth_of_le {w v : Nat} (x : BitVec w) (le : w ≤ v) : (x.setWidth v).toNat = x.toNat := by
  rw [BitVec.toNat_setWidth, Nat.mod_eq_of_lt (x.isLt.trans_le (Nat.pow_le_pow_right (by decide) le))]

/-- Settles O47: the read returns the map's value, and the map is gone through offset by offset. -/
theorem registerReadsGiveTheMap : Obligations.RegisterReadsGiveTheMap := by
  intro s off shown
  refine ⟨_, performAccess_regRead_map shown, ?map⟩
  case map =>
    rw [regAt]
    generalize off.toNat / 4 = n
    match n with
    | 0 | 2 | 3 | 4 | 7 | 11 | 12 => rfl
    | 1 => exact statusWord_toNat s
    | 5 => exact toNat_setWidth_of_le s.window (by decide)
    | 6 => exact toNat_setWidth_of_le s.lookahead (by decide)
    | 8 => exact toNat_setWidth_of_le s.matchDist (by decide)
    | 9 => exact toNat_setWidth_of_le s.matchLen (by decide)
    | 10 => exact toNat_setWidth_of_le s.matchLit (by decide)
    | n + 13 => rfl

/-- Settles O48: a result register by `performAccess_regRead_hidden`, the buffers by the definition of a read. -/
theorem resultReadsWhileBusyAreFreshDraws : Obligations.ResultReadsWhileBusyAreFreshDraws := by
  intro s off a busy
  refine ⟨performAccess_regRead_hidden busy, ?obuf, performAccess_bufRead_ibuf a s⟩
  case obuf =>
    rw [performAccess, readBuf]
    exact if_pos busy

end Sys2Proof.Machine
end

section
/-! The invariant of a run: it holds at reset and every step keeps it, and the two obligations these settle. -/

namespace Sys2Proof.Machine

/-! ### What a step can do -/

/-- What one step does to the state: the cases of rules R12 and R286, the host's and the engine's turn taken apart. -/
inductive StepEffect (s t : State) : Prop
  /-- Whoever has the turn has nothing to do. -/
  | nothing (eq : t = popTurn s)
  /-- The host's next access. -/
  | access (a : HostAccess) (rest : List HostStep) (moves : s.mover = some .host) (first : s.program = .access a :: rest)
      (eq : t = performAccess a { popTurn s with program := rest })
  /-- A round of `wait`. -/
  | waited (r : HostRead) (rest : List HostStep) (moves : s.mover = some .host) (first : s.program = .wait :: rest)
      (eq : t = { popTurn s with program := if s.busy then .wait :: rest else rest, reads := r :: s.reads })
  /-- The completion of the pending command. -/
  | completed (m : Bool) (moves : s.mover = some .engine) (busy : s.busy = true) (isMatch : m = true ↔ s.cmd = 0x00000032#32)
      (eq : t = completion m (perform s.cmd s.operands) (popTurn s))
  /-- A reset. -/
  | reset (moves : s.mover = some .reset) (eq : t = resetBlock (popTurn s))

theorem popTurn_of_mover_none {s : State} (nobody : s.mover = none) : popTurn s = s := by
  cases turns : s.turns with
  | nil => rw [popTurn, turns, List.tail_nil, ← turns]
  | cons x l => exact nomatch (mover_cons turns).symm.trans nobody

theorem step_effect {s t : State} (steps : step s = .next t) : StepEffect s t := by
  obtain ⟨nobody, h⟩ | ⟨moves, h⟩ | ⟨moves, h⟩ | ⟨-, -, h⟩ | ⟨moves, busy, -⟩ := step_cases s
  · obtain rfl : s = t := by simpa [h] using steps
    exact .nothing (popTurn_of_mover_none nobody).symm
  · obtain rfl : hostTurn (popTurn s) = t := by simpa [h] using steps
    obtain ⟨-, turn⟩ | ⟨a, rest, first, turn⟩ | ⟨rest, r, first, turn⟩ := hostTurn_cases (popTurn s)
    · exact .nothing turn
    · exact .access a rest moves first turn
    · exact .waited r rest moves first turn
  · obtain rfl : resetBlock (popTurn s) = t := by simpa [h] using steps
    exact .reset moves rfl
  · obtain rfl : popTurn s = t := by simpa [h] using steps
    exact .nothing rfl
  · obtain ⟨m, h, isMatch⟩ := engine_completes busy moves
    obtain rfl : completion m (perform s.cmd s.operands) (popTurn s) = t := by simpa [h] using steps
    exact .completed m moves busy isMatch rfl

/-! ### Reset -/

/-- Reset meets the invariant under any legal capacities. -/
theorem State.Inv.resetFor {inCap outCap : Word} (inLegal : inCap ≠ 0) (outLegal : outCap ≠ 0) :
    (State.resetFor inCap outCap).Inv where
  ibufWf := .nil
  obufWf := .nil
  ibufInside := by simp [State.resetFor]
  obufInside := by simp [State.resetFor]
  inCapLegal := Nat.pos_of_ne_zero fun zero => inLegal (BitVec.eq_of_toNat_eq zero)
  outCapLegal := Nat.pos_of_ne_zero fun zero => outLegal (BitVec.eq_of_toNat_eq zero)
  errCodeLegal := Nat.zero_le 6
  busyShowsNothing := nofun
  noErrorNoInfo _ := rfl
  errorNoOutput _ := rfl
  outputFits := Nat.zero_le _
  outputWritten a below := absurd below (Nat.not_lt_zero a)
  drawsTaken := by simp [State.resetFor]

/-- An OPEN capacity of rule R6, one more than a number below 2^32 - 1, is legal. -/
theorem ofNat_succ_ne_zero (n : Fin 4294967295) : BitVec.ofNat 32 (n.val + 1) ≠ 0 := by
  intro zero
  have value := congrArg BitVec.toNat zero
  rw [BitVec.toNat_ofNat, Nat.mod_eq_of_lt (by omega)] at value
  exact Nat.succ_ne_zero _ value

/-- Settles O56: the state after reset meets the invariant, and the OPEN capacities are legal. -/
theorem theInvariantHoldsAtReset : Obligations.TheInvariantHoldsAtReset :=
  ⟨fun _ _ => State.Inv.resetFor, State.Inv.resetFor (ofNat_succ_ne_zero _) (ofNat_succ_ne_zero _)⟩

theorem ne_zero_of_legal {cap : Word} (legal : 1 ≤ cap.toNat) : cap ≠ 0 := by
  rintro rfl
  exact absurd legal (by decide)

/-! ### Each operation keeps the invariant -/

section
variable {s : State} (inv : s.Inv)
include inv

theorem State.Inv.popTurn : (popTurn s).Inv := { inv with }

theorem State.Inv.withProgram (rest : List HostStep) : State.Inv { s with program := rest } := { inv with }

theorem State.Inv.observed (r : HostRead) {n : Nat} (later : s.draws ≤ n) :
    State.Inv { s with reads := r :: s.reads, draws := n } :=
  { inv with
    drawsTaken := by
      obtain ⟨ibuf, obuf, apart⟩ := inv.drawsTaken
      exact ⟨ibuf.trans_le later, obuf.trans_le later, apart⟩ }

theorem State.Inv.dropWrite : (dropWrite s).Inv := { inv with }

theorem State.Inv.writeStatus (v : Word) : (writeStatus v s).Inv :=
  { inv with
    busyShowsNothing := fun busy => by
      obtain ⟨done, code, info⟩ := inv.busyShowsNothing busy
      exact ⟨by rw [writeStatus_done, done, Bool.false_and], code, info⟩ }

theorem State.Inv.acceptCommand (w : Word) : (acceptCommand w s).Inv :=
  { inv with
    errCodeLegal := Nat.zero_le 6
    busyShowsNothing := fun _ => ⟨rfl, rfl, rfl⟩
    noErrorNoInfo := fun _ => rfl
    errorNoOutput := fun error => absurd rfl error }

theorem State.Inv.withOperands (il : Word) (wi : BitVec 16) (la : BitVec 8) (mp : Word) :
    State.Inv { s with inLen := il, window := wi, lookahead := la, matchPos := mp } := { inv with }

theorem State.Inv.writeIbuf {a : Nat} (v : Byte) (inside : a < s.inCap.toNat) :
    State.Inv { s with ibuf := s.ibuf.write a v } :=
  { inv with
    ibufWf := Memory.wf_write a v inv.ibufWf
    ibufInside := fun c mem => by
      obtain rfl | old := Memory.mem_write mem
      · exact inside
      · exact inv.ibufInside c old }

theorem State.Inv.writeObuf {a : Nat} (v : Byte) (inside : a < s.outCap.toNat) :
    State.Inv { s with obuf := s.obuf.write a v } :=
  { inv with
    obufWf := Memory.wf_write a v inv.obufWf
    obufInside := fun c mem => by
      obtain rfl | old := Memory.mem_write mem
      · exact inside
      · exact inv.obufInside c old
    outputWritten := fun x below => by
      rw [Buffer.write, Memory.read?_write]
      split
      · rfl
      · exact inv.outputWritten x below }

theorem State.Inv.performAccess (a : HostAccess) : (performAccess a s).Inv := by
  cases performAccess_effect a s with
  | read r d _ _ eq => exact eq ▸ inv.observed r (Nat.le_add_right _ _)
  | dropped _ _ eq => exact eq ▸ inv.dropWrite
  | status _ v _ _ eq => exact eq ▸ inv.writeStatus v
  | accepted _ w _ _ _ eq => exact eq ▸ inv.acceptCommand w
  | ignored _ _ eq => exact eq.symm ▸ inv
  | operand il wi la mp _ _ eq => exact eq ▸ inv.withOperands il wi la mp
  | ibuf _ v _ _ inside eq => exact eq ▸ inv.writeIbuf v inside
  | obuf _ v _ _ inside eq => exact eq ▸ inv.writeObuf v inside

/-- OBUF filled anew takes a draw of its own. -/
theorem State.Inv.fresh_obuf_draw : s.ibuf.draw < s.draws + 1 ∧ s.draws < s.draws + 1 ∧ s.ibuf.draw ≠ s.draws := by
  obtain ⟨ibuf, -, -⟩ := inv.drawsTaken
  omega

theorem State.Inv.output_completion {out : List Byte} (fits : out.length ≤ s.outCap.toNat) :
    (finish (report 0 0 out.length (fillObuf out s))).Inv := by
  have length : (BitVec.ofNat 32 out.length).toNat = out.length :=
    BitVec.toNat_ofNat out.length 32 ▸ Nat.mod_eq_of_lt (fits.trans_lt s.outCap.isLt)
  exact
    { inv with
      obufWf := Memory.wf_ofBytes out 0
      obufInside := fun c mem => by
        obtain ⟨-, inside⟩ := Memory.mem_ofBytes mem
        rw [Nat.zero_add] at inside
        exact inside.trans_le fits
      errCodeLegal := Nat.zero_le 6
      busyShowsNothing := nofun
      noErrorNoInfo := fun _ => rfl
      errorNoOutput := fun error => absurd rfl error
      outputFits := length.trans_le fits
      outputWritten := fun a below => by
        have inside : a < out.length := below.trans_eq length
        simp [Memory.read?_ofBytes, inside]
      drawsTaken := inv.fresh_obuf_draw }

theorem State.Inv.match_completion (d l : Nat) (c : Byte) : (finish (report 0 0 0 (setMatch d l c s))).Inv :=
  { inv with
    errCodeLegal := Nat.zero_le 6
    busyShowsNothing := nofun
    noErrorNoInfo := fun _ => rfl
    errorNoOutput := fun _ => rfl
    outputFits := Nat.zero_le _
    outputWritten := fun a below => absurd below (Nat.not_lt_zero a) }

theorem State.Inv.errorCompletion (m : Bool) (e : ErrKind) (info : Nat) : (errorCompletion m e info s).Inv := by
  have isError : e.code ≠ 0 := by cases e <;> decide
  cases m with
  | true =>
    exact
      { inv.match_completion 0 0 0 with
        errCodeLegal := e.code_le
        busyShowsNothing := nofun
        noErrorNoInfo := fun noError => absurd noError isError
        errorNoOutput := fun _ => rfl }
  | false =>
    exact
      { inv.output_completion (out := []) (Nat.zero_le _) with
        errCodeLegal := e.code_le
        busyShowsNothing := nofun
        noErrorNoInfo := fun noError => absurd noError isError
        errorNoOutput := fun _ => rfl }

theorem State.Inv.completion (m : Bool) (r : CmdResult) : (completion m r s).Inv := by
  obtain ⟨out, -, fits, h⟩ | ⟨d, l, c, -, h⟩ | ⟨e, info, h, -⟩ := completion_cases m r s
  · exact h ▸ inv.output_completion fits
  · exact h ▸ inv.match_completion d l c
  · exact h ▸ inv.errorCompletion m e info

theorem State.Inv.resetBlock : (resetBlock s).Inv :=
  { State.Inv.resetFor (ne_zero_of_legal inv.inCapLegal) (ne_zero_of_legal inv.outCapLegal) with
    drawsTaken := ⟨Nat.lt_add_of_pos_right Nat.two_pos, Nat.lt_succ_self _, (Nat.lt_succ_self _).ne⟩ }

end

/-- Settles O57: each effect a step can have keeps the invariant. -/
theorem everyStepKeepsTheInvariant : Obligations.EveryStepKeepsTheInvariant := by
  intro s t inv steps
  cases step_effect steps with
  | nothing eq => exact eq ▸ inv.popTurn
  | access a rest _ _ eq => exact eq ▸ (inv.popTurn.withProgram rest).performAccess a
  | waited r rest _ _ eq =>
    exact eq ▸ (inv.popTurn.withProgram (if s.busy then .wait :: rest else rest)).observed r le_rfl
  | completed m _ _ _ eq => exact eq ▸ inv.popTurn.completion m _
  | reset _ eq => exact eq ▸ inv.popTurn.resetBlock

end Sys2Proof.Machine
end

section
/-! What changes what, rules R26, R29, R37 to R43 and R286: who can change BUSY, WBUSY, a MATCH register and a byte of IBUF, and the
five obligations these settle. -/

namespace Sys2Proof.Machine

/-- Settles O7: an idle block whose host has nothing left has no effect but that nothing happens. -/
theorem anIdleBlockKeepsItsState : Obligations.AnIdleBlockKeepsItsState := by
  intro s idle done noReset
  obtain ⟨t, steps⟩ := everyStateHasANextState s
  refine ⟨t, steps, ?_⟩
  cases step_effect steps with
  | nothing eq => exact eq ▸ ⟨by constructor <;> rfl, rfl, rfl⟩
  | access a rest _ first _ => exact nomatch done.symm.trans first
  | waited r rest _ first _ => exact nomatch done.symm.trans first
  | completed m _ busy _ _ => exact nomatch idle.symm.trans busy
  | reset moves _ => exact absurd moves noReset

/-! ### BUSY -/

/-- Only an acceptance sets BUSY. -/
theorem performAccess_sets_busy {a : HostAccess} {s : State} (idle : s.busy = false) (busy : (performAccess a s).busy = true) :
    ∃ off w, a = .regWrite off w ∧ off.toNat / 4 = 0 ∧ (performAccess a s).cmd = w := by
  cases performAccess_effect a s with
  | accepted off w _ isWrite at0 eq => exact ⟨off, w, isWrite, at0, eq ▸ rfl⟩
  | read _ _ _ _ eq | dropped _ _ eq | status _ _ _ _ eq | ignored _ _ eq | operand _ _ _ _ _ _ eq | ibuf _ _ _ _ _ eq
  | obuf _ _ _ _ _ eq =>
    rw [eq] at busy
    exact nomatch idle.symm.trans busy

/-- A flag that a step leaves alone is neither set nor cleared by it. -/
theorem flag_unmoved {b : Bool} {P Q : Prop} : (b = false → b = true → P) ∧ (b = true → b = false → Q) := by
  cases b <;> simp

/-- Settles O51: an access sets BUSY by an acceptance only and never ends it; a completion ends it with DONE, a reset without. -/
theorem onlyAcceptanceAndCompletionMoveBusy : Obligations.OnlyAcceptanceAndCompletionMoveBusy := by
  intro s t steps
  cases step_effect steps with
  | nothing eq => exact eq ▸ flag_unmoved
  | access a rest moves first eq =>
    subst eq
    refine ⟨fun idle busy => ?accepted, fun busy idle => ?kept⟩
    case accepted =>
      obtain ⟨off, w, rfl, at0, cmd⟩ := performAccess_sets_busy (s := { popTurn s with program := rest }) idle busy
      exact ⟨moves, off, w, rest, first, at0, cmd⟩
    case kept =>
      obtain ⟨-, -, stays⟩ := performAccess_keeps a { popTurn s with program := rest }
      exact nomatch idle.symm.trans (stays busy)
  | waited r rest _ _ eq => exact eq ▸ flag_unmoved
  | completed m moves busy _ eq =>
    obtain ⟨-, done⟩ := completion_ends m (perform s.cmd s.operands) (popTurn s)
    exact ⟨fun idle => (nomatch idle.symm.trans busy), fun _ _ => .inl ⟨moves, eq ▸ done⟩⟩
  | reset moves eq =>
    subst eq
    exact ⟨fun _ busy => (nomatch busy), fun _ _ => .inr moves⟩

/-! ### WBUSY -/

/-- Only a dropped write sets WBUSY. -/
theorem performAccess_sets_wbusy {a : HostAccess} {s : State} (before : s.wbusy = false)
    (after : (performAccess a s).wbusy = true) : s.busy = true ∧ a.droppable = true := by
  cases performAccess_effect a s with
  | dropped busy write _ => exact ⟨busy, write⟩
  | status _ _ _ _ eq =>
    rw [eq, writeStatus_wbusy, before, Bool.false_and] at after
    exact nomatch after
  | read _ _ _ _ eq | accepted _ _ _ _ _ eq | ignored _ _ eq | operand _ _ _ _ _ _ eq | ibuf _ _ _ _ _ eq
  | obuf _ _ _ _ _ eq =>
    rw [eq] at after
    exact nomatch before.symm.trans after

/-- Only a write to STATUS with bit 8 set clears WBUSY. -/
theorem performAccess_clears_wbusy {a : HostAccess} {s : State} (before : s.wbusy = true)
    (after : (performAccess a s).wbusy = false) :
    ∃ off v, a = .regWrite off v ∧ off.toNat / 4 = 1 ∧ v.getLsbD 8 = true := by
  cases performAccess_effect a s with
  | status off v isWrite at1 eq =>
    rw [eq, writeStatus_wbusy, before, Bool.true_and, Bool.not_eq_false'] at after
    exact ⟨off, v, isWrite, at1, after⟩
  | dropped _ _ eq =>
    rw [eq] at after
    exact nomatch after
  | read _ _ _ _ eq | accepted _ _ _ _ _ eq | ignored _ _ eq | operand _ _ _ _ _ _ eq | ibuf _ _ _ _ _ eq
  | obuf _ _ _ _ _ eq =>
    rw [eq] at after
    exact nomatch before.symm.trans after

/-- Settles O52: of an access by the two lemmas above; a completion keeps WBUSY (`completion_frame`). -/
theorem onlyDroppedWritesSetWbusy : Obligations.OnlyDroppedWritesSetWbusy := by
  intro s t steps
  cases step_effect steps with
  | nothing eq => exact eq ▸ flag_unmoved
  | access a rest moves first eq =>
    subst eq
    refine ⟨fun before after => ?set, fun before after => ?clear⟩
    case set =>
      obtain ⟨busy, write⟩ := performAccess_sets_wbusy (s := { popTurn s with program := rest }) before after
      exact ⟨busy, moves, a, rest, first, write⟩
    case clear =>
      obtain ⟨off, v, rfl, at1, bit⟩ := performAccess_clears_wbusy (s := { popTurn s with program := rest }) before after
      exact .inr ⟨moves, off, v, rest, first, at1, bit⟩
  | waited r rest _ _ eq => exact eq ▸ flag_unmoved
  | completed m _ _ _ eq =>
    have kept : t.wbusy = s.wbusy := eq ▸ (completion_frame m _ (popTurn s)).wbusy
    exact kept ▸ flag_unmoved
  | reset moves eq =>
    subst eq
    exact ⟨fun _ after => (nomatch after), fun _ _ => .inl moves⟩

/-! ### The MATCH registers -/

theorem performAccess_keeps_match (a : HostAccess) (s : State) : MatchKept s (performAccess a s) := by
  cases performAccess_effect a s with
  | read _ _ _ _ eq | dropped _ _ eq | status _ _ _ _ eq | accepted _ _ _ _ _ eq | ignored _ _ eq | operand _ _ _ _ _ _ eq
  | ibuf _ _ _ _ _ eq | obuf _ _ _ _ _ eq =>
    rw [eq]
    exact ⟨rfl, rfl, rfl⟩

/-- Settles O53: an access keeps the registers, and so does the completion of a word other than LZ_MATCH's, whose result is no
match. -/
theorem onlyLzMatchChangesTheMatchRegisters : Obligations.OnlyLzMatchChangesTheMatchRegisters := by
  intro s t steps noReset noMatch
  cases step_effect steps with
  | nothing eq => exact eq ▸ ⟨rfl, rfl, rfl⟩
  | access a rest _ _ eq =>
    obtain ⟨dist, len, lit⟩ := performAccess_keeps_match a { popTurn s with program := rest }
    exact eq ▸ ⟨dist, len, lit⟩
  | waited r rest _ _ eq => exact eq ▸ ⟨rfl, rfl, rfl⟩
  | completed m moves busy isMatch eq =>
    have other : s.cmd ≠ 0x00000032#32 := fun word => noMatch ⟨moves, busy, word⟩
    obtain rfl : m = false := Bool.eq_false_iff.2 (mt isMatch.1 other)
    obtain ⟨dist, len, lit⟩ :=
      completion_keeps_match (fun _ _ _ result => other (cmd_eq_lzMatch_of_matched result)) (popTurn s)
    exact eq ▸ ⟨dist, len, lit⟩
  | reset moves _ => exact absurd moves noReset

/-! ### IBUF and the capacities -/

theorem performAccess_keeps_capacities (a : HostAccess) (s : State) :
    (performAccess a s).inCap = s.inCap ∧ (performAccess a s).outCap = s.outCap := by
  cases performAccess_effect a s with
  | read _ _ _ _ eq | dropped _ _ eq | status _ _ _ _ eq | accepted _ _ _ _ _ eq | ignored _ _ eq | operand _ _ _ _ _ _ eq
  | ibuf _ _ _ _ _ eq | obuf _ _ _ _ _ eq =>
    rw [eq]
    exact ⟨rfl, rfl⟩

/-- An access that changes a byte of IBUF is a write of that byte while idle (rule R64). -/
theorem performAccess_changes_ibuf {a : HostAccess} {s : State} {x : Nat}
    (changes : (performAccess a s).ibuf.read x ≠ s.ibuf.read x) :
    s.busy = false ∧ ∃ addr v, a = .bufWrite .ibuf addr v ∧ addr.toNat = x ∧ x < s.inCap.toNat ∧
      (performAccess a s).ibuf.read x = v := by
  cases performAccess_effect a s with
  | ibuf addr v idle isWrite inside eq =>
    rw [eq] at changes ⊢
    obtain rfl : x = addr.toNat := by_contra fun other => changes (s.ibuf.read_write_other _ x v other)
    exact ⟨idle, addr, v, isWrite, rfl, inside, s.ibuf.read_write_same _ v⟩
  | read _ _ _ _ eq | dropped _ _ eq | status _ _ _ _ eq | accepted _ _ _ _ _ eq | ignored _ _ eq | operand _ _ _ _ _ _ eq
  | obuf _ _ _ _ _ eq =>
    rw [eq] at changes
    exact absurd rfl changes

/-- Settles O54: of an access by the two lemmas above; a completion keeps the capacities and IBUF (`completion_frame`). -/
theorem onlyTheHostWritesIbuf : Obligations.OnlyTheHostWritesIbuf := by
  intro s t steps
  cases step_effect steps with
  | nothing eq =>
    subst eq
    exact ⟨rfl, rfl, fun _ x changes => absurd rfl changes⟩
  | access a rest moves first eq =>
    subst eq
    obtain ⟨inCap, outCap⟩ := performAccess_keeps_capacities a { popTurn s with program := rest }
    refine ⟨inCap, outCap, fun _ x changes => ?write⟩
    case write =>
      obtain ⟨idle, addr, v, rfl, at_x, inside, read⟩ :=
        performAccess_changes_ibuf (s := { popTurn s with program := rest }) changes
      exact ⟨idle, moves, addr, v, rest, first, at_x, inside, read⟩
  | waited r rest _ _ eq =>
    subst eq
    exact ⟨rfl, rfl, fun _ x changes => absurd rfl changes⟩
  | completed m _ _ _ eq =>
    subst eq
    have frame := completion_frame m (perform s.cmd s.operands) (popTurn s)
    exact ⟨frame.inCap, frame.outCap, fun _ x changes => absurd (frame.ibuf x) changes⟩
  | reset moves eq =>
    subst eq
    exact ⟨rfl, rfl, fun noReset => absurd moves noReset⟩

end Sys2Proof.Machine
end

section
/-! Runs of several steps, rules R71, R109, R303 and R313: a `load`, host turns while a command is pending, completion and `wait` under
the model's fairness, and the four obligations these settle. -/

namespace Sys2Proof.Machine

theorem run_zero (s : State) : Host.Core.run core 0 s = .next s := rfl

/-- A run of one step. -/
theorem run_one {s t : State} (steps : step s = .next t) : Host.Core.run core 1 s = .next t := run_succ 0 steps

/-! ### Loading IBUF -/

/-- What writes to IBUF change: IBUF, what the host has still to do, and the turns left. -/
def loading (b : Buffer) (p : List HostStep) (l : List Turn) (s : State) : State := { s with ibuf := b, program := p, turns := l }

/-- An idle host whose program begins with a write inside IBUF, whatever turns without a reset are given, is past it. -/
theorem bufWrite_reaches {s : State} {a : Nat} {v : Byte} {rest : List HostStep} (idle : s.busy = false)
    (noReset : .reset ∉ s.turns) (inside : a < s.inCap.toNat)
    (first : s.program = .access (.bufWrite .ibuf (BitVec.ofNat 32 a) v) :: rest) :
    ∃ k l, 1 ≤ k ∧ k + l.length ≤ s.turns.length + 1 ∧ .reset ∉ l ∧
      Host.Core.run core k s = .next (loading (s.ibuf.write a v) rest l s) := by
  obtain ⟨k, l, atLeast, atMost, noReset', run⟩ := host_reaches idle noReset first
  have address : (BitVec.ofNat 32 a).toNat = a :=
    BitVec.toNat_ofNat a 32 ▸ Nat.mod_eq_of_lt (inside.trans s.inCap.isLt)
  have write := performAccess_bufWrite_ibuf_inside (s := { s with program := rest, turns := l }) (a := BitVec.ofNat 32 a)
    (v := v) idle (address.trans_lt inside)
  rw [address] at write
  exact ⟨k, l, atLeast, atMost, noReset', run.trans (congrArg _ write)⟩

/-- The same of consecutive writes of `ys` from address `a` up: the bytes are in IBUF, and nothing below `a` has changed. -/
theorem writeBytes_reaches (last : List HostStep) (ys : List Byte) : ∀ (a : Nat) (s : State), s.busy = false →
    .reset ∉ s.turns → a + ys.length ≤ s.inCap.toNat → s.program = writeBytes .ibuf a ys ++ last →
    ∃ k b l, ys.length ≤ k ∧ k + l.length ≤ s.turns.length + ys.length ∧ .reset ∉ l ∧
      Host.Core.run core k s = .next (loading b last l s) ∧
      (∀ i, i < ys.length → b.read (a + i) = byteAt ys i) ∧ ∀ x, x < a → b.read x = s.ibuf.read x := by
  induction ys with
  | nil =>
    intro a s _ noReset _ program
    have here : loading s.ibuf last s.turns s = s := by rw [loading, show last = s.program from program.symm]
    exact ⟨0, s.ibuf, s.turns, le_rfl, (Nat.zero_add _).le, noReset, (run_zero s).trans (congrArg _ here.symm),
      fun i inside => absurd inside (Nat.not_lt_zero i), fun _ _ => rfl⟩
  | cons v ys ih =>
    intro a s idle noReset room program
    rw [List.length_cons] at room
    obtain ⟨k, l, atLeast, atMost, noReset', run⟩ := bufWrite_reaches idle noReset (by omega) program
    generalize later : loading (s.ibuf.write a v) (writeBytes .ibuf (a + 1) ys ++ last) l s = u at run
    obtain ⟨ibuf, turns, inCap⟩ : u.ibuf = s.ibuf.write a v ∧ u.turns = l ∧ u.inCap = s.inCap := by
      subst later
      exact ⟨rfl, rfl, rfl⟩
    obtain ⟨k', b, l', atLeast', atMost', noReset'', run', bytes, below⟩ :=
      ih (a + 1) u (later ▸ idle) (turns ▸ noReset') (by rw [inCap]; omega) (later ▸ rfl)
    rw [turns] at atMost'
    rw [ibuf] at below
    refine ⟨k + k', b, l', ?atLeast, ?atMost, noReset'', ?run, fun i inside => ?byte, fun x before => ?frame⟩
    case atLeast =>
      rw [List.length_cons]
      omega
    case atMost =>
      rw [List.length_cons]
      omega
    case run => exact (run_add k' run).trans (run'.trans (later ▸ rfl))
    case byte =>
      cases i with
      | zero => exact (below a (Nat.lt_succ_self a)).trans (s.ibuf.read_write_same a v)
      | succ i =>
        rw [byteAt_cons_succ, ← bytes i (Nat.lt_of_succ_lt_succ inside)]
        congr 1
        omega
    case frame => exact (below x (Nat.lt_succ_of_lt before)).trans (s.ibuf.read_write_other a x v before.ne)

/-- Settles O50: the writes of the bytes (`writeBytes_reaches`), then the write of IN_LEN. -/
theorem loadMakesTheInput : Obligations.LoadMakesTheInput := by
  intro s xs idle noReset room program
  obtain ⟨k, b, l, atLeast, atMost, noReset', run, bytes, -⟩ :=
    writeBytes_reaches [.access (.regWrite RegName.inLen.offset (BitVec.ofNat 32 xs.length))] xs 0 s idle noReset
      (by rwa [Nat.zero_add]) (by rw [program, assemble, List.flatMap_singleton, HostLine.expand])
  obtain ⟨k', l', atLeast', atMost', -, run'⟩ :=
    host_reaches (s := loading b [.access (.regWrite RegName.inLen.offset (BitVec.ofNat 32 xs.length))] l s) idle noReset' rfl
  have atMost' : k' + l'.length ≤ l.length + 1 := atMost'
  have write := performAccess_regWrite_idle (off := RegName.inLen.offset) (s := loading b [] l' s) idle
    (BitVec.ofNat 32 xs.length)
  have length : (BitVec.ofNat 32 xs.length).toNat = xs.length :=
    BitVec.toNat_ofNat xs.length 32 ▸ Nat.mod_eq_of_lt (room.trans_lt s.inCap.isLt)
  simp only [Nat.zero_add] at bytes
  exact ⟨k + k', { loading b [] l' s with inLen := BitVec.ofNat 32 xs.length }, by omega, by omega,
    (run_add k' run).trans (run'.trans (congrArg _ write)), ⟨length, room, bytes⟩, rfl, idle, rfl, rfl, rfl, rfl⟩

/-! ### Host turns while a command is pending -/

/-- What host turns while BUSY can change (`hostTurn_whileBusy`), and the turns left. -/
def disturbed (w : Bool) (d : Nat) (p : List HostStep) (r : List HostRead) (f : Bool) (l : List Turn) (s : State) : State :=
  { s with wbusy := w, draws := d, program := p, reads := r, done := f, turns := l }

theorem hostTurns_whileBusy (l : List Turn) (n : Nat) : ∀ s : State, s.busy = true → s.turns = List.replicate n .host ++ l →
    ∃ w d p r f, Host.Core.run core n s = .next (disturbed w d p r f l s) := by
  induction n with
  | zero =>
    intro s _ turns
    have here : disturbed s.wbusy s.draws s.program s.reads s.done l s = s := by
      rw [disturbed, show l = s.turns from turns.symm]
    exact ⟨_, _, _, _, _, (run_zero s).trans (congrArg _ here.symm)⟩
  | succ n ih =>
    intro s busy turns
    have left : (popTurn s).turns = List.replicate n .host ++ l := congrArg List.tail turns
    obtain ⟨w, d, p, r, f, turn⟩ := hostTurn_whileBusy (s := popTurn s) busy
    have steps : step s = .next (disturbed w d p r f (popTurn s).turns s) :=
      (step_of_mover_host (mover_cons turns)).trans (congrArg _ turn)
    obtain ⟨w', d', p', r', f', run⟩ := ih (disturbed w d p r f (popTurn s).turns s) busy left
    exact ⟨w', d', p', r', f', (run_succ n steps).trans run⟩

/-- Two completions with one result, in states with one OUT_CAP and the same MATCH registers, leave the same MATCH registers. -/
theorem completion_match_congr (m : Bool) (r : CmdResult) {s u : State} (cap : s.outCap = u.outCap) (same : MatchKept u s) :
    MatchKept (completion m r u) (completion m r s) := by
  obtain ⟨dist, len, lit⟩ := same
  obtain ⟨out, h, h'⟩ | ⟨d, l, c, h, h'⟩ | ⟨e, info, h, h'⟩ := completion_same_kind m r cap <;> rw [h, h']
  · exact ⟨dist, len, lit⟩
  · exact ⟨rfl, rfl, rfl⟩
  · cases m with
    | true => exact ⟨rfl, rfl, rfl⟩
    | false => exact ⟨dist, len, lit⟩

/-- A completion shows the same result whatever host turns came before it. -/
theorem completion_sameResult (m : Bool) (q : CmdResult) (w : Bool) (d : Nat) (p : List HostStep) (r : List HostRead) (f : Bool)
    (l : List Turn) (s : State) : SameResult (completion m q s) (completion m q (disturbed w d p r f l s)) := by
  generalize later : disturbed w d p r f l s = u
  have frameS := completion_frame m q s
  have frameU := completion_frame m q u
  obtain ⟨idleS, doneS⟩ := completion_ends m q s
  obtain ⟨idleU, doneU⟩ := completion_ends m q u
  obtain ⟨outLen, errCode, errInfo, obuf⟩ := completion_same_report m q (s := s) (u := u) (later ▸ rfl)
  obtain ⟨dist, len, lit⟩ := completion_match_congr m q (s := s) (u := u) (later ▸ rfl) (later ▸ ⟨rfl, rfl, rfl⟩)
  subst later
  exact
    { cmd := frameS.cmd.trans frameU.cmd.symm
      busy := idleS.trans idleU.symm
      done := doneS.trans doneU.symm
      errCode := errCode
      errInfo := errInfo
      inLen := frameS.inLen.trans frameU.inLen.symm
      outLen := outLen
      window := frameS.window.trans frameU.window.symm
      lookahead := frameS.lookahead.trans frameU.lookahead.symm
      matchPos := frameS.matchPos.trans frameU.matchPos.symm
      matchDist := dist
      matchLen := len
      matchLit := lit
      inCap := frameS.inCap.trans frameU.inCap.symm
      outCap := frameS.outCap.trans frameU.outCap.symm
      ibuf := fun a => (frameS.ibuf a).trans (frameU.ibuf a).symm
      obuf := obuf }

/-- Settles O58: the host turns leave a state that differs in what `disturbed` lists; its completion shows the same result. -/
theorem hostTurnsWhileBusyDoNotChangeTheResult : Obligations.HostTurnsWhileBusyDoNotChangeTheResult := by
  intro s n busy
  obtain ⟨w, d, p, r, f, run⟩ :=
    hostTurns_whileBusy [.engine] n { s with turns := List.replicate n .host ++ [.engine] } busy rfl
  obtain ⟨m, atOnce, isMatch⟩ := engine_completes (s := { s with turns := [.engine] }) busy rfl
  obtain ⟨m', later, isMatch'⟩ := engine_completes (s := disturbed w d p r f [.engine] s) busy rfl
  obtain rfl : m = m' := Bool.eq_iff_iff.2 (isMatch.trans isMatch'.symm)
  exact ⟨_, _, run_one atOnce, (run_add 1 run).trans (run_one later),
    completion_sameResult m _ w d p r f [] (popTurn { s with turns := [.engine] })⟩

/-! ### Fairness -/

/-- The engine's turn on a pending command completes it. -/
theorem engine_ends {s : State} (busy : s.busy = true) (moves : s.mover = some .engine) :
    ∃ t, step s = .next t ∧ EngineFrame (popTurn s) t ∧ t.busy = false ∧ t.done = true := by
  obtain ⟨m, steps, -⟩ := engine_completes busy moves
  exact ⟨_, steps, completion_frame m _ _, completion_ends m _ _⟩

/-- Settles O59, by the turns given: a host turn leaves the command pending, the engine's completes it, and with no turn left the
engine moves. -/
theorem everyPendingCommandCompletes : Obligations.EveryPendingCommandCompletes := by
  intro s busy noReset
  generalize given : s.turns = l at noReset
  induction l generalizing s with
  | nil =>
    obtain ⟨t, steps, -, ends⟩ := engine_ends busy (by rw [mover_nil given, if_pos busy])
    exact ⟨1, t, le_rfl, run_one steps, ends⟩
  | cons x l ih =>
    cases x with
    | reset => exact absurd List.mem_cons_self noReset
    | engine =>
      obtain ⟨t, steps, -, ends⟩ := engine_ends busy (mover_cons given)
      exact ⟨1, t, Nat.le_add_left 1 _, run_one steps, ends⟩
    | host =>
      obtain ⟨sameTurns, stays⟩ := hostTurn_keeps (popTurn s)
      obtain ⟨k, t, few, run, ends⟩ := ih (hostTurn (popTurn s)) (stays busy) (sameTurns.trans (congrArg List.tail given))
        (List.not_mem_of_not_mem_cons noReset)
      exact ⟨k + 1, t, Nat.succ_le_succ few, (run_succ k (step_of_mover_host (mover_cons given))).trans run, ends⟩

/-- A host turn at a `wait`: past it when idle, still there when BUSY (rule R109). -/
theorem step_wait {s : State} {rest : List HostStep} (moves : s.mover = some .host) (first : s.program = .wait :: rest) :
    ∃ t, step s = .next t ∧ t.program = (if s.busy then .wait :: rest else rest) ∧ t.busy = s.busy ∧ t.turns = s.turns.tail := by
  obtain ⟨done, -⟩ | ⟨a, rest', access, -⟩ | ⟨rest', r, wait, turn⟩ := hostTurn_cases (popTurn s)
  · exact nomatch first.symm.trans done
  · exact nomatch first.symm.trans access
  · obtain rfl : rest = rest' := by simpa [first] using wait
    exact ⟨_, (step_of_mover_host moves).trans (congrArg _ turn), rfl, rfl, rfl⟩

/-- A turn given to the engine or to a reset leaves the host's program as it is and strikes itself off. -/
theorem step_keeps_program {s : State} (moves : s.mover = some .engine ∨ s.mover = some .reset) :
    ∃ t, step s = .next t ∧ t.program = s.program ∧ t.turns = s.turns.tail := by
  obtain engine | reset := moves
  · cases busy : s.busy with
    | true =>
      obtain ⟨t, steps, frame, -⟩ := engine_ends busy engine
      exact ⟨t, steps, frame.program, frame.turns⟩
    | false => exact ⟨popTurn s, by rw [step_of_mover_engine engine, engineStep, popTurn_busy, busy]; rfl, rfl, rfl⟩
  · exact ⟨resetBlock (popTurn s), step_of_mover_reset reset, rfl, rfl⟩

/-- With no turn given the engine completes what is pending, and then the host is past its `wait`. -/
theorem wait_ends_unhindered {s : State} {rest : List HostStep} (first : s.program = .wait :: rest) (given : s.turns = []) :
    ∃ k t, k ≤ 2 ∧ Host.Core.run core k s = .next t ∧ t.program = rest ∧ t.busy = false := by
  have passes : ∀ u : State, u.program = .wait :: rest → u.turns = [] → u.busy = false →
      ∃ t, step u = .next t ∧ t.program = rest ∧ t.busy = false := by
    intro u first given idle
    have moves : u.mover = some .host := by rw [mover_nil given, idle, first]; rfl
    obtain ⟨t, steps, program, sameBusy, -⟩ := step_wait moves first
    exact ⟨t, steps, by rw [program, idle]; rfl, sameBusy.trans idle⟩
  cases busy : s.busy with
  | false =>
    obtain ⟨t, steps, ends⟩ := passes s first given busy
    exact ⟨1, t, Nat.le_succ 1, run_one steps, ends⟩
  | true =>
    obtain ⟨u, completes, frame, idle, -⟩ := engine_ends busy (by rw [mover_nil given, busy]; rfl)
    obtain ⟨t, steps, ends⟩ := passes u (frame.program.trans first) (frame.turns.trans (congrArg List.tail given)) idle
    exact ⟨2, t, le_rfl, (run_succ 1 completes).trans (run_one steps), ends⟩

/-- Settles O60, by the turns given: a host turn is past the `wait` or finds BUSY, and the other turns keep the host's program. -/
theorem everyWaitLoopEnds : Obligations.EveryWaitLoopEnds := by
  intro s rest first
  generalize given : s.turns = l
  induction l generalizing s with
  | nil => exact wait_ends_unhindered first given
  | cons x l ih =>
    have goesOn : (∃ u, step s = .next u ∧ u.program = .wait :: rest ∧ u.turns = l) →
        ∃ k t, k ≤ (x :: l).length + 2 ∧ Host.Core.run core k s = .next t ∧ t.program = rest ∧ t.busy = false := by
      rintro ⟨u, steps, stillFirst, left⟩
      obtain ⟨k, t, few, run, ends⟩ := ih u stillFirst left
      exact ⟨k + 1, t, by rw [List.length_cons]; omega, (run_succ k steps).trans run, ends⟩
    have moves := mover_cons given
    have others : x ≠ .host → ∃ u, step s = .next u ∧ u.program = .wait :: rest ∧ u.turns = l := by
      intro other
      obtain ⟨u, steps, program, turns⟩ := step_keeps_program (s := s) (by cases x <;> simp_all)
      exact ⟨u, steps, program.trans first, turns.trans (congrArg List.tail given)⟩
    cases x with
    | engine | reset => exact goesOn (others (by decide))
    | host =>
      obtain ⟨u, steps, program, sameBusy, turns⟩ := step_wait moves first
      cases busy : s.busy with
      | true => exact goesOn ⟨u, steps, by rw [program, busy]; rfl, turns.trans (congrArg List.tail given)⟩
      | false => exact ⟨1, u, Nat.le_add_left 1 _, run_one steps, by rw [program, busy]; rfl, sameBusy.trans busy⟩

end Sys2Proof.Machine
end
